-- ==== Sys2Proof/Word.lean ====
section
/-!
DEFINITION. The widths of the block's values (00_scope.md R8, R10): every one is an unsigned bit vector.
-/

namespace Sys2Proof

/-- One byte of the wire, and the checksum register's width (R8: BYTE, CRC width). -/
abbrev Byte := BitVec 8

/-- The 16-bit value of a DataWord, and a command code (R8: WORD, command code size). -/
abbrev Word16 := BitVec 16

/-- The operand field of a request word, and a DataWord as one number (R70, R71). -/
abbrev Word24 := BitVec 24

/-- A host request word (R70). -/
abbrev Word32 := BitVec 32

/-- The data field of a response; the serial number's width (R77, R8). -/
abbrev Word48 := BitVec 48

/-- A packed response record (R77). -/
abbrev Word56 := BitVec 56

end Sys2Proof
end

