-- ==== Sys2Proof/Syntax.lean ====
section
/-!
DEFINITION. The instructions of the opcode table: the 13 host requests (30_encoding.md R72) and the 6 wire
commands of the catalog (R83), and the assembler line of R86. An operand's width stands in its type (R73).
-/

namespace Sys2Proof

/-- The timeout of a request (R76): passed on to every transport call, never interpreted. R76 gives the `t` of
BOUNDED(t) neither a unit nor a width: that it is a natural number is a DESIGN CHOICE (notes/assumptions/17.md). -/
inductive Tmo where
  | infinite
  | bounded (t : Nat)
  deriving DecidableEq, Repr

/-- One constructor per row of spec/opcode_table.json. -/
inductive Instr where
  /-- ATTACH, R164. -/
  | attach
  /-- IDENTIFY, R165. -/
  | identify
  /-- CHECK_IDENTITY, R200. -/
  | checkIdentity
  /-- START_PERIODIC, R166. -/
  | startPeriodic
  /-- STOP_PERIODIC, R167. -/
  | stopPeriodic
  /-- READ_SAMPLE, R168. -/
  | readSample
  /-- SET_TEMP_OFFSET raw16, R169. -/
  | setTempOffset (raw16 : Word16)
  /-- GET_TEMP_OFFSET, R170. -/
  | getTempOffset
  /-- CRC_INIT, R104. -/
  | crcInit
  /-- CRC_FEED b8, R105. -/
  | crcFeed (b8 : Byte)
  /-- ENCODE_WORD raw16, R122. -/
  | encodeWord (raw16 : Word16)
  /-- DECODE_WORD chunk, R123. -/
  | decodeWord (chunk : Word24)
  /-- READ_STATUS, R171. -/
  | readStatus
  /-- Wire command 0x3682 "Get serial number", R83, R142. -/
  | cmdGetSerial
  /-- Wire command 0x21B1 "Start periodic measurement", R83, R142. -/
  | cmdStartPeriodic
  /-- Wire command 0x3F86 "Stop periodic measurement", R83, R142. -/
  | cmdStopPeriodic
  /-- Wire command 0xEC05 "Read measurement", R83, R142. -/
  | cmdReadMeasurement
  /-- Wire command 0x241D "Set temperature offset" with its one outgoing word, R80, R83, R142. -/
  | cmdSetTempOffset (out : Word16)
  /-- Wire command 0x2318 "Get temperature offset", R83, R142. -/
  | cmdGetTempOffset
  deriving DecidableEq, Repr

/-- The six entries of the command catalog (R83). -/
inductive Command where
  | getSerial
  | startPeriodic
  | stopPeriodic
  | readMeasurement
  | setTempOffset
  | getTempOffset
  deriving DecidableEq, Repr

/-- An instruction as it is encoded: a request word of the host (R70), or a catalog command as the framer is
given it: a 16-bit code and the outgoing word, 0 where the command has none (R83; notes/assumptions/8.md). -/
inductive Encoded where
  | request (w : Word32)
  | command (code out : Word16)
  deriving DecidableEq, Repr

/-- The mnemonics of host requests, as R86's assembler lines name them. -/
inductive Mnemonic where
  | ATTACH | IDENTIFY | CHECK_IDENTITY | START_PERIODIC | STOP_PERIODIC | READ_SAMPLE | SET_TEMP_OFFSET
  | GET_TEMP_OFFSET | CRC_INIT | CRC_FEED | ENCODE_WORD | DECODE_WORD | READ_STATUS
  deriving DecidableEq, Repr

/-- One assembler line (R86): `MNEMONIC [imm][, tmo=…]`; without the suffix the timeout is INFINITE. -/
structure AsmLine where
  mnemonic : Mnemonic
  imm : Option Nat := none
  tmo : Tmo := .infinite
  deriving DecidableEq, Repr

/-- The operand width of a request, in bits (R73). -/
def Mnemonic.width : Mnemonic → Nat
  | .SET_TEMP_OFFSET => 16
  | .ENCODE_WORD => 16
  | .CRC_FEED => 8
  | .DECODE_WORD => 24
  | .ATTACH | .IDENTIFY | .CHECK_IDENTITY | .START_PERIODIC | .STOP_PERIODIC | .READ_SAMPLE
  | .GET_TEMP_OFFSET | .CRC_INIT | .READ_STATUS => 0

/-- The mnemonic of a host request (R72); a wire command has none, since no request selects it (R84). -/
def Instr.mnemonic : Instr → Option Mnemonic
  | .attach => some .ATTACH
  | .identify => some .IDENTIFY
  | .checkIdentity => some .CHECK_IDENTITY
  | .startPeriodic => some .START_PERIODIC
  | .stopPeriodic => some .STOP_PERIODIC
  | .readSample => some .READ_SAMPLE
  | .setTempOffset _ => some .SET_TEMP_OFFSET
  | .getTempOffset => some .GET_TEMP_OFFSET
  | .crcInit => some .CRC_INIT
  | .crcFeed _ => some .CRC_FEED
  | .encodeWord _ => some .ENCODE_WORD
  | .decodeWord _ => some .DECODE_WORD
  | .readStatus => some .READ_STATUS
  | .cmdGetSerial | .cmdStartPeriodic | .cmdStopPeriodic | .cmdReadMeasurement | .cmdSetTempOffset _
  | .cmdGetTempOffset => none

/-- A row that the host can request (R72); the other rows are wire commands, which no host request is (R84, R87). -/
def Instr.isRequest (i : Instr) : Bool := i.mnemonic.isSome

end Sys2Proof
end

