-- ==== Sys2Proof/WellFormed.lean ====
section
/-!
DEFINITION. What a well-formed term is. The operands of `Instr` have the widths of R73 in their types, so every
`Instr` is well formed as a term; the checks here are on what the types do not say: a timeout's range (R76), that
a host request is not a wire command (R84, R87), and an assembler line's operand (R86).
-/

namespace Sys2Proof

/-- R76: `TMO` is INFINITE or BOUNDED(t) with t > 0. -/
def Tmo.wf : Tmo → Bool
  | .infinite => true
  | .bounded t => 0 < t

/-- A request the host can make: a host-request row with a timeout of R76. -/
def Request.wf (i : Instr) (tmo : Tmo) : Bool := i.isRequest && tmo.wf

/-- R86: an operation without operand has no `imm`; the others have one that fits the operand width of R73. -/
def AsmLine.immWf (l : AsmLine) : Bool :=
  match l.imm with
  | none => l.mnemonic.width == 0
  | some n => l.mnemonic.width != 0 && n < 2 ^ l.mnemonic.width

/-- R86 and R76: a line that assembles. Anything else is an assembly error, not an encoding. -/
def AsmLine.wf (l : AsmLine) : Bool := l.immWf && l.tmo.wf

end Sys2Proof
end

