-- ==== Sys2Proof/Decode.lean ====
section
/-!
DEFINITION. The decoder of host request words (30_encoding.md R70 to R75) and of the catalog's command codes
(R79, R83), total and strict; after it the encoder, from the same tables, and the assembler of R86.
-/

namespace Sys2Proof

/-- Why a word decodes to no instruction (R74, R75, R84). -/
inductive DecodeError where
  /-- Op code 0x0, 0xE or 0xF. -/
  | reservedOp
  /-- A nonzero reserved bit, or a nonzero operand bit above the operation's width. -/
  | strayBits
  /-- A 16-bit code that is none of the catalog's six. -/
  | codeNotInCatalog
  deriving DecidableEq, Repr

/-! ### Fields (R71) -/

/-- `op = REQ[31:28]`. -/
def opField (w : Word32) : BitVec 4 := w.extractLsb' 28 4

/-- `rsv = REQ[27:24]`. -/
def rsvField (w : Word32) : BitVec 4 := w.extractLsb' 24 4

/-- `opd = REQ[23:0]`; the `chunk` of DECODE_WORD. -/
def opdField (w : Word32) : Word24 := w.extractLsb' 0 24

/-- `raw16 = opd[15:0]`. -/
def raw16Field (w : Word32) : Word16 := w.extractLsb' 0 16

/-- `b8 = opd[7:0]`. -/
def b8Field (w : Word32) : Byte := w.extractLsb' 0 8

/-! ### Host request words -/

/-- One row of R73: the word selects the operation when `REQ & mask == pattern`. -/
structure RequestRow where
  mnemonic : Mnemonic
  pattern : Word32
  mask : Word32
  deriving DecidableEq, Repr

/-- R73's table. -/
def requestTable : List RequestRow :=
  [ ⟨.ATTACH, 0x10000000, 0xFFFFFFFF⟩,
    ⟨.IDENTIFY, 0x20000000, 0xFFFFFFFF⟩,
    ⟨.CHECK_IDENTITY, 0x30000000, 0xFFFFFFFF⟩,
    ⟨.START_PERIODIC, 0x40000000, 0xFFFFFFFF⟩,
    ⟨.STOP_PERIODIC, 0x50000000, 0xFFFFFFFF⟩,
    ⟨.READ_SAMPLE, 0x60000000, 0xFFFFFFFF⟩,
    ⟨.SET_TEMP_OFFSET, 0x70000000, 0xFFFF0000⟩,
    ⟨.GET_TEMP_OFFSET, 0x80000000, 0xFFFFFFFF⟩,
    ⟨.CRC_INIT, 0x90000000, 0xFFFFFFFF⟩,
    ⟨.CRC_FEED, 0xA0000000, 0xFFFFFF00⟩,
    ⟨.ENCODE_WORD, 0xB0000000, 0xFFFF0000⟩,
    ⟨.DECODE_WORD, 0xC0000000, 0xFF000000⟩,
    ⟨.READ_STATUS, 0xD0000000, 0xFFFFFFFF⟩ ]

/-- The operation of the row, if no reserved bit and no operand bit above its width is set (R74, R75). -/
def selectRow (w pattern mask : Word32) (i : Instr) : Except DecodeError Instr :=
  if w &&& mask = pattern then .ok i else .error .strayBits

/-- R74: the row with the word's op code, if the rest of the word fits it. -/
def decodeRequest (w : Word32) : Except DecodeError Instr :=
  match (opField w).toNat with
  | 0x1 => selectRow w 0x10000000 0xFFFFFFFF .attach
  | 0x2 => selectRow w 0x20000000 0xFFFFFFFF .identify
  | 0x3 => selectRow w 0x30000000 0xFFFFFFFF .checkIdentity
  | 0x4 => selectRow w 0x40000000 0xFFFFFFFF .startPeriodic
  | 0x5 => selectRow w 0x50000000 0xFFFFFFFF .stopPeriodic
  | 0x6 => selectRow w 0x60000000 0xFFFFFFFF .readSample
  | 0x7 => selectRow w 0x70000000 0xFFFF0000 (.setTempOffset (raw16Field w))
  | 0x8 => selectRow w 0x80000000 0xFFFFFFFF .getTempOffset
  | 0x9 => selectRow w 0x90000000 0xFFFFFFFF .crcInit
  | 0xA => selectRow w 0xA0000000 0xFFFFFF00 (.crcFeed (b8Field w))
  | 0xB => selectRow w 0xB0000000 0xFFFF0000 (.encodeWord (raw16Field w))
  | 0xC => selectRow w 0xC0000000 0xFF000000 (.decodeWord (opdField w))
  | 0xD => selectRow w 0xD0000000 0xFFFFFFFF .readStatus
  | _ => .error .reservedOp

/-! ### Wire commands -/

/-- The code column of the catalog (R83). -/
def Command.code : Command → Word16
  | .getSerial => 0x3682
  | .startPeriodic => 0x21B1
  | .stopPeriodic => 0x3F86
  | .readMeasurement => 0xEC05
  | .setTempOffset => 0x241D
  | .getTempOffset => 0x2318

/-- The catalog's entries, in R83's order. -/
def catalog : List Command :=
  [.getSerial, .startPeriodic, .stopPeriodic, .readMeasurement, .setTempOffset, .getTempOffset]

/-- The catalog entry with this code (R83, R84). -/
def commandOfCode (code : Word16) : Option Command := catalog.find? fun c => c.code == code

/-- A command with no outgoing word has nothing after its code (R79, R85). -/
def noOut (out : Word16) (i : Instr) : Except DecodeError Instr :=
  if out = 0 then .ok i else .error .strayBits

/-- The wire command of a code and its outgoing word (R83). -/
def decodeCommand (code out : Word16) : Except DecodeError Instr :=
  match commandOfCode code with
  | some .getSerial => noOut out .cmdGetSerial
  | some .startPeriodic => noOut out .cmdStartPeriodic
  | some .stopPeriodic => noOut out .cmdStopPeriodic
  | some .readMeasurement => noOut out .cmdReadMeasurement
  | some .setTempOffset => .ok (.cmdSetTempOffset out)
  | some .getTempOffset => noOut out .cmdGetTempOffset
  | none => .error .codeNotInCatalog

/-- The decoder, on both encoding levels of 30_encoding.md. -/
def decode : Encoded → Except DecodeError Instr
  | .request w => decodeRequest w
  | .command code out => decodeCommand code out

/-- A table row's number as an encoded instruction: 32 bits are a request word, 16 a command code with the
outgoing word above it, bits 31:16 (notes/assumptions/8.md). -/
def tableWord (nbits w : Nat) : Encoded :=
  if nbits = 16 then .command (BitVec.ofNat 16 w) (BitVec.ofNat 16 (w / 2 ^ 16))
  else .request (BitVec.ofNat 32 w)

/-- The instruction the decoder reads from the bits of a row of spec/opcode_table.json. -/
def decodeTableWord (nbits w : Nat) : Option Instr := (decode (tableWord nbits w)).toOption

/-! ### The encoder -/

/-- A request word from its fields (R70). -/
def requestWord (op : BitVec 4) (opd : Word24) : Word32 := op ++ 0#4 ++ opd

/-- The words of an instruction (R70, R72, R79, R83). -/
def encode : Instr → Encoded
  | .attach => .request (requestWord 0x1 0)
  | .identify => .request (requestWord 0x2 0)
  | .checkIdentity => .request (requestWord 0x3 0)
  | .startPeriodic => .request (requestWord 0x4 0)
  | .stopPeriodic => .request (requestWord 0x5 0)
  | .readSample => .request (requestWord 0x6 0)
  | .setTempOffset raw16 => .request (requestWord 0x7 (0#8 ++ raw16))
  | .getTempOffset => .request (requestWord 0x8 0)
  | .crcInit => .request (requestWord 0x9 0)
  | .crcFeed b8 => .request (requestWord 0xA (0#16 ++ b8))
  | .encodeWord raw16 => .request (requestWord 0xB (0#8 ++ raw16))
  | .decodeWord chunk => .request (requestWord 0xC chunk)
  | .readStatus => .request (requestWord 0xD 0)
  | .cmdGetSerial => .command Command.getSerial.code 0
  | .cmdStartPeriodic => .command Command.startPeriodic.code 0
  | .cmdStopPeriodic => .command Command.stopPeriodic.code 0
  | .cmdReadMeasurement => .command Command.readMeasurement.code 0
  | .cmdSetTempOffset out => .command Command.setTempOffset.code out
  | .cmdGetTempOffset => .command Command.getTempOffset.code 0

/-! ### The assembler -/

/-- The instruction of a mnemonic and its operand (R86), the operand taken at the width of R73. -/
def Mnemonic.instr (m : Mnemonic) (imm : Nat) : Instr :=
  match m with
  | .ATTACH => .attach
  | .IDENTIFY => .identify
  | .CHECK_IDENTITY => .checkIdentity
  | .START_PERIODIC => .startPeriodic
  | .STOP_PERIODIC => .stopPeriodic
  | .READ_SAMPLE => .readSample
  | .SET_TEMP_OFFSET => .setTempOffset (BitVec.ofNat 16 imm)
  | .GET_TEMP_OFFSET => .getTempOffset
  | .CRC_INIT => .crcInit
  | .CRC_FEED => .crcFeed (BitVec.ofNat 8 imm)
  | .ENCODE_WORD => .encodeWord (BitVec.ofNat 16 imm)
  | .DECODE_WORD => .decodeWord (BitVec.ofNat 24 imm)
  | .READ_STATUS => .readStatus

/-- R86: a well-formed line is a request; any other line is an assembly error (`none`), not an encoding. -/
def assemble (l : AsmLine) : Option (Encoded × Tmo) :=
  if l.wf then some (encode (l.mnemonic.instr (l.imm.getD 0)), l.tmo) else none

end Sys2Proof
end

