-- ==== Sys2Proof/Config.lean ====
section
/-!
DEFINITION. What the spec leaves open for the whole machine: its named parameters (00_scope.md R9) and the
outcomes of transport calls (R13). None of them has a body, so no proof can rest on a value of one.
-/

namespace Sys2Proof

/-- What the transport reports at the point where the block waits for it (R13, R56).
`stall` says that the call has not completed by the end of this step: it is still in progress and a later step goes
on with it (notes/assumptions/4.md, DESIGN CHOICE). -/
inductive Draw where
  /-- The call returned `OK`, with these bytes where it receives (a `BusTx` returns none). -/
  | ok (bytes : List Byte)
  /-- The call returned `ERR`. -/
  | err
  /-- The call has not completed yet. -/
  | stall
  deriving DecidableEq, Repr, Inhabited

/-- The open durations of R9. -/
inductive WaitParam where
  /-- `SETTLE_WAIT`: each of the two waits in CHECK_IDENTITY (R208). -/
  | settleWait
  /-- `CMD_EXEC_WAIT`: between a transmit and its receive, default none (R152). -/
  | cmdExecWait
  deriving DecidableEq, Repr

namespace Config

/-- FREE VALUE: the transport's outcome number `n`, where the state lists none (R13, R56, U2): an oracle draw
that obeys no law (notes/assumptions/3.md). -/
opaque freeDraw : Nat → Draw

/-- OPEN PARAMETERS of R9 (U11, U12): the nominal duration of each wait. R9 gives a duration neither a
unit nor a format: that it is a natural number is a DESIGN CHOICE (notes/assumptions/22.md). The model is untimed (R281):
no rule reads a duration, only `Action.wait` names which wait was made. -/
opaque duration : WaitParam → Nat

/-- OPEN PARAMETER of R9 (U14): `DEV_ADDR`, a property of the transport session. R9 gives it neither a width nor a
format: that it is a natural number is a DESIGN CHOICE (notes/assumptions/22.md). No rule reads it (R59). -/
opaque devAddr : Nat

end Config

end Sys2Proof
end

