-- ==== Sys2Proof/Machine/State.lean ====
section
/-!
DEFINITION. The machine's state as plain data (10_state.md), its reset value (R36, R270), and the ways a step can
stop. The fields of the MODEL's own stand apart at the end of `State`: the environment's inputs and outputs and
the framer's interface.
-/

namespace Sys2Proof.Machine

/-- MODE (R22). Code 3 is never held, so it is no constructor (notes/assumptions/12.md). -/
inductive Mode where
  | uninit
  | ready
  | periodic
  deriving DecidableEq, Repr

/-- Status codes 0 to 5 (R78). Codes 6 to 15 are never produced (U6, notes/assumptions/12.md). -/
inductive Status where
  | ok
  | transportError
  | checksumMismatch
  | protocolViolation
  | stateError
  | illegalRequest
  deriving DecidableEq, Repr

/-- The sequencer's phase (R30). -/
inductive Phase where
  | idle | exec | tx | rx | txrx | decode | settle1 | stop | settle2 | retry
  deriving DecidableEq, Repr

/-- A response record (R77, R89). -/
structure Response where
  status : Status
  errWord : BitVec 2
  data : Word48
  deriving DecidableEq, Repr

/-- An external action of the block (D1): a transport call (R13) or a settle wait (R200, R282). -/
inductive Action where
  | tx (frame : List Byte) (tmo : Tmo)
  | rx (n : Nat) (tmo : Tmo)
  | txRx (frame : List Byte) (n : Nat) (tmo : Tmo)
  | wait (p : WaitParam)
  deriving DecidableEq, Repr

/-- One event of the host's side, in the order in which they take effect (notes/assumptions/5.md). -/
inductive HostEvent where
  /-- A request word and its timeout, offered until it is accepted (R70, R161). -/
  | request (req : Word32) (tmo : Tmo)
  /-- A step boundary at which the host does nothing new. -/
  | quiet
  /-- Reset, or a power cycle (R270, R271). -/
  | reset
  deriving DecidableEq, Repr

/-- What a framer function returns to its caller (42_framer.md): `OK(words)` or `FAIL(status, err_word)`. -/
inductive FrameResult where
  | ok (words : List Word16)
  | fail (status : Status) (errWord : BitVec 2)
  deriving DecidableEq, Repr

/-- A catalog command presented to the framer: its code and outgoing word, undecoded (notes/assumptions/7.md). -/
structure FramerCommand where
  code : Word16
  out : Word16
  deriving DecidableEq, Repr

structure State where
  /-- MODE (R22). -/
  mode : Mode
  /-- UNUSABLE, sticky (R24). -/
  unusable : Bool
  /-- BUSY (R25). -/
  busy : Bool
  /-- CRC_ACC, the streaming checksum accumulator (R26). -/
  crcAcc : Byte
  /-- LAST_STATUS (R27). -/
  lastStatus : Status
  /-- LAST_ERR_WORD (R28). -/
  lastErrWord : BitVec 2
  /-- The phase, in place of a program counter (R30). -/
  phase : Phase
  /-- ATTEMPT: false in the first identify of CHECK_IDENTITY, true in its retry (R31). -/
  attempt : Bool
  /-- TXBUF, a cell with no value until a frame is written (R32, R37). -/
  txbuf : Option (List Byte)
  /-- RXBUF, a cell with no value until a receive returns `OK` (R32, R37). -/
  rxbuf : Option (List Byte)
  /-- The latched request word, a cell with no value until a request is accepted (R33, R37). -/
  req : Option Word32
  /-- The latched timeout, a cell with no value until a request is accepted (R33, R37). -/
  tmo : Option Tmo
  /-- MODEL'S OWN, input: the host's events still to take effect (notes/assumptions/5.md). -/
  host : List HostEvent
  /-- MODEL'S OWN, input: the transport's next outcomes, where the environment has fixed them (notes/assumptions/3.md). -/
  draws : List Draw
  /-- MODEL'S OWN: how many free draws have been read (notes/assumptions/3.md). -/
  drawIndex : Nat
  /-- MODEL'S OWN, output: the external actions made, oldest first (notes/assumptions/9.md). -/
  bus : List Action
  /-- MODEL'S OWN, output: the responses emitted, oldest first (notes/assumptions/9.md). -/
  responses : List Response
  /-- MODEL'S OWN: the catalog command presented to the framer and not started (notes/assumptions/7.md). -/
  command : Option FramerCommand
  /-- MODEL'S OWN: the framer's returned value, while the calling operation has not taken it (notes/assumptions/7.md). -/
  framerResult : Option FrameResult
  deriving DecidableEq, Repr

/-- How a step can stop with a fault. Each is reached only from a state that no run from reset reaches
(SAFE: the machine stops where the spec says it must, or where it gives no rule). -/
inductive Fault where
  /-- Raised by `withTmo` and `fetchLatched`: the request latch is read while it has no value. R37 demands the
  fault ("has departed from these rules and must fault"). Safe. -/
  | latchUnwritten
  /-- Raised by `resume`: TXBUF or RXBUF is read while it has no value, or TXBUF holds no catalog frame. R37. Safe. -/
  | bufferUnwritten
  /-- Raised by `resume`: BUSY = 1, but the phase and the latched operation are none in which a rule leaves an
  operation in progress (R30: `phase = IDLE` exactly when BUSY = 0). Safe (notes/assumptions/13.md). -/
  | noSuchPhase
  deriving DecidableEq, Repr

/-- Why an instruction has no meaning. -/
inductive Refusal where
  /-- Raised by `exec`'s arms for instructions not modelled yet: there is none. Safe. -/
  | notModelled (mnemonic : String)
  /-- Raised by `fetch`: the framer is presented a code, or an outgoing word, that is none of the catalog's. The
  framer transmits only the six codes of R83 (R84). Safe (notes/assumptions/14.md). -/
  | codeNotInCatalog
  deriving DecidableEq, Repr

/-- The state right after power-on reset (R36, R270). The buffers and the latch have no value (R37); the model's
own fields are empty (notes/assumptions/3.md, 5.md, 7.md, 9.md, DESIGN CHOICE). -/
def State.reset : State where
  mode := .uninit
  unusable := false
  busy := false
  crcAcc := 0xFF
  lastStatus := .ok
  lastErrWord := 0
  phase := .idle
  attempt := false
  txbuf := none
  rxbuf := none
  req := none
  tmo := none
  host := []
  draws := []
  drawIndex := 0
  bus := []
  responses := []
  command := none
  framerResult := none

end Sys2Proof.Machine
end

