-- ==== Sys2Proof/Machine/Flags.lean ====
section
/-!
DEFINITION. The codes of the block's status fields, and the two packed words that show them: the response record
(R77) and the READ_STATUS word (R171, R89).
-/

namespace Sys2Proof.Machine

/-- The code of a mode (R22). -/
def Mode.bits : Mode → BitVec 2
  | .uninit => 0
  | .ready => 1
  | .periodic => 2

/-- The code of a status (R78). -/
def Status.code : Status → BitVec 4
  | .ok => 0
  | .transportError => 1
  | .checksumMismatch => 2
  | .protocolViolation => 3
  | .stateError => 4
  | .illegalRequest => 5

/-- R77: the packed response, `[55:52]` status, `[51:50]` 0, `[49:48]` err_word, `[47:0]` data. -/
def Response.pack (r : Response) : Word56 := r.status.code ++ 0#2 ++ r.errWord ++ r.data

/-- R171: `[23:16]` CRC_ACC, `[9:8]` LAST_ERR_WORD, `[7:4]` LAST_STATUS, `[2]` UNUSABLE, `[1:0]` MODE, the rest 0. -/
def statusWord (s : State) : Word48 :=
  0#24 ++ s.crcAcc ++ 0#6 ++ s.lastErrWord ++ s.lastStatus.code ++ 0#1 ++ BitVec.ofBool s.unusable ++ s.mode.bits

/-- R27, R28: LAST_STATUS and LAST_ERR_WORD are written together. -/
def State.recordStatus (st : Status) (k : BitVec 2) (s : State) : State :=
  { s with lastStatus := st, lastErrWord := k }

end Sys2Proof.Machine
end

