-- ==== Sys2Proof/Machine/Ops.lean ====
section
/-!
DEFINITION. The operations every instruction shares: reading a transport outcome, completing an operation
(`respond`, R244), ending it with an error (`raise`, R243: the block's one exception mechanism), the prologue's
mode checks (R162), accepting a request (R161), reset (R270, R271), and what the next step fetches.
-/

namespace Sys2Proof.Machine

/-! ### Transport outcomes (R13, R56) -/

/-- The outcome at a transport call: the next one the environment has fixed, else a free draw. -/
def nextDraw (s : State) : Draw × State :=
  match s.draws with
  | d :: ds => (d, { s with draws := ds })
  | [] => (Config.freeDraw s.drawIndex, { s with drawIndex := s.drawIndex + 1 })

/-! ### Waits (R282) -/

/-- `wait(d)` changes no state. `CMD_EXEC_WAIT` is this and nothing else (R152; notes/assumptions/10.md). -/
def wait (_p : WaitParam) (s : State) : State := s

/-- `phase <- ph; wait(SETTLE_WAIT)`: the wait begins, and with it the step ends. The next step ends the wait, whatever
the transport's outcomes are: it is one step that always ends (R282; notes/assumptions/4.md). -/
def settle (ph : Phase) (s : State) : State :=
  wait .settleWait { s with phase := ph, bus := s.bus ++ [.wait .settleWait] }

/-! ### Completing an operation (R243, R244) -/

/-- What `respond` does for every operation: emit the response, then IDLE, ATTEMPT 0 and BUSY 0 (R244). -/
def finish (r : Response) (s : State) : State :=
  { s with responses := s.responses ++ [r], phase := .idle, attempt := false, busy := false }

/-- `respond(status, err_word, data)` of every operation but READ_STATUS (R244). -/
def respond (st : Status) (k : BitVec 2) (data : Word48) (s : State) : State :=
  finish ⟨st, k, data⟩ (s.recordStatus st k)

/-- `raise E(k)`: `respond(E, k, 0)`; nothing written earlier is undone (R243, R249, R251). -/
def raise (st : Status) (k : BitVec 2) (s : State) : State := respond st k 0 s

/-! ### The prologue's mode checks (R162) and the latch (R33) -/

/-- Run `body` with the latched timeout; reading the latch while it has no value faults (R37). -/
def withTmo (s : State) (body : Tmo → State → State) : Host.Outcome State Fault Refusal :=
  match s.tmo with
  | some tmo => .next (body tmo s)
  | none => .fault .latchUnwritten

/-- The prologue of an operation in BUS_OPS (R162, R163): STATE_ERROR in UNINIT, with no transport call. -/
def busOp (s : State) (body : Tmo → State → State) : Host.Outcome State Fault Refusal :=
  if s.mode = .uninit then .next (raise .stateError 0 s) else withTmo s body

/-! ### Acceptance (R161) and reset (R270, R271) -/

/-- On acceptance the block latches the request and its timeout and is BUSY in phase EXEC (R161, R33). -/
def accept (w : Word32) (tmo : Tmo) (s : State) : State :=
  { s with req := some w, tmo := some tmo, busy := true, phase := .exec }

/-- Reset of a running block: every piece of its state at R36's value, an operation in progress abandoned with
no response (R271). The environment's inputs and the record of what was emitted stay (notes/assumptions/11.md). -/
def doReset (s : State) : State :=
  { State.reset with
    host := s.host, draws := s.draws, drawIndex := s.drawIndex, bus := s.bus, responses := s.responses }

/-! ### What the next step does -/

/-- What a step finds to do. -/
inductive Fetched where
  /-- An instruction to run, in this state. -/
  | instr (i : Instr) (s : State)
  /-- An operation in progress goes on from its phase, in this state. -/
  | resume (s : State)
  /-- The step is over: reset, an idle step, or an illegal request's response. -/
  | done (s : State)
  | fault (f : Fault)
  | refused (r : Refusal)

/-- The start of `perform` (R162): the latched word is decoded; an illegal one completes with ILLEGAL_REQUEST,
before any check of MODE (R247, R248). -/
def fetchLatched (s : State) : Fetched :=
  match s.req with
  | none => .fault .latchUnwritten
  | some w =>
    match decodeRequest w with
    | .ok i => .instr i s
    | .error _ => .done (raise .illegalRequest 0 s)

/-- BUSY = 1: a catalog command presented to the framer, else the operation from its phase. Phase EXEC is its
start. -/
def fetchBusy (s : State) : Fetched :=
  match s.command with
  | some c =>
    match decodeCommand c.code c.out with
    | .ok i => .instr i { s with command := none }
    | .error _ => .refused .codeNotInCatalog
  | none => if s.phase = .exec then fetchLatched s else .resume s

/-- Reset takes effect at once. While BUSY = 1 a request is held (R161, R279); else it is accepted. -/
def fetch (s : State) : Fetched :=
  match s.host with
  | .reset :: rest => .done (doReset { s with host := rest })
  | .quiet :: rest => if s.busy then fetchBusy { s with host := rest } else .done { s with host := rest }
  | .request w tmo :: rest =>
    if s.busy then fetchBusy s else fetchLatched (accept w tmo { s with host := rest })
  | [] => if s.busy then fetchBusy s else .done s

/-! ### Placing an instruction where the next step fetches it -/

/-- The host request whose rule sends the command (R165 to R170), as a request word. -/
def callerWord (c : Command) (out : Word16) : Word32 :=
  match c with
  | .getSerial => 0x20000000
  | .startPeriodic => 0x40000000
  | .stopPeriodic => 0x50000000
  | .readMeasurement => 0x60000000
  | .setTempOffset => requestWord 0x7 (0#8 ++ out)
  | .getTempOffset => 0x80000000

/-- A request word is offered to an idle block; a command is presented to the framer inside the operation whose
rule sends it, just accepted (notes/assumptions/6.md, 7.md). -/
def placeEncoded (e : Encoded) (s : State) : State :=
  match e with
  | .request w =>
    { s with host := .request w .infinite :: s.host, busy := false, phase := .idle, attempt := false }
  | .command code out =>
    { s with
      host := .quiet :: s.host, command := some ⟨code, out⟩, framerResult := none, busy := true, phase := .exec
      attempt := false
      req := match commandOfCode code with | some c => some (callerWord c out) | none => s.req
      tmo := some (s.tmo.getD .infinite) }

end Sys2Proof.Machine
end

