-- ==== Sys2Proof/Machine/Checksum.lean ====
section
/-!
DEFINITION. The checksum validator (40_checksum.md): CRC-8 with polynomial 0x31, initial value 0xFF, no
reflection and no final XOR, and the operations CRC_INIT and CRC_FEED.
-/

namespace Sys2Proof.Machine

/-- The polynomial (R8). -/
def crcPoly : Byte := 0x31

/-- The initial value (R8). -/
def crcInitValue : Byte := 0xFF

/-- One of the 8 shift steps (R101): the bit the shift moves out is tested before the shift (C2). -/
def crcShift (c : Byte) : Byte := if c.msb then (c <<< 1) ^^^ crcPoly else c <<< 1

/-- R101: XOR the byte in, then 8 shift steps. -/
def crcStep (c b : Byte) : Byte :=
  crcShift (crcShift (crcShift (crcShift (crcShift (crcShift (crcShift (crcShift (c ^^^ b))))))))

/-- R100: bytes in wire order from the initial value. -/
def crc8 (s : List Byte) : Byte := s.foldl crcStep crcInitValue

/-- R106: all 8 bits of the checksum must agree. -/
def valid (hi lo ck : Byte) : Bool := crc8 [hi, lo] == ck

/-- CRC_INIT (R104). -/
def execCrcInit (s : State) : Host.Outcome State Fault Refusal :=
  .next (respond .ok 0 (crcInitValue.setWidth 48) { s with crcAcc := crcInitValue })

/-- CRC_FEED b8 (R105). -/
def execCrcFeed (b8 : Byte) (s : State) : Host.Outcome State Fault Refusal :=
  .next (respond .ok 0 ((crcStep s.crcAcc b8).setWidth 48) { s with crcAcc := crcStep s.crcAcc b8 })

end Sys2Proof.Machine
end

