-- ==== Sys2Proof/Machine/Operands.lean ====
section
/-!
DEFINITION. The operand and result forms: the bytes of a 16-bit value and of a DECODE_WORD chunk (R71, R126), the
byte order of the wire (R51), and the data layouts of OK responses (R89).
-/

namespace Sys2Proof.Machine

/-- `v[15:8]` (R126). -/
def hiByte (v : Word16) : Byte := v.extractLsb' 8 8

/-- `v[7:0]`, the bitwise low byte (R126). -/
def loByte (v : Word16) : Byte := v.extractLsb' 0 8

/-- `b0 ++ b1`, `b0` high (R51). -/
def joinBytes (b0 b1 : Byte) : Word16 := b0 ++ b1

/-- `hi = chunk[23:16]` (R71). -/
def chunkHi (c : Word24) : Byte := c.extractLsb' 16 8

/-- `lo = chunk[15:8]` (R71). -/
def chunkLo (c : Word24) : Byte := c.extractLsb' 8 8

/-- `ck = chunk[7:0]` (R71). -/
def chunkCk (c : Word24) : Byte := c.extractLsb' 0 8

/-- R125: the first word received is the most significant. -/
def assemble48 (w0 w1 w2 : Word16) : Word48 := w0 ++ w1 ++ w2

/-- The data field of an OK response to a read, from the words of the reply (R89): three words as they came
(R125, R175), one word zero-extended (R170). A reply has no other word count (R83); no word is data 0. -/
def dataOfWords : List Word16 → Word48
  | [w0, w1, w2] => assemble48 w0 w1 w2
  | [w0] => w0.setWidth 48
  | _ => 0

end Sys2Proof.Machine
end

