-- ==== Sys2Proof/Machine/WordCodec.lean ====
section
/-!
DEFINITION. The word marshaller (41_word_codec.md): `enc`, `dec`, `dec_words`, and the operations ENCODE_WORD and
DECODE_WORD.
-/

namespace Sys2Proof.Machine

/-- R120: the DataWord `[hi, lo, crc8([hi, lo])]`. -/
def enc (v : Word16) : List Byte := [hiByte v, loByte v, crc8 [hiByte v, loByte v]]

/-- R121: the value of a DataWord, `none` for MISMATCH. -/
def dec (b0 b1 b2 : Byte) : Option Word16 := if valid b0 b1 b2 then some (joinBytes b0 b1) else none

/-- R124 from word index `k` on, `acc` the words decoded so far: the first failing word ends the decode. The
frame is cut at every third byte (R55); the caller has checked its length (R147), so no byte is left over. -/
def decWordsFrom (k : BitVec 2) (acc : List Word16) : List Byte → FrameResult
  | b0 :: b1 :: b2 :: rest =>
    match dec b0 b1 b2 with
    | some v => decWordsFrom (k + 1) (acc ++ [v]) rest
    | none => .fail .checksumMismatch k
  | _ => .ok acc

/-- R124 with R148: `dec_words` of a received frame, its FAIL(k) as FAIL(CHECKSUM_MISMATCH, k). -/
def decWords (s : List Byte) : FrameResult := decWordsFrom 0 [] s

/-- ENCODE_WORD raw16 (R122): the DataWord in the low 24 bits of the data. -/
def execEncodeWord (raw16 : Word16) (s : State) : Host.Outcome State Fault Refusal :=
  .next (respond .ok 0 ((hiByte raw16 ++ loByte raw16 ++ crc8 [hiByte raw16, loByte raw16]).setWidth 48) s)

/-- DECODE_WORD chunk (R123): a failed check raises CHECKSUM_MISMATCH with err_word 0. -/
def execDecodeWord (chunk : Word24) (s : State) : Host.Outcome State Fault Refusal :=
  match dec (chunkHi chunk) (chunkLo chunk) (chunkCk chunk) with
  | some v => .next (respond .ok 0 (v.setWidth 48) s)
  | none => .next (raise .checksumMismatch 0 s)

end Sys2Proof.Machine
end

