-- ==== Sys2Proof/Machine/Framer.lean ====
section
/-!
DEFINITION. The command/response framer (42_framer.md): outgoing frames, the four transaction shapes, the reply
checks, and the six wire commands of the catalog. A transaction either ends with a result for its caller or is
left waiting on a transport call, in the phase that says which (R30); `awaitTx` and `awaitReply` go on from there.
-/

namespace Sys2Proof.Machine

/-- Where a framer function stands. -/
inductive Progress where
  /-- A transport call has not completed; the state is in phase TX, RX or TXRX. -/
  | waiting (s : State)
  /-- The function returned this value to its caller. -/
  | done (r : FrameResult) (s : State)

/-! ### Outgoing frames -/

/-- R140, R79: the code's two bytes, high byte first, no checksum. -/
def frameCmd (code : Word16) : List Byte := [hiByte code, loByte code]

/-- R141, R80: the code's bytes and one outgoing DataWord. -/
def frameSet (code : Word16) (v : Word16) : List Byte := frameCmd code ++ enc v

/-! ### The catalog's transaction shapes (R83, R142) -/

inductive Shape where
  | noReply                  -- `x_noreply`
  | set                      -- `x_set`
  | txRx (n : Nat)           -- `x_tx_rx`, n reply words
  | txrx (n : Nat)           -- `x_txrx`, n reply words
  deriving DecidableEq, Repr

/-- R142's table. -/
def commandShape : Command → Shape
  | .getSerial => .txRx 3
  | .startPeriodic => .noReply
  | .stopPeriodic => .noReply
  | .readMeasurement => .txRx 3
  | .setTempOffset => .set
  | .getTempOffset => .txrx 1

/-- The reply word count column of R83. -/
def replyWords (c : Command) : Nat :=
  match commandShape c with
  | .noReply => 0
  | .set => 0
  | .txRx n => n
  | .txrx n => n

/-! ### Reply checks -/

/-- R149: length before checksums, in phase DECODE (R147, R148). -/
def checkReply (bytes : List Byte) (n : Nat) (s : State) : Progress :=
  if bytes.length ≠ 3 * n then .done (.fail .protocolViolation 0) { s with phase := .decode }
  else .done (decWords bytes) { s with phase := .decode }

/-! ### Going on from a transport call -/

/-- A `BusTx` in progress (phase TX): ERR ends the function with TRANSPORT_ERROR, OK goes on with `k`. -/
def awaitTx (k : State → Progress) (s : State) : Progress :=
  match nextDraw s with
  | (.stall, s) => .waiting s
  | (.err, s) => .done (.fail .transportError 0) s
  | (.ok _, s) => k s

/-- A receive of `n` words in progress (phase RX or TXRX): the bytes of an OK go to RXBUF and are checked. -/
def awaitReply (n : Nat) (s : State) : Progress :=
  match nextDraw s with
  | (.stall, s) => .waiting s
  | (.err, s) => .done (.fail .transportError 0) s
  | (.ok bytes, s) => checkReply bytes n { s with rxbuf := some bytes }

/-- `phase <- RX`, and the call `BusRx(3n, TMO)` is issued. -/
def issueRx (n : Nat) (tmo : Tmo) (s : State) : State :=
  { s with phase := .rx, bus := s.bus ++ [.rx (3 * n) tmo] }

/-- The receive half of `x_tx_rx` (R144), after the pause CMD_EXEC_WAIT (R152). -/
def receive (n : Nat) (tmo : Tmo) (s : State) : Progress := awaitReply n (issueRx n tmo (wait .cmdExecWait s))

/-- `TXBUF <- frame; phase <- TX`, and the call `BusTx(TXBUF, TMO)` is issued. -/
def issueTx (frame : List Byte) (tmo : Tmo) (s : State) : State :=
  { s with txbuf := some frame, phase := .tx, bus := s.bus ++ [.tx frame tmo] }

/-- `TXBUF <- frame; phase <- TXRX`, and the call `BusTxRx(TXBUF, 3n, TMO)` is issued. -/
def issueTxRx (frame : List Byte) (n : Nat) (tmo : Tmo) (s : State) : State :=
  { s with txbuf := some frame, phase := .txrx, bus := s.bus ++ [.txRx frame (3 * n) tmo] }

/-! ### The transactions -/

/-- R143: `x_noreply(code)`. -/
def xNoReply (code : Word16) (tmo : Tmo) (s : State) : Progress :=
  awaitTx (.done (.ok [])) (issueTx (frameCmd code) tmo s)

/-- R146: `x_set(code, v)`. -/
def xSet (code v : Word16) (tmo : Tmo) (s : State) : Progress :=
  awaitTx (.done (.ok [])) (issueTx (frameSet code v) tmo s)

/-- R144: `x_tx_rx(code, n)`. -/
def xTxRx (code : Word16) (n : Nat) (tmo : Tmo) (s : State) : Progress :=
  awaitTx (receive n tmo) (issueTx (frameCmd code) tmo s)

/-- R145: `x_txrx(code, n)`. -/
def xTxrx (code : Word16) (n : Nat) (tmo : Tmo) (s : State) : Progress :=
  awaitReply n (issueTxRx (frameCmd code) n tmo s)

/-! ### A transaction left in progress -/

/-- The command in flight, read from TXBUF: its first two bytes are the code (R79, R80; notes/assumptions/18.md). -/
def inFlight (s : State) : Option Command :=
  match s.txbuf with
  | some (b0 :: b1 :: _) => commandOfCode (joinBytes b0 b1)
  | _ => none

/-- The rest of the transaction of command `c`, from the phase it was left in. In phase DECODE the reply stands
in RXBUF, which faults if it has no value (R37). -/
def finishTransaction (c : Command) (tmo : Tmo) (s : State) : Except Fault Progress :=
  match s.phase with
  | .tx =>
    match commandShape c with
    | .noReply => .ok (awaitTx (.done (.ok [])) s)
    | .set => .ok (awaitTx (.done (.ok [])) s)
    | .txRx n => .ok (awaitTx (receive n tmo) s)
    | .txrx _ => .error .noSuchPhase
  | .rx =>
    match commandShape c with
    | .txRx n => .ok (awaitReply n s)
    | _ => .error .noSuchPhase
  | .txrx =>
    match commandShape c with
    | .txrx n => .ok (awaitReply n s)
    | _ => .error .noSuchPhase
  | .decode =>
    match s.rxbuf with
    | some bytes => .ok (checkReply bytes (replyWords c) s)
    | none => .error .bufferUnwritten
  | _ => .error .noSuchPhase

/-! ### The wire commands

Each runs the command's transaction of R142 and leaves the value it returns in `framerResult`, for the operation
that sent the command (notes/assumptions/7.md). The framer makes no check of MODE (R162 makes it before). -/

/-- The framer's return value is handed over. -/
def handOver : Progress → State
  | .waiting s => s
  | .done r s => { s with framerResult := some r }

/-- CMD_GET_SERIAL: `x_tx_rx(0x3682, 3)` (R142, R144). -/
def execCmdGetSerial (s : State) : Host.Outcome State Fault Refusal :=
  withTmo s fun tmo s => handOver (xTxRx Command.getSerial.code 3 tmo s)

/-- CMD_START_PERIODIC: `x_noreply(0x21B1)` (R142, R143). -/
def execCmdStartPeriodic (s : State) : Host.Outcome State Fault Refusal :=
  withTmo s fun tmo s => handOver (xNoReply Command.startPeriodic.code tmo s)

/-- CMD_STOP_PERIODIC: `x_noreply(0x3F86)` (R142, R143). -/
def execCmdStopPeriodic (s : State) : Host.Outcome State Fault Refusal :=
  withTmo s fun tmo s => handOver (xNoReply Command.stopPeriodic.code tmo s)

/-- CMD_READ_MEASUREMENT: `x_tx_rx(0xEC05, 3)` (R142, R144). -/
def execCmdReadMeasurement (s : State) : Host.Outcome State Fault Refusal :=
  withTmo s fun tmo s => handOver (xTxRx Command.readMeasurement.code 3 tmo s)

/-- CMD_SET_TEMP_OFFSET: `x_set(0x241D, out)` (R142, R146). -/
def execCmdSetTempOffset (out : Word16) (s : State) : Host.Outcome State Fault Refusal :=
  withTmo s fun tmo s => handOver (xSet Command.setTempOffset.code out tmo s)

/-- CMD_GET_TEMP_OFFSET: `x_txrx(0x2318, 1)` (R142, R145). -/
def execCmdGetTempOffset (s : State) : Host.Outcome State Fault Refusal :=
  withTmo s fun tmo s => handOver (xTxrx Command.getTempOffset.code 1 tmo s)

end Sys2Proof.Machine
end

