-- ==== Sys2Proof/Machine/Sequencer.lean ====
section
/-!
DEFINITION. The measurement sequencer's operations (43_sequencer.md). `end…` is what an operation's rule does with
the value its transaction returns; a transaction left waiting leaves the operation in progress.
-/

namespace Sys2Proof.Machine

/-- ATTACH (R164): READY from UNINIT, else STATE_ERROR (R162). -/
def execAttach (s : State) : Host.Outcome State Fault Refusal :=
  if s.mode = .uninit then .next (respond .ok 0 0 { s with mode := .ready }) else .next (raise .stateError 0 s)

/-- What every operation with a reply does at its end: raise a failure unchanged, else respond with the words of
the reply as data (R165, R168, R170, R89). -/
def endRead : Progress → State
  | .waiting s => s
  | .done (.fail st k) s => raise st k s
  | .done (.ok ws) s => respond .ok 0 (dataOfWords ws) s

/-- What START, STOP and SET do at their end: raise a failure unchanged, else write MODE with `f` and respond
(R166, R167, R169). -/
def endSend (f : Mode → Mode) : Progress → State
  | .waiting s => s
  | .done (.fail st k) s => raise st k s
  | .done (.ok _) s => respond .ok 0 0 { s with mode := f s.mode }

/-- IDENTIFY's transaction (R165): Tx `36 82`, Rx 9. -/
def identifyBody (tmo : Tmo) (s : State) : Progress := xTxRx Command.getSerial.code 3 tmo s

/-- IDENTIFY (R165). -/
def execIdentify (s : State) : Host.Outcome State Fault Refusal :=
  busOp s fun tmo s => endRead (identifyBody tmo s)

/-- START_PERIODIC (R166): MODE becomes PERIODIC only on OK. -/
def execStartPeriodic (s : State) : Host.Outcome State Fault Refusal :=
  busOp s fun tmo s => endSend (fun _ => .periodic) (xNoReply Command.startPeriodic.code tmo s)

/-- STOP_PERIODIC (R167): MODE becomes READY only on OK. -/
def execStopPeriodic (s : State) : Host.Outcome State Fault Refusal :=
  busOp s fun tmo s => endSend (fun _ => .ready) (xNoReply Command.stopPeriodic.code tmo s)

/-- READ_SAMPLE (R168). -/
def execReadSample (s : State) : Host.Outcome State Fault Refusal :=
  busOp s fun tmo s => endRead (xTxRx Command.readMeasurement.code 3 tmo s)

/-- SET_TEMP_OFFSET raw16 (R169). -/
def execSetTempOffset (raw16 : Word16) (s : State) : Host.Outcome State Fault Refusal :=
  busOp s fun tmo s => endSend id (xSet Command.setTempOffset.code raw16 tmo s)

/-- GET_TEMP_OFFSET (R170). -/
def execGetTempOffset (s : State) : Host.Outcome State Fault Refusal :=
  busOp s fun tmo s => endRead (xTxrx Command.getTempOffset.code 1 tmo s)

/-- READ_STATUS (R171): its response writes neither LAST_STATUS nor LAST_ERR_WORD (R244). -/
def execReadStatus (s : State) : Host.Outcome State Fault Refusal :=
  .next (finish ⟨.ok, 0, statusWord s⟩ s)

end Sys2Proof.Machine
end

