-- ==== Sys2Proof/Machine/Recovery.lean ====
section
/-!
DEFINITION. The recovery sequence CHECK_IDENTITY (44_recovery.md R200), one definition per stretch of its
pseudocode between two points at which it waits, last stretch first.
-/

namespace Sys2Proof.Machine

/-- After the retry: its serial, or UNUSABLE and its failure (R203). -/
def afterRetry : Progress → State
  | .waiting s => s
  | .done (.ok ws) s => respond .ok 0 (dataOfWords ws) s
  | .done (.fail st k) s => raise st k { s with unusable := true }

/-- After the wait of phase SETTLE2: `phase <- RETRY; ATTEMPT <- 1`, and the second identify. -/
def retryIdentify (tmo : Tmo) (s : State) : State :=
  afterRetry (identifyBody tmo { s with phase := .retry, attempt := true })

/-- After the inner stop: MODE becomes READY if its transmit returned OK (R206), and the outcome is otherwise
ignored; then the wait of phase SETTLE2. -/
def afterStop : Progress → State
  | .waiting s => s
  | .done (.ok _) s => settle .settle2 { s with mode := .ready }
  | .done (.fail _ _) s => settle .settle2 s

/-- After the wait of phase SETTLE1: `phase <- STOP`, and the defensive stop. -/
def innerStop (tmo : Tmo) (s : State) : State :=
  afterStop (xNoReply Command.stopPeriodic.code tmo { s with phase := .stop })

/-- After the first identify: its serial, or the recovery steps, whatever the failure was (R201), from the wait of
phase SETTLE1. -/
def afterFirst : Progress → State
  | .waiting s => s
  | .done (.ok ws) s => respond .ok 0 (dataOfWords ws) s
  | .done (.fail _ _) s => settle .settle1 s

/-- CHECK_IDENTITY (R200). -/
def execCheckIdentity (s : State) : Host.Outcome State Fault Refusal :=
  busOp s fun tmo s => afterFirst (identifyBody tmo { s with attempt := false })

end Sys2Proof.Machine
end

