-- ==== Sys2Proof/Machine/Dispatch.lean ====
section
/-!
DEFINITION. One arm per instruction: each calls the instruction's meaning.
-/

namespace Sys2Proof.Machine

def exec (i : Instr) (s : State) : Host.Outcome State Fault Refusal :=
  match i with
  | .attach => Sys2Proof.Machine.execAttach s
  | .identify => Sys2Proof.Machine.execIdentify s
  | .checkIdentity => Sys2Proof.Machine.execCheckIdentity s
  | .startPeriodic => Sys2Proof.Machine.execStartPeriodic s
  | .stopPeriodic => Sys2Proof.Machine.execStopPeriodic s
  | .readSample => Sys2Proof.Machine.execReadSample s
  | .setTempOffset raw16 => Sys2Proof.Machine.execSetTempOffset raw16 s
  | .getTempOffset => Sys2Proof.Machine.execGetTempOffset s
  | .crcInit => Sys2Proof.Machine.execCrcInit s
  | .crcFeed b8 => Sys2Proof.Machine.execCrcFeed b8 s
  | .encodeWord raw16 => Sys2Proof.Machine.execEncodeWord raw16 s
  | .decodeWord chunk => Sys2Proof.Machine.execDecodeWord chunk s
  | .readStatus => Sys2Proof.Machine.execReadStatus s
  | .cmdGetSerial => Sys2Proof.Machine.execCmdGetSerial s
  | .cmdStartPeriodic => Sys2Proof.Machine.execCmdStartPeriodic s
  | .cmdStopPeriodic => Sys2Proof.Machine.execCmdStopPeriodic s
  | .cmdReadMeasurement => Sys2Proof.Machine.execCmdReadMeasurement s
  | .cmdSetTempOffset out => Sys2Proof.Machine.execCmdSetTempOffset out s
  | .cmdGetTempOffset => Sys2Proof.Machine.execCmdGetTempOffset s

end Sys2Proof.Machine
end

