-- ==== Sys2Proof/Machine/Resume.lean ====
section
/-!
DEFINITION. Going on with an operation that a step left in progress (R30, R61): the operation is the latched one
(R33), the point is the phase, and CHECK_IDENTITY's two identifies and its stop are told apart by ATTEMPT (R31)
and TXBUF (R32).
-/

namespace Sys2Proof.Machine

/-- What the operation `i` does with the progress of its command `c`; `attempt` is ATTEMPT while it ran. An
operation that makes no transport call has none in progress. -/
def continueOp (i : Instr) (c : Command) (attempt : Bool) (p : Progress) :
    Host.Outcome State Fault Refusal :=
  match i with
  | .identify | .readSample | .getTempOffset => .next (endRead p)
  | .startPeriodic => .next (endSend (fun _ => .periodic) p)
  | .stopPeriodic => .next (endSend (fun _ => .ready) p)
  | .setTempOffset _ => .next (endSend id p)
  | .checkIdentity =>
    .next (if c = .stopPeriodic then afterStop p else if attempt then afterRetry p else afterFirst p)
  | .attach | .crcInit | .crcFeed _ | .encodeWord _ | .decodeWord _ | .readStatus
  | .cmdGetSerial | .cmdStartPeriodic | .cmdStopPeriodic | .cmdReadMeasurement | .cmdSetTempOffset _
  | .cmdGetTempOffset => .fault .noSuchPhase

/-- The operation goes on with the transaction of the command in flight: with the value the framer has handed
over, or by finishing the transaction. -/
def resumeTransaction (i : Instr) (tmo : Tmo) (s : State) : Host.Outcome State Fault Refusal :=
  match inFlight s with
  | none => .fault .bufferUnwritten
  | some c =>
    match s.framerResult with
    | some r => continueOp i c s.attempt (.done r { s with framerResult := none })
    | none =>
      match finishTransaction c tmo s with
      | .ok p => continueOp i c s.attempt p
      | .error f => .fault f

/-- The latched operation goes on from its phase: a settle wait that the step before began is over. The recovery's
own phases belong to CHECK_IDENTITY alone. -/
def resume (s : State) : Host.Outcome State Fault Refusal :=
  match s.req, s.tmo with
  | some w, some tmo =>
    match decodeRequest w with
    | .error _ => .fault .noSuchPhase
    | .ok i =>
      match s.phase with
      | .tx | .rx | .txrx | .decode => resumeTransaction i tmo s
      | .settle1 | .stop => if i = .checkIdentity then .next (innerStop tmo s) else .fault .noSuchPhase
      | .settle2 | .retry => if i = .checkIdentity then .next (retryIdentify tmo s) else .fault .noSuchPhase
      | .idle | .exec => .fault .noSuchPhase
  | _, _ => .fault .latchUnwritten

end Sys2Proof.Machine
end

