-- ==== Sys2Proof/Machine/Step.lean ====
section
/-!
DEFINITION. One step of the block: what `fetch` finds, done up to the next point at which the block waits.
-/

namespace Sys2Proof.Machine

def step (s : State) : Host.Outcome State Fault Refusal :=
  match fetch s with
  | .instr i s => exec i s
  | .resume s => resume s
  | .done s => .next s
  | .fault f => .fault f
  | .refused r => .refused r

/-- The state whose next step fetches the instruction with these bits (notes/assumptions/6.md, 7.md). -/
def State.withFetchWord (s : State) (nbits w : Nat) : State := placeEncoded (tableWord nbits w) s

end Sys2Proof.Machine
end

