-- ==== Sys2Proof/Machine/Conversion.lean ====
section
/-!
DEFINITION. The host-side conversions (45_conversion.md R220 to R229), pure functions over IEEE 754 binary64
(R15, K1), computed exactly in integers and rounded once per operation. No instruction uses them (R220).
-/

namespace Sys2Proof.Machine

/-- A binary64 bit pattern: sign, 11 exponent bits, 52 fraction bits (PRESUMED, IEEE 754; notes/assumptions/16.md). -/
abbrev F64 := BitVec 64

/-- What a bit pattern stands for: NaN, an infinity, or the number `± m * 2^e`. -/
inductive FVal where
  | nan
  | inf (neg : Bool)
  | fin (neg : Bool) (m : Nat) (e : Int)
  deriving DecidableEq, Repr

/-- The value of a bit pattern. -/
def F64.val (x : F64) : FVal :=
  let neg := x.msb
  let ex := (x.extractLsb' 52 11).toNat
  let fr := (x.extractLsb' 0 52).toNat
  if ex = 2047 then (if fr = 0 then .inf neg else .nan)
  else if ex = 0 then .fin neg fr (-1074)
  else .fin neg (2 ^ 52 + fr) ((ex : Int) - 1075)

/-- The bit pattern of a rounded value (`m < 2^53`, and `m < 2^52` only for `e = -1074`). -/
def FVal.bits : FVal → F64
  | .nan => 0x7FF8000000000000
  | .inf neg => BitVec.ofBool neg ++ 0x7FF#11 ++ 0#52
  | .fin neg m e =>
    if m < 2 ^ 52 then BitVec.ofBool neg ++ 0#11 ++ BitVec.ofNat 52 m
    else BitVec.ofBool neg ++ BitVec.ofNat 11 (e + 1075).toNat ++ BitVec.ofNat 52 (m - 2 ^ 52)

/-- `n / d` to the nearest integer, ties to even. -/
def divNearestEven (n d : Nat) : Nat :=
  let q := n / d
  if 2 * (n % d) > d ∨ (2 * (n % d) = d ∧ q % 2 = 1) then q + 1 else q

/-- The power of two at or below `n / d` (n, d > 0). -/
def ratLog2 (n d : Nat) : Int :=
  let k : Int := (Nat.log2 n : Int) - (Nat.log2 d : Int)
  if d * 2 ^ k.toNat ≤ n * 2 ^ (-k).toNat then k else k - 1

/-- `f64` (R15) of the exact number `± n / d`, d > 0: to nearest, ties to even; beyond the largest finite value
an infinity. -/
def roundRat (neg : Bool) (n d : Nat) : FVal :=
  if n = 0 then .fin neg 0 (-1074)
  else
    let e := max (ratLog2 n d - 52) (-1074)
    let m := divNearestEven (n * 2 ^ (-e).toNat) (d * 2 ^ e.toNat)
    let m' := if m = 2 ^ 53 then 2 ^ 52 else m
    let e' := if m = 2 ^ 53 then e + 1 else e
    if e' > 971 then .inf neg else .fin neg m' e'

/-- The numerator and denominator of `m * 2^e`. -/
def scale (m : Nat) (e : Int) : Nat × Nat := (m * 2 ^ e.toNat, 2 ^ (-e).toNat)

/-- A product in binary64 (R15). -/
def fmul (a b : FVal) : FVal :=
  match a, b with
  | .nan, _ => .nan
  | _, .nan => .nan
  | .inf s, .inf t => .inf (s != t)
  | .inf s, .fin t m _ => if m = 0 then .nan else .inf (s != t)
  | .fin s m _, .inf t => if m = 0 then .nan else .inf (s != t)
  | .fin s m e, .fin t n f => roundRat (s != t) (scale (m * n) (e + f)).1 (scale (m * n) (e + f)).2

/-- A quotient in binary64 (R15). -/
def fdiv (a b : FVal) : FVal :=
  match a, b with
  | .nan, _ => .nan
  | _, .nan => .nan
  | .inf _, .inf _ => .nan
  | .inf s, .fin t _ _ => .inf (s != t)
  | .fin s _ _, .inf t => .fin (s != t) 0 (-1074)
  | .fin s m e, .fin t n f =>
    if n = 0 then (if m = 0 then .nan else .inf (s != t))
    else roundRat (s != t) ((scale m e).1 * (scale n f).2) ((scale m e).2 * (scale n f).1)

/-- The signed integer `± m * 2^e * 2^k`, for `k` large enough to make it whole. -/
def signedAt (k : Nat) (neg : Bool) (m : Nat) (e : Int) : Int :=
  let v : Int := (m * 2 ^ (e + k).toNat : Nat)
  if neg then -v else v

/-- A difference in binary64 (R15); a zero difference is `+0`, but for `-0 - (+0)`. -/
def fsub (a b : FVal) : FVal :=
  match a, b with
  | .nan, _ => .nan
  | _, .nan => .nan
  | .inf s, .inf t => if s = t then .nan else .inf s
  | .inf s, .fin _ _ _ => .inf s
  | .fin _ _ _, .inf t => .inf (!t)
  | .fin s m e, .fin t n f =>
    let k := (max (-e) (-f)).toNat
    let d := signedAt k s m e - signedAt k t n f
    if d = 0 then .fin (s && !t && m == 0) 0 (-1074) else roundRat (decide (d < 0)) d.natAbs (2 ^ k)

/-- `round` (R15, R226): to the nearest integer, halves away from zero; none for NaN and the infinities. -/
def roundInt : FVal → Option Int
  | .fin neg m e =>
    let v : Int := ((2 * (scale m e).1 + (scale m e).2) / (2 * (scale m e).2) : Nat)
    some (if neg then -v else v)
  | _ => none

/-- An integer as a binary64 value. -/
def fInt (n : Int) : FVal := roundRat (decide (n < 0)) n.natAbs 1

/-- A raw word as a binary64 value (exact). -/
def fWord (w : Word16) : FVal := fInt w.toNat

/-- `co2_ppm` (R221): the word as an unsigned integer. -/
def co2Ppm (w0 : Word16) : Nat := w0.toNat

/-- `temperature_c` (R222): `f64(f64(175 * f64(w1 / 65535)) - 45)`. -/
def temperatureC (w1 : Word16) : F64 := (fsub (fmul (fInt 175) (fdiv (fWord w1) (fInt 65535))) (fInt 45)).bits

/-- `humidity_pct` (R223): `f64(100 * f64(w2 / 65535))`. -/
def humidityPct (w2 : Word16) : F64 := (fmul (fInt 100) (fdiv (fWord w2) (fInt 65535))).bits

/-- The quotient `q` of R224: `f64(f64(o * 65536) / 175)`. -/
def offsetQuotient (o : F64) : FVal := fdiv (fmul o.val (fInt 65536)) (fInt 175)

/-- `offset_to_raw` (R224); `none` is REFUSED (R228, U8). -/
def offsetToRaw (o : F64) : Option Word16 :=
  match roundInt (offsetQuotient o) with
  | some r => if 0 ≤ r ∧ r ≤ 65535 then some (BitVec.ofNat 16 r.toNat) else none
  | none => none

/-- The value `c` of R225: `f64(f64(175 * f64(r / 65536)) * 10)`. -/
def offsetTenths (r : Word16) : FVal := fmul (fmul (fInt 175) (fdiv (fWord r) (fInt 65536))) (fInt 10)

/-- `raw_to_offset` (R225): `c` rounded to an integer, divided by 10. -/
def rawToOffset (r : Word16) : F64 :=
  match roundInt (offsetTenths r) with
  | some n => (fdiv (fInt n) (fInt 10)).bits
  | none => FVal.nan.bits

/-- A MeasurementSample (R16) as the host reads it from the data field of READ_SAMPLE's response (R89, R175). -/
structure Sample where
  co2 : Nat
  temperature : F64
  humidity : F64
  deriving DecidableEq, Repr

/-- The host's conversion of a READ_SAMPLE data field (R175, R221 to R223). -/
def sampleOfData (d : Word48) : Sample where
  co2 := co2Ppm (d.extractLsb' 32 16)
  temperature := temperatureC (d.extractLsb' 16 16)
  humidity := humidityPct (d.extractLsb' 0 16)

end Sys2Proof.Machine
end

