-- ==== Sys2Proof/Safety.lean ====
section
/-!
DEFINITION. The words the statements are written in: frames, the transport's outcomes as the rules of 42_framer.md
name them, the invariant of the block's state, and what a run is.
-/

namespace Sys2Proof.Safety

open Sys2Proof.Machine

/-! ### Runs -/

/-- The instructions in order, each from the state the one before it leaves. -/
def execAll : List Instr → State → Host.Outcome State Fault Refusal
  | [], s => .next s
  | i :: is, s =>
    match exec i s with
    | .next t => execAll is t
    | .fault f => .fault f
    | .refused r => .refused r

/-- `n` steps of the machine. -/
def runSteps : Nat → State → Host.Outcome State Fault Refusal
  | 0, s => .next s
  | n + 1, s =>
    match step s with
    | .next t => runSteps n t
    | .fault f => .fault f
    | .refused r => .refused r

/-- BUS_OPS (R163). -/
def busOps : Instr → Bool
  | .identify | .checkIdentity | .startPeriodic | .stopPeriodic | .readSample | .setTempOffset _
  | .getTempOffset => true
  | .attach | .crcInit | .crcFeed _ | .encodeWord _ | .decodeWord _ | .readStatus | .cmdGetSerial
  | .cmdStartPeriodic | .cmdStopPeriodic | .cmdReadMeasurement | .cmdSetTempOffset _ | .cmdGetTempOffset => false

/-- The step begins with a reset (R270). -/
def ResetNext (s : State) : Prop := ∃ rest, s.host = .reset :: rest

/-- The host neither resets nor passes a quiet boundary: it offers nothing, or it holds a request. -/
def Undisturbed (s : State) : Prop := s.host = [] ∨ ∃ w tmo rest, s.host = .request w tmo :: rest

/-- The block is idle and this request is the next it accepts; `rest` is what the host does after it. -/
def Offers (s : State) (w : Word32) (tmo : Tmo) (rest : List HostEvent) : Prop :=
  s.busy = false ∧ s.host = .request w tmo :: rest

/-! ### The parts of a next state -/

/-- The state after a response (R244): the record, LAST_STATUS and LAST_ERR_WORD, IDLE, ATTEMPT 0, BUSY 0. -/
def completed (st : Status) (k : BitVec 2) (data : Word48) (s : State) : State :=
  { s with
    lastStatus := st, lastErrWord := k, responses := s.responses ++ [⟨st, k, data⟩]
    phase := .idle, attempt := false, busy := false }

/-- The state after the calls `acts` with the frame `frame`: `rx` are the bytes of the last OK receive, if there
was one, and `rest` the outcomes still to come. -/
def transacted (frame : List Byte) (rx : Option (List Byte)) (acts : List Action) (rest : List Draw) (s : State) :
    State :=
  { s with txbuf := some frame, rxbuf := rx.or s.rxbuf, bus := s.bus ++ acts, draws := rest }

/-- Nothing changes but the phase, the frame buffers, the calls made and the outcomes read: what a transaction of
the framer may do to the state of its caller (R108, 42_framer.md). -/
structure FramerFrame (s t : State) : Prop where
  mode : t.mode = s.mode
  unusable : t.unusable = s.unusable
  busy : t.busy = s.busy
  crcAcc : t.crcAcc = s.crcAcc
  lastStatus : t.lastStatus = s.lastStatus
  lastErrWord : t.lastErrWord = s.lastErrWord
  attempt : t.attempt = s.attempt
  req : t.req = s.req
  tmo : t.tmo = s.tmo
  host : t.host = s.host
  responses : t.responses = s.responses
  command : t.command = s.command

/-- Nothing changes but what an operation of BUS_OPS may write (R165 to R170, R200): MODE and UNUSABLE are kept
apart, since only some of them write those. -/
structure BusOpFrame (s t : State) : Prop where
  crcAcc : t.crcAcc = s.crcAcc
  req : t.req = s.req
  tmo : t.tmo = s.tmo
  host : t.host = s.host
  command : t.command = s.command
  framerResult : t.framerResult = s.framerResult

/-! ### A transmit and a nine-byte receive (R144, R147 to R149, R248) -/

/-- The transport lets `x_tx_rx` with this frame succeed with the words `w0 w1 w2`: both calls return OK, and the
reply is the three DataWords (R120, R127). The indices are the outcomes, the calls made, the bytes received. -/
inductive ReadGives (frame : List Byte) (tmo : Tmo) :
    List Draw → List Action → List Byte → Word16 → Word16 → Word16 → Prop where
  | reply (a : List Byte) (w0 w1 w2 : Word16) :
    ReadGives frame tmo [.ok a, .ok (enc w0 ++ enc w1 ++ enc w2)] [.tx frame tmo, .rx 9 tmo]
      (enc w0 ++ enc w1 ++ enc w2) w0 w1 w2

/-- The transport makes `x_tx_rx` with this frame fail. The indices are the outcomes, the calls made, the bytes of
an OK receive, the phase reached, and the status and word index of the failure (R248's order). -/
inductive ReadFails (frame : List Byte) (tmo : Tmo) :
    List Draw → List Action → Option (List Byte) → Phase → Status → BitVec 2 → Prop where
  | transmit :
    ReadFails frame tmo [.err] [.tx frame tmo] none .tx .transportError 0
  | receive (a : List Byte) :
    ReadFails frame tmo [.ok a, .err] [.tx frame tmo, .rx 9 tmo] none .rx .transportError 0
  | length (a bytes : List Byte) (h : bytes.length ≠ 9) :
    ReadFails frame tmo [.ok a, .ok bytes] [.tx frame tmo, .rx 9 tmo] (some bytes) .decode .protocolViolation 0
  | word0 (a : List Byte) (a0 a1 a2 b0 b1 b2 c0 c1 c2 : Byte) (h : crc8 [a0, a1] ≠ a2) :
    ReadFails frame tmo [.ok a, .ok [a0, a1, a2, b0, b1, b2, c0, c1, c2]] [.tx frame tmo, .rx 9 tmo]
      (some [a0, a1, a2, b0, b1, b2, c0, c1, c2]) .decode .checksumMismatch 0
  | word1 (a : List Byte) (a0 a1 a2 b0 b1 b2 c0 c1 c2 : Byte) (ha : crc8 [a0, a1] = a2) (h : crc8 [b0, b1] ≠ b2) :
    ReadFails frame tmo [.ok a, .ok [a0, a1, a2, b0, b1, b2, c0, c1, c2]] [.tx frame tmo, .rx 9 tmo]
      (some [a0, a1, a2, b0, b1, b2, c0, c1, c2]) .decode .checksumMismatch 1
  | word2 (a : List Byte) (a0 a1 a2 b0 b1 b2 c0 c1 c2 : Byte) (ha : crc8 [a0, a1] = a2) (hb : crc8 [b0, b1] = b2)
    (h : crc8 [c0, c1] ≠ c2) :
    ReadFails frame tmo [.ok a, .ok [a0, a1, a2, b0, b1, b2, c0, c1, c2]] [.tx frame tmo, .rx 9 tmo]
      (some [a0, a1, a2, b0, b1, b2, c0, c1, c2]) .decode .checksumMismatch 2

/-! ### External actions -/

/-- A transport call, not a wait (R13). -/
def isCall : Action → Bool
  | .wait _ => false
  | _ => true

/-- The frame an action transmits, if it transmits one. -/
def sentFrame : Action → Option (List Byte)
  | .tx f _ => some f
  | .txRx f _ _ => some f
  | _ => none

/-- The timeout an action carries, if it is a transport call. -/
def timeoutOf : Action → Option Tmo
  | .tx _ tmo => some tmo
  | .rx _ tmo => some tmo
  | .txRx _ _ tmo => some tmo
  | .wait _ => none

/-- The frames of the catalog (R79, R80, R83): a command frame of a code without outgoing word, or the set frame. -/
def CatalogFrame (f : List Byte) : Prop :=
  f ∈ [[0x36, 0x82], [0x21, 0xB1], [0x3F, 0x86], [0xEC, 0x05], [0x23, 0x18]] ∨
    ∃ v : Word16, f = [0x24, 0x1D, hiByte v, loByte v, crc8 [hiByte v, loByte v]]

/-! ### The invariant of the block's state -/

/-- The operation the latch holds (R33). -/
def Latched (s : State) (i : Instr) : Prop := ∃ w, s.req = some w ∧ decodeRequest w = .ok i

/-- The commands an operation sends (R165 to R170, R200). -/
def sends : Instr → List Command
  | .identify => [.getSerial]
  | .checkIdentity => [.getSerial, .stopPeriodic]
  | .startPeriodic => [.startPeriodic]
  | .stopPeriodic => [.stopPeriodic]
  | .readSample => [.readMeasurement]
  | .setTempOffset _ => [.setTempOffset]
  | .getTempOffset => [.getTempOffset]
  | .attach | .crcInit | .crcFeed _ | .encodeWord _ | .decodeWord _ | .readStatus | .cmdGetSerial
  | .cmdStartPeriodic | .cmdStopPeriodic | .cmdReadMeasurement | .cmdSetTempOffset _ | .cmdGetTempOffset => []

/-- A call of command `c` is in flight for the latched operation `i`. ATTEMPT is 1 only in an identify of
CHECK_IDENTITY (R31). -/
def CallInFlight (s : State) (i : Instr) (c : Command) : Prop :=
  Latched s i ∧ inFlight s = some c ∧ c ∈ sends i ∧ (s.attempt = true → i = .checkIdentity ∧ c = .getSerial)

/-- What is in progress in each phase at the end of a step (R30): a transport call of the latched operation's
command, or a settle wait of CHECK_IDENTITY, with ATTEMPT still 0 (R31, R200). -/
def PhaseMeans (s : State) : Prop :=
  match s.phase with
  | .idle => s.busy = false ∧ s.attempt = false
  | .exec => s.busy = true ∧ s.attempt = false
  | .tx => s.busy = true ∧ s.mode ≠ .uninit ∧ ∃ i c, CallInFlight s i c ∧ c ≠ .getTempOffset
  | .rx => s.busy = true ∧ s.mode ≠ .uninit ∧ ∃ i c, CallInFlight s i c ∧ commandShape c = .txRx 3
  | .txrx => s.busy = true ∧ s.mode ≠ .uninit ∧ ∃ i, CallInFlight s i .getTempOffset
  | .settle1 => s.busy = true ∧ s.mode ≠ .uninit ∧ Latched s .checkIdentity ∧ s.attempt = false
  | .settle2 => s.busy = true ∧ s.mode ≠ .uninit ∧ Latched s .checkIdentity ∧ s.attempt = false
  | .decode => False
  | .stop => False
  | .retry => False

/-- What holds of the block between two steps, in every state that a run from reset reaches. -/
structure Inv (s : State) : Prop where
  /-- R30, R31, R162, R200: what each phase means. -/
  phase : PhaseMeans s
  /-- R33: an accepted request is latched. -/
  latched : s.busy = true → s.req.isSome = true ∧ s.tmo.isSome = true
  /-- R28: LAST_ERR_WORD never holds 3. -/
  errWord : s.lastErrWord ≠ 3
  /-- R28: LAST_ERR_WORD is 0 unless LAST_STATUS = CHECKSUM_MISMATCH. -/
  errWordZero : s.lastStatus ≠ .checksumMismatch → s.lastErrWord = 0
  /-- R32: TXBUF holds up to 5 bytes. -/
  txbuf : ∀ f, s.txbuf = some f → f.length ≤ 5
  /-- The framer's interface is empty between steps (the model's own, notes/assumptions/7.md). -/
  framer : s.command = none ∧ s.framerResult = none

/-! ### What an operation has still to do -/

/-- All the actions an operation can make, in the order of its rule (R165 to R170, R200). A failure or a success
leaves some of the later ones out. -/
def plan (tmo : Tmo) : Instr → List Action
  | .identify => [.tx [0x36, 0x82] tmo, .rx 9 tmo]
  | .checkIdentity =>
    [.tx [0x36, 0x82] tmo, .rx 9 tmo, .wait .settleWait, .tx [0x3F, 0x86] tmo, .wait .settleWait,
      .tx [0x36, 0x82] tmo, .rx 9 tmo]
  | .startPeriodic => [.tx [0x21, 0xB1] tmo]
  | .stopPeriodic => [.tx [0x3F, 0x86] tmo]
  | .readSample => [.tx [0xEC, 0x05] tmo, .rx 9 tmo]
  | .setTempOffset v => [.tx [0x24, 0x1D, hiByte v, loByte v, crc8 [hiByte v, loByte v]] tmo]
  | .getTempOffset => [.txRx [0x23, 0x18] 3 tmo]
  | .attach | .crcInit | .crcFeed _ | .encodeWord _ | .decodeWord _ | .readStatus | .cmdGetSerial
  | .cmdStartPeriodic | .cmdStopPeriodic | .cmdReadMeasurement | .cmdSetTempOffset _ | .cmdGetTempOffset => []

/-- How many actions of its plan the operation `i` is past, from the phase, ATTEMPT and TXBUF. -/
def begun (i : Instr) (s : State) : Nat :=
  match s.phase with
  | .exec => 0
  | .tx => if i = .checkIdentity ∧ inFlight s = some .stopPeriodic then 4 else if s.attempt then 6 else 1
  | .rx => if s.attempt then 7 else 2
  | .txrx => 1
  | .settle1 => 3
  | .settle2 => 5
  | .idle | .decode | .stop | .retry => 7

/-- What is left of the plan of the latched operation. -/
def ahead (tmo : Tmo) (i : Instr) (s : State) : List Action := (plan tmo i).drop (begun i s)

/-- The step from `s` to `t` makes actions that, with those that operation `i` has still ahead in `t`, are among
`acts`, in their order. An operation that has completed has none ahead. -/
def Pays (tmo : Tmo) (i : Instr) (acts : List Action) (s t : State) : Prop :=
  ∃ new : List Action, t.bus = s.bus ++ new ∧
    List.Sublist (new ++ if t.busy = true then ahead tmo i t else []) acts

/-- MODE after a step of operation `i` from `s` to `t` (R172). An operation has completed when BUSY is 0. The inner
stop of CHECK_IDENTITY writes MODE as the wait after it begins (R206). -/
def ModeRow (i : Instr) (s t : State) : Prop :=
  match i with
  | .attach => t.mode = if s.mode = .uninit then .ready else s.mode
  | .startPeriodic => t.mode = if s.mode ≠ .uninit ∧ t.busy = false ∧ t.lastStatus = .ok then .periodic else s.mode
  | .stopPeriodic => t.mode = if s.mode ≠ .uninit ∧ t.busy = false ∧ t.lastStatus = .ok then .ready else s.mode
  | .checkIdentity =>
    t.mode = s.mode ∨
      (s.mode ≠ .uninit ∧ t.mode = .ready ∧ t.phase = .settle2 ∧ inFlight t = some .stopPeriodic)
  | _ => t.mode = s.mode

/-- A response as R77 lays it out: data and err_word are 0 unless the status says otherwise (R249). -/
def GoodResponse (r : Response) : Prop :=
  (r.status ≠ .ok → r.data = 0) ∧ (r.status ≠ .checksumMismatch → r.errWord = 0) ∧ r.errWord ≠ 3

/-- The state without the data of its responses, the received bytes and the outcomes still to come: what is left
for the block to branch on (R176). -/
def withoutData (s : State) : State :=
  { s with rxbuf := none, draws := [], responses := s.responses.map fun r => (⟨r.status, r.errWord, 0⟩ : Response) }

/-! ### Numbers of binary64 -/

/-- The number a finite binary64 value stands for (R15). -/
def ratOf (neg : Bool) (m : Nat) (e : Int) : ℚ := (if neg then -1 else 1) * (m : ℚ) * (2 : ℚ) ^ e

/-- `m * 2^e` is a finite binary64 magnitude: at most 53 bits, and an exponent of the format. -/
def Binary64 (m : Nat) (e : Int) : Prop := m < 2 ^ 53 ∧ -1074 ≤ e ∧ e ≤ 971

/-- `± m * 2^e` is `f64` of `x` (R15): a binary64 number in its own form (53 bits, or the least exponent), as near to
`x` as every binary64 number, and with an even `m` where another is as near. -/
def RoundsTo (x : ℚ) (neg : Bool) (m : Nat) (e : Int) : Prop :=
  Binary64 m e ∧ (2 ^ 52 ≤ m ∨ e = -1074) ∧
  ∀ (neg' : Bool) (m' : Nat) (e' : Int), Binary64 m' e' →
    |x - ratOf neg m e| ≤ |x - ratOf neg' m' e'| ∧
    (|x - ratOf neg m e| = |x - ratOf neg' m' e'| → ratOf neg' m' e' ≠ ratOf neg m e → m % 2 = 0)

end Sys2Proof.Safety
end

