-- ==== Sys2Proof/Certificates/Slice0/Obligations.lean ====
section
/-!
DEFINITION. The statements for the provers, each from a numbered rule of spec/ or derived from rules.
-/

open Sys2Proof Sys2Proof.Machine Sys2Proof.Safety

/-! ### Encoding (30_encoding.md) -/

/-- R73, R83: words written out from the tables of the spec decode to their instructions, and reserved ones do not. -/
def Obligations.TableWordsDecode : Prop :=
  decodeTableWord 32 0x10000000 = some .attach ∧
  decodeTableWord 32 0x30000000 = some .checkIdentity ∧
  decodeTableWord 32 0x700005DA = some (.setTempOffset 0x05DA) ∧
  decodeTableWord 32 0xA00000BE = some (.crcFeed 0xBE) ∧
  decodeTableWord 32 0xB000BEEF = some (.encodeWord 0xBEEF) ∧
  decodeTableWord 32 0xC0BEEF92 = some (.decodeWord 0xBEEF92) ∧
  decodeTableWord 16 0x3682 = some .cmdGetSerial ∧
  decodeTableWord 16 0x241D = some (.cmdSetTempOffset 0) ∧
  decodeTableWord 16 0x2318 = some .cmdGetTempOffset ∧
  decodeTableWord 32 0xE0000000 = none ∧
  decodeTableWord 32 0x11000000 = none ∧
  decodeTableWord 32 0xA0000100 = none

/-- R70, R73, R83: decoding an encoded instruction gives it back, whatever its operands. -/
def Obligations.DecodeInvertsEncode : Prop := ∀ i : Instr, decode (encode i) = .ok i

/-- R70, R73, R83: each word that decodes is the encoding of what it decodes to, so no two words share a meaning. -/
def Obligations.EncodeInvertsDecode : Prop :=
  ∀ (e : Encoded) (i : Instr), decode e = .ok i → encode i = e

/-- R74: a word is the operation of the row of R73 whose match it meets under the row's mask, and illegal if it
meets none. -/
def Obligations.DecodingFollowsTheTable : Prop :=
  (∀ w : Word32, ∀ r ∈ requestTable, w &&& r.mask = r.pattern →
    ∃ i, decodeRequest w = .ok i ∧ i.mnemonic = some r.mnemonic) ∧
  (∀ w : Word32, (∀ r ∈ requestTable, w &&& r.mask ≠ r.pattern) → ∃ e, decodeRequest w = .error e)

/-- R71: the fields op, rsv and opd; operands are the low bits of the word, unsigned and unscaled, and a chunk is
split in wire order. -/
def Obligations.OperandsAreUnsignedFields : Prop :=
  (∀ w : Word32, (opField w).toNat = w.toNat / 2 ^ 28 ∧ (rsvField w).toNat = w.toNat / 2 ^ 24 % 2 ^ 4 ∧
    (opdField w).toNat = w.toNat % 2 ^ 24) ∧
  (∀ (w : Word32) (v : Word16), decodeRequest w = .ok (.setTempOffset v) → v.toNat = w.toNat % 2 ^ 16) ∧
  (∀ (w : Word32) (v : Word16), decodeRequest w = .ok (.encodeWord v) → v.toNat = w.toNat % 2 ^ 16) ∧
  (∀ (w : Word32) (b : Byte), decodeRequest w = .ok (.crcFeed b) → b.toNat = w.toNat % 2 ^ 8) ∧
  (∀ (w : Word32) (c : Word24), decodeRequest w = .ok (.decodeWord c) →
    c.toNat = w.toNat % 2 ^ 24 ∧ (chunkHi c).toNat = w.toNat / 2 ^ 16 % 2 ^ 8 ∧
    (chunkLo c).toNat = w.toNat / 2 ^ 8 % 2 ^ 8 ∧ (chunkCk c).toNat = w.toNat % 2 ^ 8)

/-- R86: a line whose operand fits its width assembles to a word that decodes to the instruction of its mnemonic, with
that operand; any other line is an error. -/
def Obligations.LinesAssembleIffWellFormed : Prop :=
  (∀ l : AsmLine, l.wf = true → ∃ w i, assemble l = some (.request w, l.tmo) ∧
    decodeRequest w = .ok i ∧ i = l.mnemonic.instr (l.imm.getD 0) ∧ i.mnemonic = some l.mnemonic ∧
    w.toNat % 2 ^ l.mnemonic.width = l.imm.getD 0) ∧
  (∀ l : AsmLine, l.wf = false → assemble l = none)

/-- R77, R78: the packed response holds the status code, 0, the word index and the data in their fields, and the codes
of the six statuses. -/
def Obligations.ResponsePacking : Prop :=
  (∀ r : Response, r.pack.extractLsb' 52 4 = r.status.code ∧ r.pack.extractLsb' 50 2 = 0 ∧
    r.pack.extractLsb' 48 2 = r.errWord ∧ r.pack.extractLsb' 0 48 = r.data) ∧
  Status.ok.code = 0 ∧ Status.transportError.code = 1 ∧ Status.checksumMismatch.code = 2 ∧
  Status.protocolViolation.code = 3 ∧ Status.stateError.code = 4 ∧ Status.illegalRequest.code = 5

/-- R75: an illegal request word is accepted, makes no transport call, writes only LAST_STATUS and LAST_ERR_WORD
(and the latch, by its acceptance), and completes with ILLEGAL_REQUEST. -/
def Obligations.IllegalWordCompletes : Prop :=
  ∀ (s : State) (w : Word32) (tmo : Tmo) (rest : List HostEvent) (e : DecodeError),
    Offers s w tmo rest → decodeRequest w = .error e →
    step s = .next (completed .illegalRequest 0 0 { s with host := rest, req := some w, tmo := some tmo })

/-! ### Checksum validator (40_checksum.md) -/

/-- R102: the empty sequence gives the initial value, and the reference vector holds. -/
def Obligations.ChecksumReferenceVectors : Prop :=
  crc8 [] = 0xFF ∧ crc8 [0xBE, 0xEF] = 0x92

/-- R103: feeding the checksum byte cancels the register, so a valid DataWord has residue 0. -/
def Obligations.ChecksumResidueIsZero : Prop :=
  (∀ s : List Byte, crc8 (s ++ [crc8 s]) = 0) ∧
  (∀ hi lo ck : Byte, valid hi lo ck = true → crc8 [hi, lo, ck] = 0) ∧
  crc8 [0xBE, 0xEF, 0x92] = 0 ∧ crc8 [0x12, 0x34, 0x37] = 0

/-- R107: every single-bit and every double-bit error in the 24 bits of a valid DataWord makes it invalid. -/
def Obligations.OneAndTwoBitErrorsDetected : Prop :=
  ∀ c : Word24, valid (chunkHi c) (chunkLo c) (chunkCk c) = true →
    ∀ i j : Nat, i < 24 → j < 24 →
      let one := c ^^^ 1#24 <<< i
      let two := c ^^^ 1#24 <<< i ^^^ 1#24 <<< j
      valid (chunkHi one) (chunkLo one) (chunkCk one) = false ∧
      (i ≠ j → valid (chunkHi two) (chunkLo two) (chunkCk two) = false)

/-- R104: CRC_INIT in every state, its word, and no other word with op 0x9. -/
def Obligations.CrcInitResult : Prop :=
  (∀ s : State, exec .crcInit s = .next (completed .ok 0 0xFF { s with crcAcc := 0xFF })) ∧
  decodeRequest 0x90000000 = .ok .crcInit ∧
  ∀ w : Word32, opField w = 0x9 → w ≠ 0x90000000 → ∃ e, decodeRequest w = .error e

/-- R105: CRC_FEED in every state, and its word. -/
def Obligations.CrcFeedResult : Prop :=
  ∀ (s : State) (b : Byte),
    encode (.crcFeed b) = .request (0xA00000#24 ++ b) ∧
    exec (.crcFeed b) s =
      .next (completed .ok 0 ((crcStep s.crcAcc b).setWidth 48) { s with crcAcc := crcStep s.crcAcc b })

/-- R105, R104, R100: CRC_INIT and then the bytes of `bs` leave CRC_ACC = crc8(bs), with no transport call and in
every mode. -/
def Obligations.FeedingASpanComputesCrc8 : Prop :=
  ∀ (s : State) (bs : List Byte), ∃ t, execAll (.crcInit :: bs.map .crcFeed) s = .next t ∧
    t.crcAcc = crc8 bs ∧ t.bus = s.bus ∧ t.mode = s.mode ∧ t.responses.length = s.responses.length + bs.length + 1

/-- R26, R108: no step writes CRC_ACC but one that runs CRC_INIT or CRC_FEED, or a reset. -/
def Obligations.OnlyCrcOperationsWriteCrcAcc : Prop :=
  ∀ s t : State, step s = .next t → ¬ ResetNext s →
    (∀ u, fetch s ≠ .instr .crcInit u) → (∀ b u, fetch s ≠ .instr (.crcFeed b) u) → t.crcAcc = s.crcAcc

/-! ### Word marshaller (41_word_codec.md) -/

/-- R127: decoding the encoding of a value gives it back, and only images of `enc` decode. -/
def Obligations.WordRoundTrip : Prop :=
  (∀ v : Word16, dec (hiByte v) (loByte v) (crc8 [hiByte v, loByte v]) = some v) ∧
  (∀ (b0 b1 b2 : Byte) (v : Word16), dec b0 b1 b2 = some v → enc v = [b0, b1, b2])

/-- R124: the first failing word of a frame decides, and words after it have no effect; with none failing, the
words are the frame's in order. -/
def Obligations.FirstFailingWordDecides : Prop :=
  (∀ a0 a1 a2 : Byte, decWords [a0, a1, a2] =
    if crc8 [a0, a1] = a2 then .ok [a0 ++ a1] else .fail .checksumMismatch 0) ∧
  (∀ a0 a1 a2 b0 b1 b2 c0 c1 c2 : Byte, decWords [a0, a1, a2, b0, b1, b2, c0, c1, c2] =
    if crc8 [a0, a1] ≠ a2 then .fail .checksumMismatch 0
    else if crc8 [b0, b1] ≠ b2 then .fail .checksumMismatch 1
    else if crc8 [c0, c1] ≠ c2 then .fail .checksumMismatch 2
    else .ok [a0 ++ a1, b0 ++ b1, c0 ++ c1])

/-- R122: ENCODE_WORD in every state, and its word. -/
def Obligations.EncodeWordResult : Prop :=
  ∀ (s : State) (v : Word16),
    encode (.encodeWord v) = .request (0xB000#16 ++ v) ∧
    exec (.encodeWord v) s =
      .next (completed .ok 0 (0#24 ++ hiByte v ++ loByte v ++ crc8 [hiByte v, loByte v]) s)

/-- R123: DECODE_WORD in every state, for a chunk that passes its check and for one that does not, and its word. -/
def Obligations.DecodeWordResult : Prop :=
  ∀ (s : State) (c : Word24),
    encode (.decodeWord c) = .request (0xC0#8 ++ c) ∧
    (crc8 [chunkHi c, chunkLo c] = chunkCk c →
      exec (.decodeWord c) s = .next (completed .ok 0 (0#32 ++ chunkHi c ++ chunkLo c) s)) ∧
    (crc8 [chunkHi c, chunkLo c] ≠ chunkCk c →
      exec (.decodeWord c) s = .next (completed .checksumMismatch 0 0 s))

/-! ### Framer (42_framer.md) -/

/-- R79, R80, R83: the six outgoing frames, byte by byte. -/
def Obligations.OutgoingFrames : Prop :=
  frameCmd Command.getSerial.code = [0x36, 0x82] ∧
  frameCmd Command.startPeriodic.code = [0x21, 0xB1] ∧
  frameCmd Command.stopPeriodic.code = [0x3F, 0x86] ∧
  frameCmd Command.readMeasurement.code = [0xEC, 0x05] ∧
  frameCmd Command.getTempOffset.code = [0x23, 0x18] ∧
  (∀ v : Word16, frameSet Command.setTempOffset.code v =
    [0x24, 0x1D, hiByte v, loByte v, crc8 [hiByte v, loByte v]]) ∧
  frameSet Command.setTempOffset.code 0x05DA = [0x24, 0x1D, 0x05, 0xDA, 0x29]

/-- R143, R146: a command with no reply makes one `BusTx` of its frame and returns OK() or
FAIL(TRANSPORT_ERROR, 0) by its outcome; while the call has not completed, the transaction stays in phase TX. -/
def Obligations.NoReplyCommandResult : Prop :=
  ∀ (s : State) (tmo : Tmo) (d : Draw) (rest : List Draw) (v : Word16),
    s.tmo = some tmo → s.draws = d :: rest →
    let after (f : List Byte) : State :=
      { transacted f none [.tx f tmo] rest s with
        phase := .tx
        framerResult := match d with
          | .ok _ => some (.ok [])
          | .err => some (.fail .transportError 0)
          | .stall => s.framerResult }
    exec .cmdStartPeriodic s = .next (after [0x21, 0xB1]) ∧
    exec .cmdStopPeriodic s = .next (after [0x3F, 0x86]) ∧
    exec (.cmdSetTempOffset v) s = .next (after [0x24, 0x1D, hiByte v, loByte v, crc8 [hiByte v, loByte v]])

/-- R144: the two commands with a three-word reply transmit, then receive nine bytes in a separate call; the
outcomes decide the value returned, in R248's order, with no receive after a failed transmit. -/
def Obligations.SeparateReplyCommandResult : Prop :=
  ∀ (i : Instr) (f : List Byte),
    (i = .cmdGetSerial ∧ f = [0x36, 0x82]) ∨ (i = .cmdReadMeasurement ∧ f = [0xEC, 0x05]) →
    ∀ (s : State) (tmo : Tmo) (ds rest : List Draw) (acts : List Action),
      s.tmo = some tmo → s.draws = ds ++ rest →
      (∀ (bytes : List Byte) (w0 w1 w2 : Word16), ReadGives f tmo ds acts bytes w0 w1 w2 →
        exec i s = .next { transacted f (some bytes) acts rest s with
          phase := .decode, framerResult := some (.ok [w0, w1, w2]) }) ∧
      (∀ (rx : Option (List Byte)) (ph : Phase) (st : Status) (k : BitVec 2), ReadFails f tmo ds acts rx ph st k →
        exec i s = .next { transacted f rx acts rest s with
          phase := ph, framerResult := some (.fail st k) })

/-- R145: Get temperature offset is one combined call of 2 bytes out and 3 in. -/
def Obligations.CombinedReplyCommandResult : Prop :=
  ∀ (s : State) (tmo : Tmo) (rest : List Draw), s.tmo = some tmo →
    let f : List Byte := [0x23, 0x18]
    let acts : List Action := [.txRx f 3 tmo]
    (s.draws = .err :: rest → exec .cmdGetTempOffset s = .next { transacted f none acts rest s with
      phase := .txrx, framerResult := some (.fail .transportError 0) }) ∧
    (∀ bytes : List Byte, bytes.length ≠ 3 → s.draws = .ok bytes :: rest →
      exec .cmdGetTempOffset s = .next { transacted f (some bytes) acts rest s with
        phase := .decode, framerResult := some (.fail .protocolViolation 0) }) ∧
    (∀ b0 b1 b2 : Byte, s.draws = .ok [b0, b1, b2] :: rest →
      exec .cmdGetTempOffset s = .next { transacted f (some [b0, b1, b2]) acts rest s with
        phase := .decode
        framerResult := some (if crc8 [b0, b1] = b2 then .ok [b0 ++ b1] else .fail .checksumMismatch 0) })

/-- R108, R142: a wire command completes whatever the transport answers, and touches nothing of its caller's state
but the phase, the frame buffers and the value it returns. -/
def Obligations.WireCommandsFrame : Prop :=
  ∀ (i : Instr) (s : State), i.isRequest = false → s.tmo.isSome = true →
    ∃ t, exec i s = .next t ∧ FramerFrame s t

/-! ### Sequencer (43_sequencer.md) -/

/-- R162, R163: in UNINIT an operation of BUS_OPS completes with STATE_ERROR, makes no transport call and changes
nothing but LAST_STATUS and LAST_ERR_WORD. -/
def Obligations.PrologueRefusesByMode : Prop :=
  ∀ (i : Instr) (s : State), busOps i = true → s.mode = .uninit →
    exec i s = .next (completed .stateError 0 0 s)

/-- R164: ATTACH in UNINIT, its STATE_ERROR elsewhere (a second ATTACH always fails), and its word. -/
def Obligations.AttachResult : Prop :=
  encode .attach = .request 0x10000000 ∧
  ∀ s : State,
    (s.mode = .uninit → exec .attach s = .next (completed .ok 0 0 { s with mode := .ready })) ∧
    (s.mode ≠ .uninit → exec .attach s = .next (completed .stateError 0 0 s))

/-- R165: IDENTIFY gives the serial number of a good reply, and raises each failure of its transaction; its word. -/
def Obligations.IdentifyResult : Prop :=
  encode .identify = .request 0x20000000 ∧
  ∀ (s : State) (tmo : Tmo) (ds rest : List Draw) (acts : List Action),
    s.mode ≠ .uninit → s.tmo = some tmo → s.draws = ds ++ rest →
    (∀ (bytes : List Byte) (w0 w1 w2 : Word16), ReadGives [0x36, 0x82] tmo ds acts bytes w0 w1 w2 →
      exec .identify s =
        .next (completed .ok 0 (w0 ++ w1 ++ w2) (transacted [0x36, 0x82] (some bytes) acts rest s))) ∧
    (∀ (rx : Option (List Byte)) (ph : Phase) (st : Status) (k : BitVec 2),
      ReadFails [0x36, 0x82] tmo ds acts rx ph st k →
      exec .identify s = .next (completed st k 0 (transacted [0x36, 0x82] rx acts rest s)))

/-- R168, R173, R175: READ_SAMPLE, in READY as in PERIODIC: co2, temperature and humidity words in reply order;
its word. -/
def Obligations.ReadSampleResult : Prop :=
  encode .readSample = .request 0x60000000 ∧
  ∀ (s : State) (tmo : Tmo) (ds rest : List Draw) (acts : List Action),
    s.mode ≠ .uninit → s.tmo = some tmo → s.draws = ds ++ rest →
    (∀ (bytes : List Byte) (w0 w1 w2 : Word16), ReadGives [0xEC, 0x05] tmo ds acts bytes w0 w1 w2 →
      exec .readSample s =
        .next (completed .ok 0 (w0 ++ w1 ++ w2) (transacted [0xEC, 0x05] (some bytes) acts rest s))) ∧
    (∀ (rx : Option (List Byte)) (ph : Phase) (st : Status) (k : BitVec 2),
      ReadFails [0xEC, 0x05] tmo ds acts rx ph st k →
      exec .readSample s = .next (completed st k 0 (transacted [0xEC, 0x05] rx acts rest s)))

/-- R170: GET_TEMP_OFFSET, for each outcome of its combined call; its word. -/
def Obligations.GetTempOffsetResult : Prop :=
  encode .getTempOffset = .request 0x80000000 ∧
  ∀ (s : State) (tmo : Tmo) (rest : List Draw), s.mode ≠ .uninit → s.tmo = some tmo →
    let f : List Byte := [0x23, 0x18]
    let acts : List Action := [.txRx f 3 tmo]
    (s.draws = .err :: rest →
      exec .getTempOffset s = .next (completed .transportError 0 0 (transacted f none acts rest s))) ∧
    (∀ bytes : List Byte, bytes.length ≠ 3 → s.draws = .ok bytes :: rest →
      exec .getTempOffset s =
        .next (completed .protocolViolation 0 0 (transacted f (some bytes) acts rest s))) ∧
    (∀ b0 b1 b2 : Byte, crc8 [b0, b1] ≠ b2 → s.draws = .ok [b0, b1, b2] :: rest →
      exec .getTempOffset s =
        .next (completed .checksumMismatch 0 0 (transacted f (some [b0, b1, b2]) acts rest s))) ∧
    (∀ w : Word16, s.draws = .ok (enc w) :: rest →
      exec .getTempOffset s =
        .next (completed .ok 0 (w.setWidth 48) (transacted f (some (enc w)) acts rest s)))

/-- R169: SET_TEMP_OFFSET transmits the word in its set frame and keeps nothing of it; its word. -/
def Obligations.SetTempOffsetResult : Prop :=
  (∀ v : Word16, encode (.setTempOffset v) = .request (0x7000#16 ++ v)) ∧
  ∀ (s : State) (tmo : Tmo) (rest : List Draw) (v : Word16), s.mode ≠ .uninit → s.tmo = some tmo →
    let f : List Byte := [0x24, 0x1D, hiByte v, loByte v, crc8 [hiByte v, loByte v]]
    (∀ a : List Byte, s.draws = .ok a :: rest →
      exec (.setTempOffset v) s = .next (completed .ok 0 0 (transacted f none [.tx f tmo] rest s))) ∧
    (s.draws = .err :: rest →
      exec (.setTempOffset v) s = .next (completed .transportError 0 0 (transacted f none [.tx f tmo] rest s)))

/-- R166, R167: START and STOP write MODE only when their transmit returned OK, whatever the attached mode was;
their words. -/
def Obligations.StartStopResult : Prop :=
  encode .startPeriodic = .request 0x40000000 ∧ encode .stopPeriodic = .request 0x50000000 ∧
  ∀ (i : Instr) (f : List Byte) (m : Mode),
    (i = .startPeriodic ∧ f = [0x21, 0xB1] ∧ m = .periodic) ∨ (i = .stopPeriodic ∧ f = [0x3F, 0x86] ∧ m = .ready) →
    ∀ (s : State) (tmo : Tmo) (rest : List Draw), s.mode ≠ .uninit → s.tmo = some tmo →
      (∀ a : List Byte, s.draws = .ok a :: rest →
        exec i s = .next (completed .ok 0 0 { transacted f none [.tx f tmo] rest s with mode := m })) ∧
      (s.draws = .err :: rest →
        exec i s = .next (completed .transportError 0 0 (transacted f none [.tx f tmo] rest s)))

/-- R171, R89, R244, R22: READ_STATUS answers OK with the registers in their fields and writes none of them, so a second
one answers the same; its word, and the codes of MODE. -/
def Obligations.ReadStatusResult : Prop :=
  encode .readStatus = .request 0xD0000000 ∧
  Mode.uninit.bits = 0 ∧ Mode.ready.bits = 1 ∧ Mode.periodic.bits = 2 ∧
  ∀ s : State, ∃ d : Word48,
    exec .readStatus s =
      .next { s with responses := s.responses ++ [⟨.ok, 0, d⟩], phase := .idle, attempt := false, busy := false } ∧
    d.extractLsb' 0 2 = s.mode.bits ∧ d.extractLsb' 2 1 = BitVec.ofBool s.unusable ∧ d.extractLsb' 3 1 = 0 ∧
    d.extractLsb' 4 4 = s.lastStatus.code ∧ d.extractLsb' 8 2 = s.lastErrWord ∧ d.extractLsb' 10 6 = 0 ∧
    d.extractLsb' 16 8 = s.crcAcc ∧ d.extractLsb' 24 24 = 0 ∧
    ∃ t, execAll [.readStatus, .readStatus] s = .next t ∧ t.responses = s.responses ++ [⟨.ok, 0, d⟩, ⟨.ok, 0, d⟩]

/-- R172: the MODE transition table, for the step that starts an operation and for every step that goes on with it (an
operation may take several steps, notes/assumptions/2.md). A START or STOP that has completed with OK is in the OK
column; an operation that has not completed yet has not written MODE, but for CHECK_IDENTITY's inner stop, which a
later step than the first makes. -/
def Obligations.ModeTransitionTable : Prop :=
  (∀ (i : Instr) (s t : State), s.busy = true → exec i s = .next t →
    ModeRow i s t ∧ (i = .checkIdentity → t.mode = s.mode)) ∧
  (∀ (i : Instr) (s t : State), Inv s → s.busy = true → Latched s i → ¬ ResetNext s → step s = .next t →
    ModeRow i s t)

/-- R160: MODE never returns to UNINIT but by reset. -/
def Obligations.UninitOnlyByReset : Prop :=
  ∀ s t : State, step s = .next t → ¬ ResetNext s → t.mode = .uninit → s.mode = .uninit

/-! ### Recovery (44_recovery.md) -/

/-- R201, path P1: the first identify succeeds: exactly its two calls, no stop, no wait. -/
def Obligations.CheckIdentityFirstTry : Prop :=
  ∀ (s : State) (tmo : Tmo) (ds rest : List Draw) (acts : List Action) (bytes : List Byte) (w0 w1 w2 : Word16),
    s.mode ≠ .uninit → s.tmo = some tmo → s.draws = ds ++ rest →
    ReadGives [0x36, 0x82] tmo ds acts bytes w0 w1 w2 →
    exec .checkIdentity s =
      .next (completed .ok 0 (w0 ++ w1 ++ w2) (transacted [0x36, 0x82] (some bytes) acts rest s))

/-- R200, R201 path P2, R206: the first identify fails in any way, the stop answers either way, the retry succeeds:
the calls in order, the serial of the retry, MODE READY if the stop returned OK, nothing of the failures kept. The run
takes three steps: each settle wait ends one (notes/assumptions/2.md). -/
def Obligations.CheckIdentityRetrySucceeds : Prop :=
  ∀ (s : State) (tmo : Tmo) (ds1 ds2 rest : List Draw) (acts1 acts2 : List Action) (rx1 : Option (List Byte))
    (ph1 : Phase) (st1 : Status) (k1 : BitVec 2) (stop : Draw) (bytes : List Byte) (w0 w1 w2 : Word16),
    s.mode ≠ .uninit → s.tmo = some tmo → s.busy = true → Latched s .checkIdentity → s.command = none →
    Undisturbed s → s.draws = ds1 ++ stop :: (ds2 ++ rest) → stop ≠ .stall →
    ReadFails [0x36, 0x82] tmo ds1 acts1 rx1 ph1 st1 k1 →
    ReadGives [0x36, 0x82] tmo ds2 acts2 bytes w0 w1 w2 →
    ∃ s1, exec .checkIdentity s = .next s1 ∧ runSteps 2 s1 =
      .next (completed .ok 0 (w0 ++ w1 ++ w2)
        { transacted [0x36, 0x82] (some bytes)
            (acts1 ++ [.wait .settleWait, .tx [0x3F, 0x86] tmo, .wait .settleWait] ++ acts2) rest s with
          mode := if stop = .err then s.mode else .ready })

/-- R201 path P3, R203, R205: the retry fails too: UNUSABLE is set and the retry's failure is the one response. The
same where a call of the retry has been in flight since an earlier step (ATTEMPT is 1, R31), whatever came before. -/
def Obligations.CheckIdentityRetryFails : Prop :=
  (∀ (s : State) (tmo : Tmo) (ds1 ds2 rest : List Draw) (acts1 acts2 : List Action) (rx1 rx2 : Option (List Byte))
    (ph1 ph2 : Phase) (st1 st2 : Status) (k1 k2 : BitVec 2) (stop : Draw),
    s.mode ≠ .uninit → s.tmo = some tmo → s.busy = true → Latched s .checkIdentity → s.command = none →
    Undisturbed s → s.draws = ds1 ++ stop :: (ds2 ++ rest) → stop ≠ .stall →
    ReadFails [0x36, 0x82] tmo ds1 acts1 rx1 ph1 st1 k1 →
    ReadFails [0x36, 0x82] tmo ds2 acts2 rx2 ph2 st2 k2 →
    ∃ s1, exec .checkIdentity s = .next s1 ∧ runSteps 2 s1 =
      .next (completed st2 k2 0
        { transacted [0x36, 0x82] (rx2.or rx1)
            (acts1 ++ [.wait .settleWait, .tx [0x3F, 0x86] tmo, .wait .settleWait] ++ acts2) rest s with
          mode := if stop = .err then s.mode else .ready
          unusable := true })) ∧
  (∀ (s : State) (rest : List Draw), Inv s → s.attempt = true → Undisturbed s →
    (s.draws = .err :: rest →
      step s = .next (completed .transportError 0 0 { s with draws := rest, unusable := true })) ∧
    (∀ (tmo : Tmo) (bytes : List Byte) (acts : List Action) (rx : Option (List Byte)) (st : Status) (k : BitVec 2),
      s.phase = .rx → s.draws = .ok bytes :: rest →
      ReadFails [0x36, 0x82] tmo [.ok [], .ok bytes] acts rx .decode st k →
      step s = .next (completed st k 0 { s with rxbuf := some bytes, draws := rest, unusable := true })))

/-- R202, R253: a run of CHECK_IDENTITY makes its actions in the order of its plan and leaves some out: in the step that
starts it, and in every step that goes on with it (notes/assumptions/2.md), which makes only actions that the step
before still had ahead. The plan has two identify commands, one stop, 5 transport calls and 2 waits. -/
def Obligations.RecoveryIsBounded : Prop :=
  (∀ tmo : Tmo,
    ((plan tmo .checkIdentity).filter fun a => sentFrame a = some [0x36, 0x82]).length = 2 ∧
    ((plan tmo .checkIdentity).filter fun a => sentFrame a = some [0x3F, 0x86]).length = 1 ∧
    ((plan tmo .checkIdentity).filter fun a => isCall a).length = 5 ∧
    ((plan tmo .checkIdentity).filter fun a => !isCall a).length = 2) ∧
  (∀ (s t : State) (tmo : Tmo), s.tmo = some tmo → exec .checkIdentity s = .next t →
    Pays tmo .checkIdentity (plan tmo .checkIdentity) s t) ∧
  (∀ (s t : State) (tmo : Tmo), Inv s → s.busy = true → Latched s .checkIdentity → s.tmo = some tmo →
    ¬ ResetNext s → step s = .next t →
    Pays tmo .checkIdentity (ahead tmo .checkIdentity s) s t ∧
    (t.busy = true → Latched t .checkIdentity ∧ t.tmo = some tmo))

/-- R207, R150: no other operation of BUS_OPS repeats a call: in the step that starts it, and in every step that goes on
with it (notes/assumptions/2.md), it makes only actions that its plan still has ahead, and the plan is at most one
transmit and, after it, one receive. -/
def Obligations.NoOtherOperationRetries : Prop :=
  ∀ (i : Instr) (tmo : Tmo), busOps i = true → i ≠ .checkIdentity →
    ((plan tmo i).length ≤ 2 ∧ ((plan tmo i).filter fun a => (sentFrame a).isSome).length = 1 ∧
      (plan tmo i).all isCall = true) ∧
    (∀ s t : State, s.tmo = some tmo → exec i s = .next t → Pays tmo i (plan tmo i) s t) ∧
    (∀ s t : State, Inv s → s.busy = true → Latched s i → s.tmo = some tmo → ¬ ResetNext s → step s = .next t →
      Pays tmo i (ahead tmo i s) s t ∧ (t.busy = true → Latched t i ∧ t.tmo = some tmo))

/-- R24, R203: UNUSABLE is sticky: only a reset clears it. -/
def Obligations.UnusableIsSticky : Prop :=
  ∀ s t : State, step s = .next t → ¬ ResetNext s → s.unusable = true → t.unusable = true

/-- R176: the serial number's value changes nothing but the response's data (and RXBUF, which holds the reply): in the
step that starts the operation, and in one that goes on with it and receives the serial there, the retry's among them
(from phase SETTLE2, or with a call of GET_SERIAL in flight, ATTEMPT 0 or 1). -/
def Obligations.SerialValueDoesNotBranch : Prop :=
  ∀ (i : Instr) (s t u : State) (a : List Byte) (v0 v1 v2 w0 w1 w2 : Word16) (rest : List Draw),
    i = .identify ∨ i = .checkIdentity →
    (exec i { s with draws := .ok a :: .ok (enc v0 ++ enc v1 ++ enc v2) :: rest } = .next t →
      exec i { s with draws := .ok a :: .ok (enc w0 ++ enc w1 ++ enc w2) :: rest } = .next u →
      withoutData t = withoutData u) ∧
    (∀ pre : List Draw, Inv s → Latched s i →
      (s.phase = .settle2 ∧ pre = [.ok a]) ∨ (s.phase = .tx ∧ inFlight s = some .getSerial ∧ pre = [.ok a]) ∨
        (s.phase = .rx ∧ pre = []) →
      step { s with draws := pre ++ .ok (enc v0 ++ enc v1 ++ enc v2) :: rest } = .next t →
      step { s with draws := pre ++ .ok (enc w0 ++ enc w1 ++ enc w2) :: rest } = .next u →
      withoutData t = withoutData u)

/-! ### Errors and completion (60_exceptions.md) -/

/-- R163, R165 to R170, R200: an operation of BUS_OPS runs whatever the transport answers, and leaves alone what
it does not write. MODE is written by START, STOP and CHECK_IDENTITY alone, UNUSABLE by CHECK_IDENTITY alone. -/
def Obligations.BusOperationsFrame : Prop :=
  ∀ (i : Instr) (s : State), busOps i = true → s.tmo.isSome = true →
    ∃ t, exec i s = .next t ∧ BusOpFrame s t ∧
      (i ≠ .startPeriodic → i ≠ .stopPeriodic → i ≠ .checkIdentity → t.mode = s.mode) ∧
      (i ≠ .checkIdentity → t.unusable = s.unusable)

/-- R77, R249: every response a step emits has data 0 unless its status is OK, and err_word 0 unless its status is
CHECKSUM_MISMATCH. -/
def Obligations.ResponsesAreWellFormed : Prop :=
  ∀ s t : State, step s = .next t → s.framerResult = none →
    (∀ r ∈ s.responses, GoodResponse r) → ∀ r ∈ t.responses, GoodResponse r

/-- R244, R161: a step emits at most one response, and after it the block is idle with ATTEMPT 0; without one an
accepted request is still in progress, also one that this step accepted. -/
def Obligations.OneResponsePerOperation : Prop :=
  ∀ s t : State, step s = .next t → ¬ ResetNext s →
    (t.responses = s.responses ∧ (s.busy = true → t.busy = true) ∧
      ∀ w tmo rest, Offers s w tmo rest → t.busy = true ∧ t.req = some w) ∨
    ∃ r, t.responses = s.responses ++ [r] ∧ t.busy = false ∧ t.phase = .idle ∧ t.attempt = false

/-- R161, R279: while BUSY = 1 a request the host offers is not accepted and not lost. -/
def Obligations.RequestHeldWhileBusy : Prop :=
  ∀ (s t : State) (w : Word32) (tmo : Tmo) (rest : List HostEvent),
    s.busy = true → s.host = .request w tmo :: rest → step s = .next t → t.host = s.host ∧ t.req = s.req

/-- R161, R76, R208: every transport call a step makes carries the latched timeout unchanged. -/
def Obligations.TimeoutPassedUnchanged : Prop :=
  ∀ s t : State, step s = .next t → ¬ ResetNext s →
    ∃ new : List Action, t.bus = s.bus ++ new ∧ ∀ a ∈ new, isCall a = true → timeoutOf a = t.tmo

/-- R84: whatever the host requests and the transport answers, only frames of the catalog are transmitted. -/
def Obligations.OnlyCatalogFramesTransmitted : Prop :=
  ∀ s t : State, step s = .next t →
    ∃ new : List Action, t.bus = s.bus ++ new ∧ ∀ a ∈ new, ∀ f, sentFrame a = some f → CatalogFrame f

/-- R56, R61, R282: while a call has not completed the block does nothing else: a step that finds the outcome still to
come changes nothing but that it has waited. A settle wait always ends with the next step and reads no outcome: one that
is still to come is that of the call after the wait, which is then in flight. -/
def Obligations.StalledCallBlocks : Prop :=
  ∀ (s : State) (tmo : Tmo) (rest : List Draw), Inv s → s.host = [] → s.tmo = some tmo → s.draws = .stall :: rest →
    (s.phase = .tx ∨ s.phase = .rx ∨ s.phase = .txrx → step s = .next { s with draws := rest }) ∧
    (s.phase = .settle1 → step s = .next { s with
      phase := .tx, txbuf := some [0x3F, 0x86], bus := s.bus ++ [.tx [0x3F, 0x86] tmo], draws := rest }) ∧
    (s.phase = .settle2 → step s = .next { s with
      phase := .tx, attempt := true, txbuf := some [0x36, 0x82], bus := s.bus ++ [.tx [0x36, 0x82] tmo], draws := rest })

/-- R30, R61: it makes no difference to an operation whether a transport call completes at once or only in a later step:
the step that goes on ends where an undelayed one ends. For the first call of each operation; and for whichever call a
step of the machine stops at, in phase TX, RX or TXRX: a receive, the inner stop, the retry's calls. -/
def Obligations.DelayedCallChangesNothing : Prop :=
  (∀ (i : Instr) (s : State) (rest : List Draw), busOps i = true → Latched s i → s.tmo.isSome = true →
    s.mode ≠ .uninit → s.busy = true → s.attempt = false → s.command = none → s.framerResult = none → s.host = [] →
    ∃ t, exec i { s with draws := .stall :: rest } = .next t ∧ t.busy = true ∧ t.responses = s.responses ∧
      step t = exec i { s with draws := rest }) ∧
  (∀ (s t : State) (pre rest : List Draw), Inv s → ¬ ResetNext s → s.draws = pre ++ .stall :: rest →
    .stall ∉ pre → step s = .next t → t.phase = .tx ∨ t.phase = .rx ∨ t.phase = .txrx →
    t.draws = rest ∧ t.busy = true ∧ t.responses = s.responses ∧
    (Undisturbed t → step t = step { s with draws := pre ++ rest }))

/-! ### Steps, reset and the invariant (10_state.md, 70_reset_and_hazards.md) -/

/-- R161, R162, R33: an idle block offered a word that decodes latches it and runs the instruction; a command
presented to the framer inside an operation is run as the wire command it decodes to (the model's framer interface,
notes/assumptions/7.md). -/
def Obligations.StepRunsDecodedInstruction : Prop :=
  (∀ (s : State) (w : Word32) (tmo : Tmo) (rest : List HostEvent) (i : Instr),
    Offers s w tmo rest → decodeRequest w = .ok i →
    step s = exec i { s with host := rest, req := some w, tmo := some tmo, busy := true, phase := .exec }) ∧
  (∀ (s : State) (code out : Word16) (i : Instr),
    s.busy = true → s.host = [] → s.command = some ⟨code, out⟩ → decodeCommand code out = .ok i →
    step s = exec i { s with command := none })

/-- R36, R270: the value of every piece of the block's state after reset. That the buffers and the latch, whose value R36
leaves unspecified and which R37 forbids to read before they are written, hold no value is the model's reading
(notes/assumptions/1.md). -/
def Obligations.ResetValues : Prop :=
  State.reset.mode.bits = 0 ∧ State.reset.unusable = false ∧ State.reset.busy = false ∧
  State.reset.crcAcc = 0xFF ∧ State.reset.lastStatus.code = 0 ∧ State.reset.lastErrWord = 0 ∧
  State.reset.phase = .idle ∧ State.reset.attempt = false ∧ State.reset.req = none ∧ State.reset.tmo = none ∧
  State.reset.txbuf = none ∧ State.reset.rxbuf = none

/-- R271, R270: reset in any state, also inside an operation: the block's state is the reset state, no response is
produced and no transport call is made. That the environment's inputs stay is the model's choice
(notes/assumptions/11.md). -/
def Obligations.ResetAbandonsOperation : Prop :=
  ∀ (s : State) (rest : List HostEvent), s.host = .reset :: rest → ∃ t, step s = .next t ∧
    t.responses = s.responses ∧ t.bus = s.bus ∧ t.host = rest ∧
    { t with responses := [], bus := [], host := [], draws := [], drawIndex := 0 } = State.reset

/-- R36 with R28, R30 to R33: the reset state meets the invariant. -/
def Obligations.InvariantAtReset : Prop := Inv State.reset

/-- R28, R30 to R33, R162, R200: every step keeps the invariant. -/
def Obligations.InvariantKept : Prop := ∀ s t : State, Inv s → step s = .next t → Inv t

/-- R37, R253: from a state that meets the invariant a step always answers a next state: no run from reset reads a
cell with no value, and none stops. -/
def Obligations.NoRunStops : Prop := ∀ s : State, Inv s → ∃ t, step s = .next t

/-! ### Conversions (45_conversion.md) -/

/-- R16, R175, R221 to R223: the host's sample of READ_SAMPLE's data, from the words in reply order, co2 unscaled; and
the vectors the rules give, as binary64 bit patterns: -45.0, 130.0, 42.50133516441596; 0.0, 100.0, 50.000762951094835;
the sample of program 2. What binary64 is, is notes/assumptions/16.md (PRESUMED). -/
def Obligations.SampleConversions : Prop :=
  (∀ w0 w1 w2 : Word16, sampleOfData (w0 ++ w1 ++ w2) = ⟨w0.toNat, temperatureC w1, humidityPct w2⟩) ∧
  sampleOfData 0x01F466675EB9 = ⟨500, 0x403900AF00AF00B0, 0x4042803480348035⟩ ∧
  temperatureC 0x0000 = 0xC046800000000000 ∧ temperatureC 0xFFFF = 0x4060400000000000 ∧
  temperatureC 0x8000 = 0x4045402BC02BC02C ∧
  humidityPct 0x0000 = 0x0000000000000000 ∧ humidityPct 0xFFFF = 0x4059000000000000 ∧
  humidityPct 0x8000 = 0x4049001900190019

/-- R227: setting an offset of k tenths, k from 0 to 999, and reading it back gives exactly that offset. -/
def Obligations.TenthsRoundTrip : Prop :=
  ∀ k : Nat, k < 1000 → let o : F64 := (roundRat false k 10).bits
    ∃ r, offsetToRaw o = some r ∧ rawToOffset r = o

/-- R224 to R226, R228: vectors of the offset transforms, halves away from zero, and refusals, as bit patterns of
binary64, whose layout is the model's (notes/assumptions/16.md, PRESUMED). -/
def Obligations.OffsetConversions : Prop :=
  offsetToRaw 0x4010000000000000 = some 0x05DA ∧ offsetToRaw 0x0000000000000000 = some 0x0000 ∧
  offsetToRaw 0x4024000000000000 = some 0x0EA1 ∧ offsetToRaw 0x3F55E00000000000 = some 0x0001 ∧
  offsetToRaw 0xBFF0000000000000 = none ∧ offsetToRaw 0x4065E00000000000 = none ∧
  offsetToRaw 0x7FF8000000000000 = none ∧ offsetToRaw 0x7FF0000000000000 = none ∧
  offsetToRaw 0xFFF0000000000000 = none ∧
  rawToOffset 0x05DA = 0x4010000000000000 ∧ rawToOffset 0xFFFF = 0x4065E00000000000 ∧
  rawToOffset 0x0001 = 0x0000000000000000 ∧ rawToOffset 0x4000 = 0x4045E66666666666 ∧
  rawToOffset 0xC000 = 0x406069999999999A

/-- R228: `offset_to_raw` has a result exactly when -0.5 < q < 65535.5, and then the nearest integer to q, a half
going up. -/
def Obligations.OffsetDomain : Prop :=
  (∀ o : F64, (offsetToRaw o).isSome = true ↔
    ∃ neg m e, offsetQuotient o = .fin neg m e ∧ -(1 / 2) < ratOf neg m e ∧ ratOf neg m e < 65535 + 1 / 2) ∧
  (∀ (o : F64) (r : Word16), offsetToRaw o = some r → ∀ neg m e, offsetQuotient o = .fin neg m e →
    (r.toNat : ℚ) - 1 / 2 ≤ ratOf neg m e ∧ ratOf neg m e < (r.toNat : ℚ) + 1 / 2)

/-- R220, R15: a conversion's rounding step answers `f64` of the exact quotient: the nearest binary64 number, ties to
even, in its 53-bit form or at the least exponent; an infinity from the half-way point beyond the largest number on; and
zero for zero. What binary64 is, and its infinities, is notes/assumptions/16.md (PRESUMED). -/
def Obligations.RoundingIsToNearest : Prop :=
  ∀ (neg : Bool) (n d : Nat), 0 < d →
    (0 < n → (n : ℚ) / d < (2 ^ 54 - 1) * 2 ^ 970 →
      ∃ m e, roundRat neg n d = .fin neg m e ∧ RoundsTo ((if neg then -1 else 1) * ((n : ℚ) / d)) neg m e) ∧
    ((2 ^ 54 - 1) * 2 ^ 970 ≤ (n : ℚ) / d → roundRat neg n d = .inf neg) ∧
    (n = 0 → roundRat neg n d = .fin neg 0 (-1074))
end

