-- ==== Sys2Proof/Laws/Checksum.lean ====
section
/-!
SUPPORT. The shift step is linear over XOR, so a checksum's change depends only on the bits flipped (R101, R106).
-/

namespace Sys2Proof.Laws

open Sys2Proof.Machine

theorem crcShift_eq (a : Byte) : crcShift a = a <<< 1 ^^^ (if a.msb then crcPoly else 0) := by
  unfold crcShift; split <;> simp

theorem polyIf_xor (p q : Bool) : (if (p ^^ q) then crcPoly else 0) =
    (if p then crcPoly else 0) ^^^ (if q then crcPoly else 0) := by
  cases p <;> cases q <;> decide

theorem crcShift_xor (a b : Byte) : crcShift (a ^^^ b) = crcShift a ^^^ crcShift b := by
  simp only [crcShift_eq, BitVec.msb_xor, BitVec.shiftLeft_xor_distrib, polyIf_xor]
  ac_rfl

/-- The 8 shift steps of R101 as one map. -/
def crcShift8 (a : Byte) : Byte :=
  crcShift (crcShift (crcShift (crcShift (crcShift (crcShift (crcShift (crcShift a)))))))

theorem crcStep_eq (c b : Byte) : crcStep c b = crcShift8 (c ^^^ b) := rfl

theorem crcShift8_xor (a b : Byte) : crcShift8 (a ^^^ b) = crcShift8 a ^^^ crcShift8 b := by
  simp only [crcShift8, crcShift_xor]

@[simp] theorem crcShift8_zero : crcShift8 0 = 0 := by decide

@[simp] theorem crc8_nil : crc8 [] = crcInitValue := rfl

theorem crc8_snoc (s : List Byte) (b : Byte) : crc8 (s ++ [b]) = crcStep (crc8 s) b := by simp [crc8]

theorem crc8_pair (hi lo : Byte) : crc8 [hi, lo] = crcShift8 (crcShift8 (crcInitValue ^^^ hi) ^^^ lo) := rfl

theorem valid_iff (hi lo ck : Byte) : valid hi lo ck = true ↔ crc8 [hi, lo] = ck := by simp [valid]

end Sys2Proof.Laws
end

