-- ==== Sys2Proof/Laws/Decode.lean ====
section
/-!
SUPPORT. The fields of a request word as numbers (R70, R71), the masks of R73 as divisions, and the catalog's codes
(R83).
-/

namespace Sys2Proof.Laws

open Sys2Proof

/-! ### Fields -/

theorem requestWord_toNat (op : BitVec 4) (opd : Word24) :
    (requestWord op opd).toNat = op.toNat * 2 ^ 28 + opd.toNat := by
  have h := opd.isLt
  simp only [requestWord, BitVec.toNat_append, BitVec.toNat_ofNat]
  rw [← Nat.shiftLeft_add_eq_or_of_lt h, ← Nat.shiftLeft_add_eq_or_of_lt (by decide)]
  simp [Nat.shiftLeft_eq]; omega

theorem opField_toNat (w : Word32) : (opField w).toNat = w.toNat / 2 ^ 28 := by
  have h := w.isLt
  simp [opField, Nat.shiftRight_eq_div_pow]; omega

theorem opdField_toNat (w : Word32) : (opdField w).toNat = w.toNat % 2 ^ 24 := by simp [opdField]

theorem raw16Field_toNat (w : Word32) : (raw16Field w).toNat = w.toNat % 2 ^ 16 := by simp [raw16Field]

theorem b8Field_toNat (w : Word32) : (b8Field w).toNat = w.toNat % 2 ^ 8 := by simp [b8Field]

/-! ### The masks of R73 -/

theorem and_highMask (w : Word32) (k : Nat) :
    (w &&& (BitVec.allOnes 32 <<< k)).toNat = w.toNat / 2 ^ k * 2 ^ k := by
  have e : w &&& (BitVec.allOnes 32 <<< k) = (w >>> k) <<< k := by
    ext i hi
    simp only [BitVec.getElem_and, BitVec.getElem_shiftLeft, BitVec.getElem_ushiftRight, BitVec.getElem_allOnes]
    by_cases h : i < k
    · simp [h]
    · simp [h, Nat.add_sub_cancel' (Nat.le_of_not_lt h), BitVec.getLsbD_eq_getElem hi]
  rw [e, BitVec.toNat_shiftLeft, BitVec.toNat_ushiftRight, Nat.shiftRight_eq_div_pow, Nat.shiftLeft_eq]
  have := w.isLt
  apply Nat.mod_eq_of_lt
  calc w.toNat / 2 ^ k * 2 ^ k ≤ w.toNat := Nat.div_mul_le_self _ _
    _ < 2 ^ 32 := this

theorem selectRow_full (w p : Word32) (i : Instr) :
    selectRow w p 0xFFFFFFFF i = if w = p then .ok i else .error .strayBits := by
  have : w &&& 0xFFFFFFFF#32 = w := by simpa using BitVec.and_allOnes (x := w)
  simp [selectRow, this]

theorem selectRow_low (w p m : Word32) (k : Nat) (hm : m = BitVec.allOnes 32 <<< k) (i : Instr) :
    selectRow w p m i = if w.toNat / 2 ^ k * 2 ^ k = p.toNat then .ok i else .error .strayBits := by
  subst hm
  rw [selectRow, ← and_highMask w k]
  simp only [← BitVec.toNat_inj]

theorem selectRow_8 (w p : Word32) (i : Instr) : selectRow w p 0xFFFFFF00 i =
    if w.toNat / 2 ^ 8 * 2 ^ 8 = p.toNat then .ok i else .error .strayBits :=
  selectRow_low w p _ 8 (by decide) i

theorem selectRow_16 (w p : Word32) (i : Instr) : selectRow w p 0xFFFF0000 i =
    if w.toNat / 2 ^ 16 * 2 ^ 16 = p.toNat then .ok i else .error .strayBits :=
  selectRow_low w p _ 16 (by decide) i

theorem selectRow_24 (w p : Word32) (i : Instr) : selectRow w p 0xFF000000 i =
    if w.toNat / 2 ^ 24 * 2 ^ 24 = p.toNat then .ok i else .error .strayBits :=
  selectRow_low w p _ 24 (by decide) i

/-! ### The fields of an encoded request -/

theorem requestWord_op (op : BitVec 4) (opd : Word24) : (opField (requestWord op opd)).toNat = op.toNat := by
  have := opd.isLt
  rw [opField_toNat, requestWord_toNat]; omega

theorem requestWord_raw16 (op : BitVec 4) (v : Word16) : raw16Field (requestWord op (0#8 ++ v)) = v := by
  apply BitVec.eq_of_toNat_eq
  have := v.isLt
  rw [raw16Field_toNat, requestWord_toNat, BitVec.toNat_append]; simp; omega

theorem requestWord_b8 (op : BitVec 4) (v : Byte) : b8Field (requestWord op (0#16 ++ v)) = v := by
  apply BitVec.eq_of_toNat_eq
  have := v.isLt
  rw [b8Field_toNat, requestWord_toNat, BitVec.toNat_append]; simp; omega

/-! ### The fields of an encoded request -/

theorem requestWord_opd (op : BitVec 4) (v : Word24) : opdField (requestWord op v) = v := by
  apply BitVec.eq_of_toNat_eq
  have := v.isLt
  rw [opdField_toNat, requestWord_toNat]; omega

/-! ### The catalog -/

theorem commandOfCode_code (c : Command) : commandOfCode c.code = some c := by cases c <;> decide

theorem commandOfCode_some {code : Word16} {c : Command} (h : commandOfCode code = some c) : c.code = code := by
  simpa using List.find?_some h

end Sys2Proof.Laws
end

