-- ==== Sys2Proof/Laws/State.lean ====
section
/-!
SUPPORT. One lemma per field per named state update, each true by `rfl`, so that no proof unfolds an update.
-/

namespace Sys2Proof.Laws

open Sys2Proof.Machine

/-! ### `recordStatus` (Flags.lean, R27 and R28) -/

@[simp] theorem recordStatus_mode (st : Status) (k : BitVec 2) (s : State) : (s.recordStatus st k).mode = s.mode := rfl
@[simp] theorem recordStatus_unusable (st : Status) (k : BitVec 2) (s : State) : (s.recordStatus st k).unusable = s.unusable := rfl
@[simp] theorem recordStatus_busy (st : Status) (k : BitVec 2) (s : State) : (s.recordStatus st k).busy = s.busy := rfl
@[simp] theorem recordStatus_crcAcc (st : Status) (k : BitVec 2) (s : State) : (s.recordStatus st k).crcAcc = s.crcAcc := rfl
@[simp] theorem recordStatus_lastStatus (st : Status) (k : BitVec 2) (s : State) : (s.recordStatus st k).lastStatus = st := rfl
@[simp] theorem recordStatus_lastErrWord (st : Status) (k : BitVec 2) (s : State) : (s.recordStatus st k).lastErrWord = k := rfl
@[simp] theorem recordStatus_phase (st : Status) (k : BitVec 2) (s : State) : (s.recordStatus st k).phase = s.phase := rfl
@[simp] theorem recordStatus_attempt (st : Status) (k : BitVec 2) (s : State) : (s.recordStatus st k).attempt = s.attempt := rfl
@[simp] theorem recordStatus_txbuf (st : Status) (k : BitVec 2) (s : State) : (s.recordStatus st k).txbuf = s.txbuf := rfl
@[simp] theorem recordStatus_rxbuf (st : Status) (k : BitVec 2) (s : State) : (s.recordStatus st k).rxbuf = s.rxbuf := rfl
@[simp] theorem recordStatus_req (st : Status) (k : BitVec 2) (s : State) : (s.recordStatus st k).req = s.req := rfl
@[simp] theorem recordStatus_tmo (st : Status) (k : BitVec 2) (s : State) : (s.recordStatus st k).tmo = s.tmo := rfl
@[simp] theorem recordStatus_host (st : Status) (k : BitVec 2) (s : State) : (s.recordStatus st k).host = s.host := rfl
@[simp] theorem recordStatus_draws (st : Status) (k : BitVec 2) (s : State) : (s.recordStatus st k).draws = s.draws := rfl
@[simp] theorem recordStatus_drawIndex (st : Status) (k : BitVec 2) (s : State) : (s.recordStatus st k).drawIndex = s.drawIndex := rfl
@[simp] theorem recordStatus_bus (st : Status) (k : BitVec 2) (s : State) : (s.recordStatus st k).bus = s.bus := rfl
@[simp] theorem recordStatus_responses (st : Status) (k : BitVec 2) (s : State) : (s.recordStatus st k).responses = s.responses := rfl
@[simp] theorem recordStatus_command (st : Status) (k : BitVec 2) (s : State) : (s.recordStatus st k).command = s.command := rfl
@[simp] theorem recordStatus_framerResult (st : Status) (k : BitVec 2) (s : State) : (s.recordStatus st k).framerResult = s.framerResult := rfl

/-! ### `finish` (R244) -/

@[simp] theorem finish_mode (r : Response) (s : State) : (finish r s).mode = s.mode := rfl
@[simp] theorem finish_unusable (r : Response) (s : State) : (finish r s).unusable = s.unusable := rfl
@[simp] theorem finish_busy (r : Response) (s : State) : (finish r s).busy = false := rfl
@[simp] theorem finish_crcAcc (r : Response) (s : State) : (finish r s).crcAcc = s.crcAcc := rfl
@[simp] theorem finish_lastStatus (r : Response) (s : State) : (finish r s).lastStatus = s.lastStatus := rfl
@[simp] theorem finish_lastErrWord (r : Response) (s : State) : (finish r s).lastErrWord = s.lastErrWord := rfl
@[simp] theorem finish_phase (r : Response) (s : State) : (finish r s).phase = .idle := rfl
@[simp] theorem finish_attempt (r : Response) (s : State) : (finish r s).attempt = false := rfl
@[simp] theorem finish_txbuf (r : Response) (s : State) : (finish r s).txbuf = s.txbuf := rfl
@[simp] theorem finish_rxbuf (r : Response) (s : State) : (finish r s).rxbuf = s.rxbuf := rfl
@[simp] theorem finish_req (r : Response) (s : State) : (finish r s).req = s.req := rfl
@[simp] theorem finish_tmo (r : Response) (s : State) : (finish r s).tmo = s.tmo := rfl
@[simp] theorem finish_host (r : Response) (s : State) : (finish r s).host = s.host := rfl
@[simp] theorem finish_draws (r : Response) (s : State) : (finish r s).draws = s.draws := rfl
@[simp] theorem finish_drawIndex (r : Response) (s : State) : (finish r s).drawIndex = s.drawIndex := rfl
@[simp] theorem finish_bus (r : Response) (s : State) : (finish r s).bus = s.bus := rfl
@[simp] theorem finish_responses (r : Response) (s : State) : (finish r s).responses = s.responses ++ [r] := rfl
@[simp] theorem finish_command (r : Response) (s : State) : (finish r s).command = s.command := rfl
@[simp] theorem finish_framerResult (r : Response) (s : State) : (finish r s).framerResult = s.framerResult := rfl

/-! ### `respond` (R244) -/

@[simp] theorem respond_mode (st : Status) (k : BitVec 2) (d : Word48) (s : State) : (respond st k d s).mode = s.mode := rfl
@[simp] theorem respond_unusable (st : Status) (k : BitVec 2) (d : Word48) (s : State) : (respond st k d s).unusable = s.unusable := rfl
@[simp] theorem respond_busy (st : Status) (k : BitVec 2) (d : Word48) (s : State) : (respond st k d s).busy = false := rfl
@[simp] theorem respond_crcAcc (st : Status) (k : BitVec 2) (d : Word48) (s : State) : (respond st k d s).crcAcc = s.crcAcc := rfl
@[simp] theorem respond_lastStatus (st : Status) (k : BitVec 2) (d : Word48) (s : State) : (respond st k d s).lastStatus = st := rfl
@[simp] theorem respond_lastErrWord (st : Status) (k : BitVec 2) (d : Word48) (s : State) : (respond st k d s).lastErrWord = k := rfl
@[simp] theorem respond_phase (st : Status) (k : BitVec 2) (d : Word48) (s : State) : (respond st k d s).phase = .idle := rfl
@[simp] theorem respond_attempt (st : Status) (k : BitVec 2) (d : Word48) (s : State) : (respond st k d s).attempt = false := rfl
@[simp] theorem respond_txbuf (st : Status) (k : BitVec 2) (d : Word48) (s : State) : (respond st k d s).txbuf = s.txbuf := rfl
@[simp] theorem respond_rxbuf (st : Status) (k : BitVec 2) (d : Word48) (s : State) : (respond st k d s).rxbuf = s.rxbuf := rfl
@[simp] theorem respond_req (st : Status) (k : BitVec 2) (d : Word48) (s : State) : (respond st k d s).req = s.req := rfl
@[simp] theorem respond_tmo (st : Status) (k : BitVec 2) (d : Word48) (s : State) : (respond st k d s).tmo = s.tmo := rfl
@[simp] theorem respond_host (st : Status) (k : BitVec 2) (d : Word48) (s : State) : (respond st k d s).host = s.host := rfl
@[simp] theorem respond_draws (st : Status) (k : BitVec 2) (d : Word48) (s : State) : (respond st k d s).draws = s.draws := rfl
@[simp] theorem respond_drawIndex (st : Status) (k : BitVec 2) (d : Word48) (s : State) : (respond st k d s).drawIndex = s.drawIndex := rfl
@[simp] theorem respond_bus (st : Status) (k : BitVec 2) (d : Word48) (s : State) : (respond st k d s).bus = s.bus := rfl
@[simp] theorem respond_responses (st : Status) (k : BitVec 2) (d : Word48) (s : State) : (respond st k d s).responses = s.responses ++ [⟨st, k, d⟩] := rfl
@[simp] theorem respond_command (st : Status) (k : BitVec 2) (d : Word48) (s : State) : (respond st k d s).command = s.command := rfl
@[simp] theorem respond_framerResult (st : Status) (k : BitVec 2) (d : Word48) (s : State) : (respond st k d s).framerResult = s.framerResult := rfl

/-! ### `raise` (R243) -/

@[simp] theorem raise_mode (st : Status) (k : BitVec 2) (s : State) : (raise st k s).mode = s.mode := rfl
@[simp] theorem raise_unusable (st : Status) (k : BitVec 2) (s : State) : (raise st k s).unusable = s.unusable := rfl
@[simp] theorem raise_busy (st : Status) (k : BitVec 2) (s : State) : (raise st k s).busy = false := rfl
@[simp] theorem raise_crcAcc (st : Status) (k : BitVec 2) (s : State) : (raise st k s).crcAcc = s.crcAcc := rfl
@[simp] theorem raise_lastStatus (st : Status) (k : BitVec 2) (s : State) : (raise st k s).lastStatus = st := rfl
@[simp] theorem raise_lastErrWord (st : Status) (k : BitVec 2) (s : State) : (raise st k s).lastErrWord = k := rfl
@[simp] theorem raise_phase (st : Status) (k : BitVec 2) (s : State) : (raise st k s).phase = .idle := rfl
@[simp] theorem raise_attempt (st : Status) (k : BitVec 2) (s : State) : (raise st k s).attempt = false := rfl
@[simp] theorem raise_txbuf (st : Status) (k : BitVec 2) (s : State) : (raise st k s).txbuf = s.txbuf := rfl
@[simp] theorem raise_rxbuf (st : Status) (k : BitVec 2) (s : State) : (raise st k s).rxbuf = s.rxbuf := rfl
@[simp] theorem raise_req (st : Status) (k : BitVec 2) (s : State) : (raise st k s).req = s.req := rfl
@[simp] theorem raise_tmo (st : Status) (k : BitVec 2) (s : State) : (raise st k s).tmo = s.tmo := rfl
@[simp] theorem raise_host (st : Status) (k : BitVec 2) (s : State) : (raise st k s).host = s.host := rfl
@[simp] theorem raise_draws (st : Status) (k : BitVec 2) (s : State) : (raise st k s).draws = s.draws := rfl
@[simp] theorem raise_drawIndex (st : Status) (k : BitVec 2) (s : State) : (raise st k s).drawIndex = s.drawIndex := rfl
@[simp] theorem raise_bus (st : Status) (k : BitVec 2) (s : State) : (raise st k s).bus = s.bus := rfl
@[simp] theorem raise_responses (st : Status) (k : BitVec 2) (s : State) : (raise st k s).responses = s.responses ++ [⟨st, k, 0⟩] := rfl
@[simp] theorem raise_command (st : Status) (k : BitVec 2) (s : State) : (raise st k s).command = s.command := rfl
@[simp] theorem raise_framerResult (st : Status) (k : BitVec 2) (s : State) : (raise st k s).framerResult = s.framerResult := rfl

/-! ### `accept` (R161) -/

@[simp] theorem accept_mode (w : Word32) (tmo : Tmo) (s : State) : (accept w tmo s).mode = s.mode := rfl
@[simp] theorem accept_unusable (w : Word32) (tmo : Tmo) (s : State) : (accept w tmo s).unusable = s.unusable := rfl
@[simp] theorem accept_busy (w : Word32) (tmo : Tmo) (s : State) : (accept w tmo s).busy = true := rfl
@[simp] theorem accept_crcAcc (w : Word32) (tmo : Tmo) (s : State) : (accept w tmo s).crcAcc = s.crcAcc := rfl
@[simp] theorem accept_lastStatus (w : Word32) (tmo : Tmo) (s : State) : (accept w tmo s).lastStatus = s.lastStatus := rfl
@[simp] theorem accept_lastErrWord (w : Word32) (tmo : Tmo) (s : State) : (accept w tmo s).lastErrWord = s.lastErrWord := rfl
@[simp] theorem accept_phase (w : Word32) (tmo : Tmo) (s : State) : (accept w tmo s).phase = .exec := rfl
@[simp] theorem accept_attempt (w : Word32) (tmo : Tmo) (s : State) : (accept w tmo s).attempt = s.attempt := rfl
@[simp] theorem accept_txbuf (w : Word32) (tmo : Tmo) (s : State) : (accept w tmo s).txbuf = s.txbuf := rfl
@[simp] theorem accept_rxbuf (w : Word32) (tmo : Tmo) (s : State) : (accept w tmo s).rxbuf = s.rxbuf := rfl
@[simp] theorem accept_req (w : Word32) (tmo : Tmo) (s : State) : (accept w tmo s).req = some w := rfl
@[simp] theorem accept_tmo (w : Word32) (tmo : Tmo) (s : State) : (accept w tmo s).tmo = some tmo := rfl
@[simp] theorem accept_host (w : Word32) (tmo : Tmo) (s : State) : (accept w tmo s).host = s.host := rfl
@[simp] theorem accept_draws (w : Word32) (tmo : Tmo) (s : State) : (accept w tmo s).draws = s.draws := rfl
@[simp] theorem accept_drawIndex (w : Word32) (tmo : Tmo) (s : State) : (accept w tmo s).drawIndex = s.drawIndex := rfl
@[simp] theorem accept_bus (w : Word32) (tmo : Tmo) (s : State) : (accept w tmo s).bus = s.bus := rfl
@[simp] theorem accept_responses (w : Word32) (tmo : Tmo) (s : State) : (accept w tmo s).responses = s.responses := rfl
@[simp] theorem accept_command (w : Word32) (tmo : Tmo) (s : State) : (accept w tmo s).command = s.command := rfl
@[simp] theorem accept_framerResult (w : Word32) (tmo : Tmo) (s : State) : (accept w tmo s).framerResult = s.framerResult := rfl

/-! ### `doReset` (R270) -/

@[simp] theorem doReset_mode (s : State) : (doReset s).mode = .uninit := rfl
@[simp] theorem doReset_unusable (s : State) : (doReset s).unusable = false := rfl
@[simp] theorem doReset_busy (s : State) : (doReset s).busy = false := rfl
@[simp] theorem doReset_crcAcc (s : State) : (doReset s).crcAcc = 0xFF := rfl
@[simp] theorem doReset_lastStatus (s : State) : (doReset s).lastStatus = .ok := rfl
@[simp] theorem doReset_lastErrWord (s : State) : (doReset s).lastErrWord = 0 := rfl
@[simp] theorem doReset_phase (s : State) : (doReset s).phase = .idle := rfl
@[simp] theorem doReset_attempt (s : State) : (doReset s).attempt = false := rfl
@[simp] theorem doReset_txbuf (s : State) : (doReset s).txbuf = none := rfl
@[simp] theorem doReset_rxbuf (s : State) : (doReset s).rxbuf = none := rfl
@[simp] theorem doReset_req (s : State) : (doReset s).req = none := rfl
@[simp] theorem doReset_tmo (s : State) : (doReset s).tmo = none := rfl
@[simp] theorem doReset_host (s : State) : (doReset s).host = s.host := rfl
@[simp] theorem doReset_draws (s : State) : (doReset s).draws = s.draws := rfl
@[simp] theorem doReset_drawIndex (s : State) : (doReset s).drawIndex = s.drawIndex := rfl
@[simp] theorem doReset_bus (s : State) : (doReset s).bus = s.bus := rfl
@[simp] theorem doReset_responses (s : State) : (doReset s).responses = s.responses := rfl
@[simp] theorem doReset_command (s : State) : (doReset s).command = none := rfl
@[simp] theorem doReset_framerResult (s : State) : (doReset s).framerResult = none := rfl

/-! ### `issueTx` (R143) -/

@[simp] theorem issueTx_mode (f : List Byte) (tmo : Tmo) (s : State) : (issueTx f tmo s).mode = s.mode := rfl
@[simp] theorem issueTx_unusable (f : List Byte) (tmo : Tmo) (s : State) : (issueTx f tmo s).unusable = s.unusable := rfl
@[simp] theorem issueTx_busy (f : List Byte) (tmo : Tmo) (s : State) : (issueTx f tmo s).busy = s.busy := rfl
@[simp] theorem issueTx_crcAcc (f : List Byte) (tmo : Tmo) (s : State) : (issueTx f tmo s).crcAcc = s.crcAcc := rfl
@[simp] theorem issueTx_lastStatus (f : List Byte) (tmo : Tmo) (s : State) : (issueTx f tmo s).lastStatus = s.lastStatus := rfl
@[simp] theorem issueTx_lastErrWord (f : List Byte) (tmo : Tmo) (s : State) : (issueTx f tmo s).lastErrWord = s.lastErrWord := rfl
@[simp] theorem issueTx_phase (f : List Byte) (tmo : Tmo) (s : State) : (issueTx f tmo s).phase = .tx := rfl
@[simp] theorem issueTx_attempt (f : List Byte) (tmo : Tmo) (s : State) : (issueTx f tmo s).attempt = s.attempt := rfl
@[simp] theorem issueTx_txbuf (f : List Byte) (tmo : Tmo) (s : State) : (issueTx f tmo s).txbuf = some f := rfl
@[simp] theorem issueTx_rxbuf (f : List Byte) (tmo : Tmo) (s : State) : (issueTx f tmo s).rxbuf = s.rxbuf := rfl
@[simp] theorem issueTx_req (f : List Byte) (tmo : Tmo) (s : State) : (issueTx f tmo s).req = s.req := rfl
@[simp] theorem issueTx_tmo (f : List Byte) (tmo : Tmo) (s : State) : (issueTx f tmo s).tmo = s.tmo := rfl
@[simp] theorem issueTx_host (f : List Byte) (tmo : Tmo) (s : State) : (issueTx f tmo s).host = s.host := rfl
@[simp] theorem issueTx_draws (f : List Byte) (tmo : Tmo) (s : State) : (issueTx f tmo s).draws = s.draws := rfl
@[simp] theorem issueTx_drawIndex (f : List Byte) (tmo : Tmo) (s : State) : (issueTx f tmo s).drawIndex = s.drawIndex := rfl
@[simp] theorem issueTx_bus (f : List Byte) (tmo : Tmo) (s : State) : (issueTx f tmo s).bus = s.bus ++ [.tx f tmo] := rfl
@[simp] theorem issueTx_responses (f : List Byte) (tmo : Tmo) (s : State) : (issueTx f tmo s).responses = s.responses := rfl
@[simp] theorem issueTx_command (f : List Byte) (tmo : Tmo) (s : State) : (issueTx f tmo s).command = s.command := rfl
@[simp] theorem issueTx_framerResult (f : List Byte) (tmo : Tmo) (s : State) : (issueTx f tmo s).framerResult = s.framerResult := rfl

/-! ### `issueTxRx` (R145) -/

@[simp] theorem issueTxRx_mode (f : List Byte) (n : Nat) (tmo : Tmo) (s : State) : (issueTxRx f n tmo s).mode = s.mode := rfl
@[simp] theorem issueTxRx_unusable (f : List Byte) (n : Nat) (tmo : Tmo) (s : State) : (issueTxRx f n tmo s).unusable = s.unusable := rfl
@[simp] theorem issueTxRx_busy (f : List Byte) (n : Nat) (tmo : Tmo) (s : State) : (issueTxRx f n tmo s).busy = s.busy := rfl
@[simp] theorem issueTxRx_crcAcc (f : List Byte) (n : Nat) (tmo : Tmo) (s : State) : (issueTxRx f n tmo s).crcAcc = s.crcAcc := rfl
@[simp] theorem issueTxRx_lastStatus (f : List Byte) (n : Nat) (tmo : Tmo) (s : State) : (issueTxRx f n tmo s).lastStatus = s.lastStatus := rfl
@[simp] theorem issueTxRx_lastErrWord (f : List Byte) (n : Nat) (tmo : Tmo) (s : State) : (issueTxRx f n tmo s).lastErrWord = s.lastErrWord := rfl
@[simp] theorem issueTxRx_phase (f : List Byte) (n : Nat) (tmo : Tmo) (s : State) : (issueTxRx f n tmo s).phase = .txrx := rfl
@[simp] theorem issueTxRx_attempt (f : List Byte) (n : Nat) (tmo : Tmo) (s : State) : (issueTxRx f n tmo s).attempt = s.attempt := rfl
@[simp] theorem issueTxRx_txbuf (f : List Byte) (n : Nat) (tmo : Tmo) (s : State) : (issueTxRx f n tmo s).txbuf = some f := rfl
@[simp] theorem issueTxRx_rxbuf (f : List Byte) (n : Nat) (tmo : Tmo) (s : State) : (issueTxRx f n tmo s).rxbuf = s.rxbuf := rfl
@[simp] theorem issueTxRx_req (f : List Byte) (n : Nat) (tmo : Tmo) (s : State) : (issueTxRx f n tmo s).req = s.req := rfl
@[simp] theorem issueTxRx_tmo (f : List Byte) (n : Nat) (tmo : Tmo) (s : State) : (issueTxRx f n tmo s).tmo = s.tmo := rfl
@[simp] theorem issueTxRx_host (f : List Byte) (n : Nat) (tmo : Tmo) (s : State) : (issueTxRx f n tmo s).host = s.host := rfl
@[simp] theorem issueTxRx_draws (f : List Byte) (n : Nat) (tmo : Tmo) (s : State) : (issueTxRx f n tmo s).draws = s.draws := rfl
@[simp] theorem issueTxRx_drawIndex (f : List Byte) (n : Nat) (tmo : Tmo) (s : State) : (issueTxRx f n tmo s).drawIndex = s.drawIndex := rfl
@[simp] theorem issueTxRx_bus (f : List Byte) (n : Nat) (tmo : Tmo) (s : State) : (issueTxRx f n tmo s).bus = s.bus ++ [.txRx f (3 * n) tmo] := rfl
@[simp] theorem issueTxRx_responses (f : List Byte) (n : Nat) (tmo : Tmo) (s : State) : (issueTxRx f n tmo s).responses = s.responses := rfl
@[simp] theorem issueTxRx_command (f : List Byte) (n : Nat) (tmo : Tmo) (s : State) : (issueTxRx f n tmo s).command = s.command := rfl
@[simp] theorem issueTxRx_framerResult (f : List Byte) (n : Nat) (tmo : Tmo) (s : State) : (issueTxRx f n tmo s).framerResult = s.framerResult := rfl

/-! ### `issueRx` (R144) -/

@[simp] theorem issueRx_mode (n : Nat) (tmo : Tmo) (s : State) : (issueRx n tmo s).mode = s.mode := rfl
@[simp] theorem issueRx_unusable (n : Nat) (tmo : Tmo) (s : State) : (issueRx n tmo s).unusable = s.unusable := rfl
@[simp] theorem issueRx_busy (n : Nat) (tmo : Tmo) (s : State) : (issueRx n tmo s).busy = s.busy := rfl
@[simp] theorem issueRx_crcAcc (n : Nat) (tmo : Tmo) (s : State) : (issueRx n tmo s).crcAcc = s.crcAcc := rfl
@[simp] theorem issueRx_lastStatus (n : Nat) (tmo : Tmo) (s : State) : (issueRx n tmo s).lastStatus = s.lastStatus := rfl
@[simp] theorem issueRx_lastErrWord (n : Nat) (tmo : Tmo) (s : State) : (issueRx n tmo s).lastErrWord = s.lastErrWord := rfl
@[simp] theorem issueRx_phase (n : Nat) (tmo : Tmo) (s : State) : (issueRx n tmo s).phase = .rx := rfl
@[simp] theorem issueRx_attempt (n : Nat) (tmo : Tmo) (s : State) : (issueRx n tmo s).attempt = s.attempt := rfl
@[simp] theorem issueRx_txbuf (n : Nat) (tmo : Tmo) (s : State) : (issueRx n tmo s).txbuf = s.txbuf := rfl
@[simp] theorem issueRx_rxbuf (n : Nat) (tmo : Tmo) (s : State) : (issueRx n tmo s).rxbuf = s.rxbuf := rfl
@[simp] theorem issueRx_req (n : Nat) (tmo : Tmo) (s : State) : (issueRx n tmo s).req = s.req := rfl
@[simp] theorem issueRx_tmo (n : Nat) (tmo : Tmo) (s : State) : (issueRx n tmo s).tmo = s.tmo := rfl
@[simp] theorem issueRx_host (n : Nat) (tmo : Tmo) (s : State) : (issueRx n tmo s).host = s.host := rfl
@[simp] theorem issueRx_draws (n : Nat) (tmo : Tmo) (s : State) : (issueRx n tmo s).draws = s.draws := rfl
@[simp] theorem issueRx_drawIndex (n : Nat) (tmo : Tmo) (s : State) : (issueRx n tmo s).drawIndex = s.drawIndex := rfl
@[simp] theorem issueRx_bus (n : Nat) (tmo : Tmo) (s : State) : (issueRx n tmo s).bus = s.bus ++ [.rx (3 * n) tmo] := rfl
@[simp] theorem issueRx_responses (n : Nat) (tmo : Tmo) (s : State) : (issueRx n tmo s).responses = s.responses := rfl
@[simp] theorem issueRx_command (n : Nat) (tmo : Tmo) (s : State) : (issueRx n tmo s).command = s.command := rfl
@[simp] theorem issueRx_framerResult (n : Nat) (tmo : Tmo) (s : State) : (issueRx n tmo s).framerResult = s.framerResult := rfl

/-! ### `settle` (R200, R282) -/

@[simp] theorem settle_mode (ph : Phase) (s : State) : (settle ph s).mode = s.mode := rfl
@[simp] theorem settle_unusable (ph : Phase) (s : State) : (settle ph s).unusable = s.unusable := rfl
@[simp] theorem settle_busy (ph : Phase) (s : State) : (settle ph s).busy = s.busy := rfl
@[simp] theorem settle_crcAcc (ph : Phase) (s : State) : (settle ph s).crcAcc = s.crcAcc := rfl
@[simp] theorem settle_lastStatus (ph : Phase) (s : State) : (settle ph s).lastStatus = s.lastStatus := rfl
@[simp] theorem settle_lastErrWord (ph : Phase) (s : State) : (settle ph s).lastErrWord = s.lastErrWord := rfl
@[simp] theorem settle_phase (ph : Phase) (s : State) : (settle ph s).phase = ph := rfl
@[simp] theorem settle_attempt (ph : Phase) (s : State) : (settle ph s).attempt = s.attempt := rfl
@[simp] theorem settle_txbuf (ph : Phase) (s : State) : (settle ph s).txbuf = s.txbuf := rfl
@[simp] theorem settle_rxbuf (ph : Phase) (s : State) : (settle ph s).rxbuf = s.rxbuf := rfl
@[simp] theorem settle_req (ph : Phase) (s : State) : (settle ph s).req = s.req := rfl
@[simp] theorem settle_tmo (ph : Phase) (s : State) : (settle ph s).tmo = s.tmo := rfl
@[simp] theorem settle_host (ph : Phase) (s : State) : (settle ph s).host = s.host := rfl
@[simp] theorem settle_draws (ph : Phase) (s : State) : (settle ph s).draws = s.draws := rfl
@[simp] theorem settle_drawIndex (ph : Phase) (s : State) : (settle ph s).drawIndex = s.drawIndex := rfl
@[simp] theorem settle_bus (ph : Phase) (s : State) : (settle ph s).bus = s.bus ++ [.wait .settleWait] := rfl
@[simp] theorem settle_responses (ph : Phase) (s : State) : (settle ph s).responses = s.responses := rfl
@[simp] theorem settle_command (ph : Phase) (s : State) : (settle ph s).command = s.command := rfl
@[simp] theorem settle_framerResult (ph : Phase) (s : State) : (settle ph s).framerResult = s.framerResult := rfl

@[simp] theorem wait_eq (p : WaitParam) (s : State) : wait p s = s := rfl

end Sys2Proof.Laws
end

