-- ==== Sys2Proof/Laws/WordCodec.lean ====
section
/-!
SUPPORT. The bytes of a value and back (R51, R120, R121), and what `decWords` can answer (R124).
-/

namespace Sys2Proof.Laws

open Sys2Proof.Machine

@[simp] theorem joinBytes_hi_lo (v : Word16) : joinBytes (hiByte v) (loByte v) = v := by
  apply BitVec.eq_of_toNat_eq
  have := v.isLt
  simp only [joinBytes, hiByte, loByte, BitVec.toNat_append, BitVec.extractLsb'_toNat]
  rw [← Nat.shiftLeft_add_eq_or_of_lt (Nat.mod_lt _ (by decide))]
  simp [Nat.shiftLeft_eq, Nat.shiftRight_eq_div_pow]; omega

@[simp] theorem hiByte_join (b0 b1 : Byte) : hiByte (joinBytes b0 b1) = b0 := by
  apply BitVec.eq_of_toNat_eq
  have h0 := b0.isLt
  have h1 := b1.isLt
  simp only [joinBytes, hiByte, BitVec.toNat_append, BitVec.extractLsb'_toNat]
  rw [← Nat.shiftLeft_add_eq_or_of_lt h1]
  simp [Nat.shiftLeft_eq, Nat.shiftRight_eq_div_pow]; omega

@[simp] theorem loByte_join (b0 b1 : Byte) : loByte (joinBytes b0 b1) = b1 := by
  apply BitVec.eq_of_toNat_eq
  have h0 := b0.isLt
  have h1 := b1.isLt
  simp only [joinBytes, loByte, BitVec.toNat_append, BitVec.extractLsb'_toNat]
  rw [← Nat.shiftLeft_add_eq_or_of_lt h1]
  simp [Nat.shiftLeft_eq]; omega

theorem dec_valid {b0 b1 b2 : Byte} (h : crc8 [b0, b1] = b2) : dec b0 b1 b2 = some (joinBytes b0 b1) := by
  simp [dec, (valid_iff ..).2 h]

theorem dec_invalid {b0 b1 b2 : Byte} (h : crc8 [b0, b1] ≠ b2) : dec b0 b1 b2 = none := by
  simp [dec, valid_iff, h]

/-- The words of a good reply of three DataWords (R120, R124). -/
@[simp] theorem decWords_enc3 (w0 w1 w2 : Word16) : decWords (enc w0 ++ enc w1 ++ enc w2) = .ok [w0, w1, w2] := by
  simp [decWords, decWordsFrom, enc, dec_valid]

/-- The word of a good reply of one DataWord (R120, R124). -/
@[simp] theorem decWords_enc1 (w : Word16) : decWords (enc w) = .ok [w] := by
  simp [decWords, decWordsFrom, enc, dec_valid]

/-- What a framer function may return: a failure has one of the source's statuses, and an index only for a
checksum failure (R240, R248). -/
def GoodResult : FrameResult → Prop
  | .ok _ => True
  | .fail st k => st ≠ .ok ∧ (st ≠ .checksumMismatch → k = 0) ∧ k ≠ 3

theorem decWordsFrom_good (m : Nat) : ∀ (k : Nat) (acc : List Word16) (bytes : List Byte),
    k + m = 3 → bytes.length ≤ 3 * m → GoodResult (decWordsFrom (BitVec.ofNat 2 k) acc bytes) := by
  induction m with
  | zero =>
    intro k acc bytes _ hb
    obtain rfl : bytes = [] := List.eq_nil_of_length_eq_zero (by omega)
    trivial
  | succ m ih =>
    intro k acc bytes hk hb
    unfold decWordsFrom
    split
    · split
      · have := ih (k + 1) (acc ++ [by assumption]) (by assumption) (by omega) (by simp at hb; omega)
        rwa [BitVec.ofNat_add] at this
      · refine ⟨by decide, by simp, ?_⟩
        have : k < 3 := by omega
        intro h
        have := congrArg BitVec.toNat h
        simp at this; omega
    · trivial

/-- A frame of at most three words fails at index 0, 1 or 2, or gives its words (R28, R124). -/
theorem decWords_good (bytes : List Byte) (h : bytes.length ≤ 9) : GoodResult (decWords bytes) :=
  decWordsFrom_good 3 0 [] bytes rfl h

end Sys2Proof.Laws
end

