-- ==== Sys2Proof/Laws/Framer.lean ====
section
/-!
SUPPORT. What a transaction of the framer can do, said once: its progress is described by `Progress.Sat`, and a
state it leaves differs from its caller's only as `Moved` says.
-/

namespace Sys2Proof.Laws

open Sys2Proof.Machine

/-! ### Reading an outcome -/

theorem nextDraw_cons {s : State} {d : Draw} {ds : List Draw} (h : s.draws = d :: ds) :
    nextDraw s = (d, { s with draws := ds }) := by simp [nextDraw, h]

/-- Whatever it is, reading an outcome changes only what is left to read. -/
theorem nextDraw_spec (s : State) : ∃ d ds n, nextDraw s = (d, { s with draws := ds, drawIndex := n }) := by
  unfold nextDraw
  split
  · exact ⟨_, _, s.drawIndex, rfl⟩
  · exact ⟨_, s.draws, _, rfl⟩

/-! ### The relation between the caller's state and the framer's -/

/-- `t` is `s` after the actions `new`, in phase `ph` and with TXBUF `b`; only RXBUF and the outcomes still to come
may differ besides. -/
def Moved (s t : State) (b : Option (List Byte)) (new : List Action) (ph : Phase) : Prop :=
  ∃ rb ds n, t = { s with
    txbuf := b, rxbuf := rb, phase := ph, bus := s.bus ++ new, draws := ds, drawIndex := n }

/-- A progress satisfies `W` where it waits and `D` where it is done. -/
def Sat (W : State → Prop) (D : FrameResult → State → Prop) : Progress → Prop
  | .waiting t => W t
  | .done r t => D r t

theorem Sat.mono {W W' : State → Prop} {D D' : FrameResult → State → Prop} {p : Progress} (h : Sat W D p)
    (hW : ∀ t, W t → W' t) (hD : ∀ r t, D r t → D' r t) : Sat W' D' p := by
  cases p with
  | waiting t => exact hW t h
  | done r t => exact hD r t h

/-! ### The pieces of a transaction -/

theorem checkReply_sat (bytes : List Byte) (n : Nat) (s : State) (hn : n ≤ 3) :
    Sat (fun _ => False) (fun r t => GoodResult r ∧ t = { s with phase := .decode }) (checkReply bytes n s) := by
  unfold checkReply
  split
  · exact ⟨⟨by decide, fun _ => rfl, by decide⟩, rfl⟩
  · exact ⟨decWords_good bytes (by omega), rfl⟩

/-- A receive in progress waits where it is, or is done with a good result. -/
theorem awaitReply_sat (n : Nat) (s : State) (hn : n ≤ 3) :
    Sat (fun t => Moved s t s.txbuf [] s.phase)
      (fun r t => GoodResult r ∧ ∃ ph, Moved s t s.txbuf [] ph) (awaitReply n s) := by
  obtain ⟨d, ds, k, h⟩ := nextDraw_spec s
  unfold awaitReply
  rw [h]
  cases d with
  | stall => exact ⟨s.rxbuf, ds, k, by simp⟩
  | err => exact ⟨⟨by decide, fun _ => rfl, by decide⟩, s.phase, s.rxbuf, ds, k, by simp⟩
  | ok bytes =>
    refine (checkReply_sat bytes n _ hn).mono (fun _ h => h.elim) ?_
    rintro r t ⟨hr, rfl⟩
    exact ⟨hr, .decode, some bytes, ds, k, by simp⟩

/-- A transmit in progress waits where it is, is done with a failure, or goes on. -/
theorem awaitTx_cases (k : State → Progress) (s : State) : ∃ ds n,
    let u := { s with draws := ds, drawIndex := n }
    awaitTx k s = .waiting u ∨ awaitTx k s = .done (.fail .transportError 0) u ∨ awaitTx k s = k u := by
  obtain ⟨d, ds, n, h⟩ := nextDraw_spec s
  refine ⟨ds, n, ?_⟩
  simp only [awaitTx, h]
  cases d <;> simp

/-! ### What a transaction can do -/

/-- The progress of a transaction whose transmit is in progress or done: it waits in TX or, having issued its
receive, in RX. -/
def TxRxSat (s : State) (n : Nat) (tmo : Tmo) (b : Option (List Byte)) (acts : List Action) : Progress → Prop :=
  Sat (fun t => Moved s t b acts .tx ∨ Moved s t b (acts ++ [.rx (3 * n) tmo]) .rx)
    (fun r t => GoodResult r ∧ ∃ ph, Moved s t b acts ph ∨ Moved s t b (acts ++ [.rx (3 * n) tmo]) ph)

theorem awaitTx_receive_sat (n : Nat) (tmo : Tmo) (s : State) (hn : n ≤ 3) (hp : s.phase = .tx) :
    TxRxSat s n tmo s.txbuf [] (awaitTx (receive n tmo) s) := by
  obtain ⟨ds, k, h⟩ := awaitTx_cases (receive n tmo) s
  rcases h with h | h | h <;> rw [h]
  · exact .inl ⟨s.rxbuf, ds, k, by simp [hp]⟩
  · exact ⟨⟨by decide, fun _ => rfl, by decide⟩, .tx, .inl ⟨s.rxbuf, ds, k, by simp [hp]⟩⟩
  · refine (awaitReply_sat n _ hn).mono ?_ ?_
    · rintro t ⟨rb, ds', k', rfl⟩
      exact .inr ⟨rb, ds', k', by simp⟩
    · rintro r t ⟨hr, ph, rb, ds', k', rfl⟩
      exact ⟨hr, ph, .inr ⟨rb, ds', k', by simp⟩⟩

/-- `x_tx_rx` (R144): at most one transmit of its frame and, after it, one receive. -/
theorem xTxRx_sat (code : Word16) (n : Nat) (tmo : Tmo) (s : State) (hn : n ≤ 3) :
    TxRxSat s n tmo (some (frameCmd code)) [.tx (frameCmd code) tmo] (xTxRx code n tmo s) := by
  refine (awaitTx_receive_sat n tmo _ hn rfl).mono ?_ ?_
  · rintro t (⟨rb, ds, k, rfl⟩ | ⟨rb, ds, k, rfl⟩)
    · exact .inl ⟨rb, ds, k, by simp [issueTx]⟩
    · exact .inr ⟨rb, ds, k, by simp [issueTx]⟩
  · rintro r t ⟨hr, ph, ⟨rb, ds, k, rfl⟩ | ⟨rb, ds, k, rfl⟩⟩
    · exact ⟨hr, ph, .inl ⟨rb, ds, k, by simp [issueTx]⟩⟩
    · exact ⟨hr, ph, .inr ⟨rb, ds, k, by simp [issueTx]⟩⟩

/-- A transmit with no reply to come, in progress. -/
theorem awaitTx_done_sat (s : State) (hp : s.phase = .tx) :
    Sat (fun t => Moved s t s.txbuf [] .tx) (fun r t => GoodResult r ∧ Moved s t s.txbuf [] .tx)
      (awaitTx (.done (.ok [])) s) := by
  obtain ⟨ds, k, h⟩ := awaitTx_cases (.done (.ok [])) s
  rcases h with h | h | h <;> rw [h]
  · exact ⟨s.rxbuf, ds, k, by simp [hp]⟩
  · exact ⟨⟨by decide, fun _ => rfl, by decide⟩, s.rxbuf, ds, k, by simp [hp]⟩
  · exact ⟨trivial, s.rxbuf, ds, k, by simp [hp]⟩

/-- `x_noreply` and `x_set` (R143, R146): one transmit of the frame `f`. -/
theorem awaitTx_issue_sat (f : List Byte) (tmo : Tmo) (s : State) :
    Sat (fun t => Moved s t (some f) [.tx f tmo] .tx)
      (fun r t => GoodResult r ∧ Moved s t (some f) [.tx f tmo] .tx)
      (awaitTx (.done (.ok [])) (issueTx f tmo s)) := by
  refine (awaitTx_done_sat (issueTx f tmo s) rfl).mono ?_ ?_
  · rintro t ⟨rb, ds, k, rfl⟩
    exact ⟨rb, ds, k, by simp [issueTx]⟩
  · rintro r t ⟨hr, rb, ds, k, rfl⟩
    exact ⟨hr, rb, ds, k, by simp [issueTx]⟩

theorem xNoReply_sat (code : Word16) (tmo : Tmo) (s : State) :
    Sat (fun t => Moved s t (some (frameCmd code)) [.tx (frameCmd code) tmo] .tx)
      (fun r t => GoodResult r ∧ Moved s t (some (frameCmd code)) [.tx (frameCmd code) tmo] .tx)
      (xNoReply code tmo s) :=
  awaitTx_issue_sat (frameCmd code) tmo s

theorem xSet_sat (code v : Word16) (tmo : Tmo) (s : State) :
    Sat (fun t => Moved s t (some (frameSet code v)) [.tx (frameSet code v) tmo] .tx)
      (fun r t => GoodResult r ∧ Moved s t (some (frameSet code v)) [.tx (frameSet code v) tmo] .tx)
      (xSet code v tmo s) :=
  awaitTx_issue_sat (frameSet code v) tmo s

/-- `x_txrx` (R145): one combined call. -/
theorem xTxrx_sat (code : Word16) (n : Nat) (tmo : Tmo) (s : State) (hn : n ≤ 3) :
    Sat (fun t => Moved s t (some (frameCmd code)) [.txRx (frameCmd code) (3 * n) tmo] .txrx)
      (fun r t => GoodResult r ∧ ∃ ph, Moved s t (some (frameCmd code)) [.txRx (frameCmd code) (3 * n) tmo] ph)
      (xTxrx code n tmo s) := by
  refine (awaitReply_sat n (issueTxRx (frameCmd code) n tmo s) hn).mono ?_ ?_
  · rintro t ⟨rb, ds, k, rfl⟩
    exact ⟨rb, ds, k, by simp [issueTxRx]⟩
  · rintro r t ⟨hr, ph, rb, ds, k, rfl⟩
    exact ⟨hr, ph, rb, ds, k, by simp [issueTxRx]⟩

/-- A transaction moves its caller's state and nothing more, wherever it stands. -/
def Moves (s t : State) : Prop := ∃ b new ph, Moved s t b new ph

/-! ### The command in flight -/

@[simp] theorem inFlight_frameCmd (c : Command) (s : State) (h : s.txbuf = some (frameCmd c.code)) :
    inFlight s = some c := by
  simp [inFlight, h, frameCmd, commandOfCode_code]

@[simp] theorem inFlight_frameSet (c : Command) (v : Word16) (s : State) (h : s.txbuf = some (frameSet c.code v)) :
    inFlight s = some c := by
  simp [inFlight, h, frameSet, frameCmd, commandOfCode_code]

end Sys2Proof.Laws
end

