-- ==== Sys2Proof/Laws/Operations.lean ====
section
/-!
SUPPORT. What an operation of BUS_OPS can do to the state in one step, said once, whether it runs from its start or
goes on from a phase it was left in: a step is one transaction (`Transacts`) whose progress the operation takes as
`Continued` says, which comes down to `OpRan`. `BaseOf` is what an operation's steps before the response may change.
-/

namespace Sys2Proof.Laws

open Sys2Proof.Machine Sys2Proof.Safety

/-! ### What the steps of an operation may change -/

/-- A transport call carries the request's timeout and a catalog frame (R76, R84). -/
def GoodAction (tmo : Tmo) (a : Action) : Prop :=
  (isCall a = true → timeoutOf a = some tmo) ∧ ∀ f, sentFrame a = some f → CatalogFrame f

/-- `t` is `s` but for MODE (never back to UNINIT), UNUSABLE (never cleared), ATTEMPT, the phase, the buffers, the
outcomes still to come and new good actions. -/
def BaseOf (tmo : Tmo) (s t : State) : Prop :=
  ∃ m u a b rb ph ds n new, t = { s with
      mode := m, unusable := u, attempt := a, txbuf := b, rxbuf := rb, phase := ph
      bus := s.bus ++ new, draws := ds, drawIndex := n } ∧
    (m = s.mode ∨ m ≠ .uninit) ∧ (s.unusable = true → u = true) ∧
    (∀ x ∈ new, GoodAction tmo x) ∧ (∀ f, b = some f → s.txbuf = some f ∨ f.length ≤ 5)

theorem BaseOf.refl (tmo : Tmo) (s : State) : BaseOf tmo s s :=
  ⟨s.mode, s.unusable, s.attempt, s.txbuf, s.rxbuf, s.phase, s.draws, s.drawIndex, [], by simp, .inl rfl, id, by simp,
    fun _ h => .inl h⟩

theorem BaseOf.trans {tmo : Tmo} {s t v : State} (h : BaseOf tmo s t) (h' : BaseOf tmo t v) : BaseOf tmo s v := by
  obtain ⟨m, u, a, b, rb, ph, ds, n, new, rfl, hm, hu, hn, hb⟩ := h
  obtain ⟨m', u', a', b', rb', ph', ds', n', new', rfl, hm', hu', hn', hb'⟩ := h'
  refine ⟨m', u', a', b', rb', ph', ds', n', new ++ new', by simp, ?_, fun h => hu' (hu h), ?_, ?_⟩
  · rcases hm' with h | h
    · simpa [h] using hm
    · exact .inr h
  · intro x hx
    rcases List.mem_append.1 hx with h | h
    · exact hn x h
    · exact hn' x h
  · intro f hf
    rcases hb' f hf with h | h
    · exact hb f h
    · exact .inr h

theorem catalogFrame_cmd (c : Command) (h : c ≠ .setTempOffset) : CatalogFrame (frameCmd c.code) := by
  cases c <;> first | exact absurd rfl h | exact .inl (by decide)

theorem catalogFrame_set (v : Word16) : CatalogFrame (frameSet Command.setTempOffset.code v) := .inr ⟨v, rfl⟩

theorem goodAction_tx {f : List Byte} {tmo : Tmo} (h : CatalogFrame f) : GoodAction tmo (.tx f tmo) :=
  ⟨fun _ => rfl, fun g hg => by simp only [sentFrame, Option.some.injEq] at hg; exact hg ▸ h⟩

theorem goodAction_txRx {f : List Byte} {n : Nat} {tmo : Tmo} (h : CatalogFrame f) : GoodAction tmo (.txRx f n tmo) :=
  ⟨fun _ => rfl, fun g hg => by simp only [sentFrame, Option.some.injEq] at hg; exact hg ▸ h⟩

theorem goodAction_rx {n : Nat} {tmo : Tmo} : GoodAction tmo (.rx n tmo) := ⟨fun _ => rfl, fun _ h => by cases h⟩

theorem goodAction_wait {p : WaitParam} {tmo : Tmo} : GoodAction tmo (.wait p) :=
  ⟨fun h => by simp [isCall] at h, fun _ h => by simp [sentFrame] at h⟩

theorem catalogFrame_length {f : List Byte} (h : CatalogFrame f) : f.length ≤ 5 := by
  rcases h with h | ⟨v, rfl⟩
  · simp at h; rcases h with rfl | rfl | rfl | rfl | rfl <;> simp
  · simp

theorem Moved.baseOf {s t : State} {tmo : Tmo} {b : Option (List Byte)} {new : List Action} {ph : Phase}
    (h : Moved s t b new ph) (hn : ∀ x ∈ new, GoodAction tmo x)
    (hb : ∀ f, b = some f → s.txbuf = some f ∨ f.length ≤ 5) : BaseOf tmo s t := by
  obtain ⟨rb, ds, n, rfl⟩ := h
  exact ⟨s.mode, s.unusable, s.attempt, b, rb, ph, ds, n, new, rfl, .inl rfl, id, hn, hb⟩

theorem Moved.phase_eq {s t : State} {b : Option (List Byte)} {new : List Action} {ph : Phase}
    (h : Moved s t b new ph) : t.phase = ph := by obtain ⟨rb, ds, n, rfl⟩ := h; rfl

theorem Moved.txbuf_eq {s t : State} {b : Option (List Byte)} {new : List Action} {ph : Phase}
    (h : Moved s t b new ph) : t.txbuf = b := by obtain ⟨rb, ds, n, rfl⟩ := h; rfl

theorem Moves.frame {s t : State} (h : Moves s t) : FramerFrame s t := by
  obtain ⟨b, new, ph, rb, ds, n, rfl⟩ := h; constructor <;> rfl

theorem inFlight_congr {s t : State} (h : s.txbuf = t.txbuf) : inFlight s = inFlight t := by simp [inFlight, h]

/-! ### A transaction and what it has still to do -/

/-- The phases in which a call of command `c` is in flight (R30, R142). -/
def CallPhase (c : Command) (ph : Phase) : Prop :=
  match commandShape c with
  | .noReply => ph = .tx
  | .set => ph = .tx
  | .txRx _ => ph = .tx ∨ ph = .rx
  | .txrx _ => ph = .txrx

/-- The calls that follow the one in flight. -/
def later (c : Command) (ph : Phase) (tmo : Tmo) : List Action :=
  match ph, commandShape c with
  | .tx, .txRx n => [.rx (3 * n) tmo]
  | _, _ => []

/-- A transaction of command `c` from state `s` that has the calls `acts` to make: it waits in a call with the calls
after that one still to make, or it is done and has left some of them out. Its result is good if `H`: only a value
that the framer had handed over before (the model's own field `framerResult`) need not be. -/
def Transacts (H : Prop) (c : Command) (tmo : Tmo) (s : State) (acts : List Action) (p : Progress) : Prop :=
  (∀ x ∈ acts, GoodAction tmo x) ∧ ∃ b,
    (∀ u : State, u.txbuf = b → inFlight u = some c) ∧ (∀ f, b = some f → s.txbuf = some f ∨ f.length ≤ 5) ∧
    Sat (fun t => ∃ new ph, CallPhase c ph ∧ acts = new ++ later c ph tmo ∧ Moved s t b new ph)
      (fun r t => (H → GoodResult r) ∧ ∃ new rest ph, acts = new ++ rest ∧ Moved s t b new ph) p

theorem Transacts.moves {H : Prop} {c : Command} {tmo : Tmo} {s : State} {acts : List Action} {p : Progress}
    (h : Transacts H c tmo s acts p) : Sat (Moves s) (fun _ t => Moves s t) p := by
  obtain ⟨_, b, _, _, hp⟩ := h
  exact hp.mono (fun _ ⟨new, ph, _, _, h⟩ => ⟨b, new, ph, h⟩) (fun _ _ ⟨_, new, _, ph, _, h⟩ => ⟨b, new, ph, h⟩)

theorem transacts_frame {H : Prop} {c : Command} {tmo : Tmo} {s : State} {f : List Byte} {acts : List Action} {p : Progress}
    (hf : CatalogFrame f) (hc : ∀ u : State, u.txbuf = some f → inFlight u = some c)
    (ha : ∀ x ∈ acts, GoodAction tmo x)
    (hp : Sat (fun t => ∃ new ph, CallPhase c ph ∧ acts = new ++ later c ph tmo ∧ Moved s t (some f) new ph)
      (fun r t => (H → GoodResult r) ∧ ∃ new rest ph, acts = new ++ rest ∧ Moved s t (some f) new ph) p) :
    Transacts H c tmo s acts p :=
  ⟨ha, some f, hc, fun g h => by cases h; exact .inr (catalogFrame_length hf), hp⟩

theorem xTxRx_transacts {H : Prop} (c : Command) (hc : commandShape c = .txRx 3) (tmo : Tmo) (s : State) :
    Transacts H c tmo s [.tx (frameCmd c.code) tmo, .rx 9 tmo] (xTxRx c.code 3 tmo s) := by
  have hf : CatalogFrame (frameCmd c.code) := catalogFrame_cmd c (by rintro rfl; cases hc)
  refine transacts_frame hf (fun u h => inFlight_frameCmd c u h) (by simp [goodAction_tx hf, goodAction_rx]) ?_
  refine (xTxRx_sat c.code 3 tmo s (by decide)).mono ?_ ?_
  · rintro t (h | h)
    · exact ⟨_, .tx, by simp [CallPhase, hc], by simp [later, hc], h⟩
    · exact ⟨_, .rx, by simp [CallPhase, hc], by simp [later], h⟩
  · rintro r t ⟨hr, ph, h | h⟩
    · exact ⟨fun _ => hr, _, [.rx 9 tmo], ph, rfl, h⟩
    · exact ⟨fun _ => hr, _, [], ph, rfl, h⟩

theorem tx_transacts {H : Prop} {c : Command} {tmo : Tmo} {s : State} {f : List Byte} {p : Progress} (hf : CatalogFrame f)
    (hc : ∀ u : State, u.txbuf = some f → inFlight u = some c)
    (hs : commandShape c = .noReply ∨ commandShape c = .set)
    (hp : Sat (fun t => Moved s t (some f) [.tx f tmo] .tx)
      (fun r t => GoodResult r ∧ Moved s t (some f) [.tx f tmo] .tx) p) : Transacts H c tmo s [.tx f tmo] p := by
  refine transacts_frame hf hc (by simp [goodAction_tx hf]) (hp.mono ?_ ?_)
  · intro t h
    exact ⟨_, .tx, by rcases hs with hs | hs <;> simp [CallPhase, hs], by rcases hs with hs | hs <;> simp [later, hs], h⟩
  · rintro r t ⟨hr, h⟩; exact ⟨fun _ => hr, _, [], .tx, rfl, h⟩

theorem xNoReply_transacts {H : Prop} (c : Command) (hc : commandShape c = .noReply) (tmo : Tmo) (s : State) :
    Transacts H c tmo s [.tx (frameCmd c.code) tmo] (xNoReply c.code tmo s) :=
  tx_transacts (catalogFrame_cmd c (by rintro rfl; cases hc)) (fun u h => inFlight_frameCmd c u h) (.inl hc)
    (xNoReply_sat c.code tmo s)

theorem xSet_transacts {H : Prop} (v : Word16) (tmo : Tmo) (s : State) :
    Transacts H .setTempOffset tmo s [.tx (frameSet Command.setTempOffset.code v) tmo]
      (xSet Command.setTempOffset.code v tmo s) :=
  tx_transacts (catalogFrame_set v) (fun u h => inFlight_frameSet .setTempOffset v u h) (.inr rfl)
    (xSet_sat Command.setTempOffset.code v tmo s)

theorem xTxrx_transacts {H : Prop} (tmo : Tmo) (s : State) :
    Transacts H .getTempOffset tmo s [.txRx (frameCmd Command.getTempOffset.code) 3 tmo]
      (xTxrx Command.getTempOffset.code 1 tmo s) := by
  have hf : CatalogFrame (frameCmd Command.getTempOffset.code) := catalogFrame_cmd _ (by decide)
  refine transacts_frame hf (fun u h => inFlight_frameCmd .getTempOffset u h) (by simp [goodAction_txRx hf]) ?_
  refine (xTxrx_sat Command.getTempOffset.code 1 tmo s (by decide)).mono ?_ ?_
  · intro t h; exact ⟨_, .txrx, rfl, rfl, h⟩
  · rintro r t ⟨hr, ph, h⟩; exact ⟨fun _ => hr, _, [], ph, rfl, h⟩

/-- The rest of a transaction left in progress is a transaction that makes the later calls only. -/
theorem finishTransaction_transacts {H : Prop} {c : Command} {tmo : Tmo} {s : State} {p : Progress} (hc : inFlight s = some c)
    (h : finishTransaction c tmo s = .ok p) : Transacts H c tmo s (later c s.phase tmo) p := by
  have hi : ∀ u : State, u.txbuf = s.txbuf → inFlight u = some c := fun u hu => (inFlight_congr hu).trans hc
  have hb : ∀ f, s.txbuf = some f → s.txbuf = some f ∨ f.length ≤ 5 := fun _ h => .inl h
  have ha : ∀ x ∈ later c s.phase tmo, GoodAction tmo x := by
    unfold later; split
    · simp [goodAction_rx]
    · simp
  refine ⟨ha, s.txbuf, hi, hb, ?_⟩
  have shape3 : ∀ n, commandShape c = .txRx n → n = 3 := by intro n; cases c <;> simp [commandShape, eq_comm]
  have shape1 : ∀ n, commandShape c = .txrx n → n = 1 := by intro n; cases c <;> simp [commandShape, eq_comm]
  have done : (commandShape c = .noReply ∨ commandShape c = .set) → s.phase = .tx →
      Sat (fun t => ∃ new ph, CallPhase c ph ∧ later c s.phase tmo = new ++ later c ph tmo ∧ Moved s t s.txbuf new ph)
        (fun r t => (H → GoodResult r) ∧ ∃ new rest ph, later c s.phase tmo = new ++ rest ∧ Moved s t s.txbuf new ph)
        (awaitTx (.done (.ok [])) s) := by
    intro hs hp
    refine (awaitTx_done_sat s hp).mono ?_ ?_
    · intro t h
      exact ⟨[], .tx, by rcases hs with hs | hs <;> simp [CallPhase, hs], by rw [hp]; rfl, h⟩
    · rintro r t ⟨hr, h⟩; exact ⟨fun _ => hr, [], _, .tx, rfl, h⟩
  unfold finishTransaction at h
  split at h
  · rename_i hp
    split at h <;> cases h
    · rename_i hs; exact done (.inl hs) hp
    · rename_i hs; exact done (.inr hs) hp
    · rename_i n hs
      obtain rfl := shape3 n hs
      refine (awaitTx_receive_sat 3 tmo s (by decide) hp).mono ?_ ?_
      · rintro t (h | h)
        · exact ⟨[], .tx, by simp [CallPhase, hs], by rw [hp]; rfl, h⟩
        · exact ⟨[.rx 9 tmo], .rx, by simp [CallPhase, hs], by simp [later, hp, hs], h⟩
      · rintro r t ⟨hr, ph, h | h⟩
        · exact ⟨fun _ => hr, [], _, ph, rfl, h⟩
        · exact ⟨fun _ => hr, [.rx 9 tmo], [], ph, by simp [later, hp, hs], h⟩
  · rename_i hp
    split at h <;> cases h
    rename_i n hs
    obtain rfl := shape3 n hs
    refine (awaitReply_sat 3 s (by decide)).mono ?_ ?_
    · intro t h; exact ⟨[], .rx, by simp [CallPhase, hs], by rw [hp]; rfl, hp ▸ h⟩
    · rintro r t ⟨hr, ph, h⟩; exact ⟨fun _ => hr, [], _, ph, rfl, h⟩
  · rename_i hp
    split at h <;> cases h
    rename_i n hs
    obtain rfl := shape1 n hs
    refine (awaitReply_sat 1 s (by decide)).mono ?_ ?_
    · intro t h; exact ⟨[], .txrx, by simp [CallPhase, hs], by rw [hp]; rfl, hp ▸ h⟩
    · rintro r t ⟨hr, ph, h⟩; exact ⟨fun _ => hr, [], _, ph, rfl, h⟩
  · split at h <;> cases h
    refine (checkReply_sat _ _ s (by cases c <;> decide)).mono (fun _ h => h.elim) ?_
    rintro r t ⟨hr, rfl⟩
    exact ⟨fun _ => hr, [], _, .decode, rfl, s.rxbuf, s.draws, s.drawIndex, by simp⟩
  · cases h

/-- A value that the framer has handed over is a transaction with nothing left to do. -/
theorem takes_transacts {c : Command} {tmo : Tmo} {s : State} {r : FrameResult} (hc : inFlight s = some c) :
    Transacts (GoodResult r) c tmo s [] (.done r s) :=
  ⟨by simp, s.txbuf, fun _ hu => (inFlight_congr hu).trans hc, fun _ h => .inl h, id, [], [], s.phase, rfl, s.rxbuf,
    s.draws, s.drawIndex, by simp⟩

/-! ### What an operation's step leaves -/

/-- The state `u` that a transaction of command `c` reached from `s` when it had made all its calls but `rest`. -/
def Reached (c : Command) (tmo : Tmo) (s : State) (acts rest : List Action) (u : State) (ph : Phase) : Prop :=
  ∃ b new, acts = new ++ rest ∧ Moved s u b new ph ∧ (∀ x ∈ new, GoodAction tmo x) ∧
    (∀ f, b = some f → s.txbuf = some f ∨ f.length ≤ 5) ∧ inFlight u = some c

theorem Reached.baseOf {c : Command} {tmo : Tmo} {s u : State} {acts rest : List Action} {ph : Phase}
    (h : Reached c tmo s acts rest u ph) : BaseOf tmo s u := by
  obtain ⟨b, new, _, hm, hn, hb, _⟩ := h
  exact hm.baseOf hn hb

theorem Transacts.sat {H : Prop} {c : Command} {tmo : Tmo} {s : State} {acts : List Action} {p : Progress}
    (h : Transacts H c tmo s acts p) :
    Sat (fun t => ∃ ph, CallPhase c ph ∧ Reached c tmo s acts (later c ph tmo) t ph)
      (fun r t => (H → GoodResult r) ∧ ∃ rest ph, Reached c tmo s acts rest t ph) p := by
  obtain ⟨ha, b, hc, hb, hp⟩ := h
  refine hp.mono ?_ ?_
  · rintro t ⟨new, ph, hph, rfl, h⟩
    exact ⟨ph, hph, b, new, rfl, h, fun x hx => ha x (List.mem_append_left _ hx), hb, hc t h.txbuf_eq⟩
  · rintro r t ⟨hr, new, rest, ph, rfl, h⟩
    exact ⟨hr, rest, ph, b, new, rfl, h, fun x hx => ha x (List.mem_append_left _ hx), hb, hc t h.txbuf_eq⟩

/-- MODE when an operation other than CHECK_IDENTITY's stop ends with this status (R165 to R170, R172). -/
def endMode (i : Instr) (st : Status) (m : Mode) : Mode :=
  match i with
  | .startPeriodic => if st = .ok then .periodic else m
  | .stopPeriodic => if st = .ok then .ready else m
  | _ => m

/-- Everything an operation does with the progress of a transaction of command `c` that ran with ATTEMPT `a`: it
waits in a call; it responds, and of the failures only the retry's sets UNUSABLE; or, CHECK_IDENTITY alone, it begins a
settle wait: the first after a failed first identify, the second after the stop, which may have written MODE. -/
inductive Continued (H : Prop) (i : Instr) (c : Command) (a : Bool) (tmo : Tmo) (s : State) (acts : List Action)
    (t : State) : Prop where
  | waits (ph : Phase) (hph : CallPhase c ph) (hr : Reached c tmo s acts (later c ph tmo) t ph)
  | responds (u : State) (rest : List Action) (ph : Phase) (hu : Reached c tmo s acts rest u ph) (m : Mode) (x : Bool)
      (st : Status) (k : BitVec 2) (d : Word48) (hg : H → GoodResponse ⟨st, k, d⟩) (hm : m = s.mode ∨ m ≠ .uninit)
      (hme : H → m = endMode i st s.mode) (hx : x = s.unusable ∨ (i = .checkIdentity ∧ a = true ∧ x = true))
      (ht : t = respond st k d { u with mode := m, unusable := x })
  | settles1 (u : State) (rest : List Action) (ph : Phase) (hu : Reached c tmo s acts rest u ph)
      (hi : i = .checkIdentity) (hc : c ≠ .stopPeriodic) (ha : a = false) (ht : t = settle .settle1 u)
  | settles2 (u : State) (rest : List Action) (ph : Phase) (hu : Reached c tmo s acts rest u ph)
      (hi : i = .checkIdentity) (hc : c = .stopPeriodic) (m : Mode) (hm : m = s.mode ∨ m = .ready)
      (ht : t = settle .settle2 { u with mode := m })

theorem Reached.moves {c : Command} {tmo : Tmo} {s u : State} {acts rest : List Action} {ph : Phase}
    (h : Reached c tmo s acts rest u ph) : Moves s u := by
  obtain ⟨b, new, _, hm, _⟩ := h; exact ⟨b, new, ph, hm⟩

theorem Reached.phase_eq {c : Command} {tmo : Tmo} {s u : State} {acts rest : List Action} {ph : Phase}
    (h : Reached c tmo s acts rest u ph) : u.phase = ph := by
  obtain ⟨_, _, _, hm, _⟩ := h; exact hm.phase_eq

theorem Reached.mode {c : Command} {tmo : Tmo} {s u : State} {acts rest : List Action} {ph : Phase}
    (h : Reached c tmo s acts rest u ph) : u.mode = s.mode := h.moves.frame.mode

theorem Reached.unusable {c : Command} {tmo : Tmo} {s u : State} {acts rest : List Action} {ph : Phase}
    (h : Reached c tmo s acts rest u ph) : u.unusable = s.unusable := h.moves.frame.unusable

theorem goodResponse_fail {st : Status} {k : BitVec 2} (h : GoodResult (.fail st k)) : GoodResponse ⟨st, k, 0⟩ :=
  ⟨fun _ => rfl, h.2.1, h.2.2⟩

theorem goodResponse_ok (d : Word48) : GoodResponse ⟨.ok, 0, d⟩ :=
  ⟨fun h => absurd rfl h, fun _ => rfl, (by decide : (0 : BitVec 2) ≠ 3)⟩

/-- An operation with a reply, and the retry's success: a response that writes neither MODE nor UNUSABLE. -/
theorem Continued.plain {H : Prop} {i : Instr} {c : Command} {a : Bool} {tmo : Tmo} {s u : State}
    {acts rest : List Action} {ph : Phase} {st : Status} {k : BitVec 2} {d : Word48}
    (hu : Reached c tmo s acts rest u ph) (hg : H → GoodResponse ⟨st, k, d⟩) (hme : H → endMode i st s.mode = s.mode) :
    Continued H i c a tmo s acts (respond st k d u) :=
  .responds u rest ph hu u.mode u.unusable st k d hg (.inl hu.mode) (fun h => hu.mode.trans (hme h).symm)
    (.inl hu.unusable) rfl

theorem endRead_continued {H : Prop} {i : Instr} {c : Command} {a : Bool} {tmo : Tmo} {s : State} {acts : List Action}
    {p : Progress} (hi : ∀ st m, endMode i st m = m) (h : Transacts H c tmo s acts p) :
    Continued H i c a tmo s acts (endRead p) := by
  have h := h.sat
  cases p with
  | waiting t => obtain ⟨ph, hph, hr⟩ := h; exact .waits ph hph hr
  | done r t =>
    obtain ⟨hr, rest, ph, hu⟩ := h
    cases r with
    | ok ws => exact .plain hu (fun _ => goodResponse_ok _) (fun _ => hi _ _)
    | fail st k => exact .plain hu (fun g => goodResponse_fail (hr g)) (fun _ => hi _ _)

theorem endSend_continued {H : Prop} {i : Instr} {c : Command} {a : Bool} {tmo : Tmo} {s : State} {acts : List Action}
    {p : Progress} (f : Mode → Mode) (hf : ∀ m, f m = m ∨ f m ≠ .uninit) (hok : ∀ m, endMode i .ok m = f m)
    (hfail : ∀ st m, st ≠ .ok → endMode i st m = m) (h : Transacts H c tmo s acts p) :
    Continued H i c a tmo s acts (endSend f p) := by
  have h := h.sat
  cases p with
  | waiting t => obtain ⟨ph, hph, hr⟩ := h; exact .waits ph hph hr
  | done r t =>
    obtain ⟨hr, rest, ph, hu⟩ := h
    cases r with
    | ok ws =>
      exact .responds t rest ph hu (f t.mode) t.unusable .ok 0 0 (fun _ => goodResponse_ok _) (hu.mode ▸ hf t.mode)
        (fun _ => by rw [hu.mode, hok]) (.inl hu.unusable) rfl
    | fail st k => exact .plain hu (fun g => goodResponse_fail (hr g)) (fun g => hfail _ _ (hr g).1)

theorem afterRetry_continued {H : Prop} {c : Command} {tmo : Tmo} {s : State} {acts : List Action} {p : Progress}
    (h : Transacts H c tmo s acts p) : Continued H .checkIdentity c true tmo s acts (afterRetry p) := by
  have h := h.sat
  cases p with
  | waiting t => obtain ⟨ph, hph, hr⟩ := h; exact .waits ph hph hr
  | done r t =>
    obtain ⟨hr, rest, ph, hu⟩ := h
    cases r with
    | ok ws => exact .plain hu (fun _ => goodResponse_ok _) (fun _ => rfl)
    | fail st k =>
      exact .responds t rest ph hu t.mode true st k 0 (fun g => goodResponse_fail (hr g)) (.inl hu.mode)
        (fun _ => hu.mode) (.inr ⟨rfl, rfl, rfl⟩) rfl

theorem afterStop_continued {H : Prop} {a : Bool} {tmo : Tmo} {s : State} {acts : List Action} {p : Progress}
    (h : Transacts H .stopPeriodic tmo s acts p) :
    Continued H .checkIdentity .stopPeriodic a tmo s acts (afterStop p) := by
  have h := h.sat
  cases p with
  | waiting t => obtain ⟨ph, hph, hr⟩ := h; exact .waits ph hph hr
  | done r t =>
    obtain ⟨_, rest, ph, hu⟩ := h
    cases r with
    | ok ws => exact .settles2 t rest ph hu rfl rfl .ready (.inr rfl) rfl
    | fail st k => exact .settles2 t rest ph hu rfl rfl t.mode (.inl hu.mode) rfl

theorem afterFirst_continued {H : Prop} {c : Command} {tmo : Tmo} {s : State} {acts : List Action} {p : Progress}
    (hc : c ≠ .stopPeriodic) (h : Transacts H c tmo s acts p) :
    Continued H .checkIdentity c false tmo s acts (afterFirst p) := by
  have h := h.sat
  cases p with
  | waiting t => obtain ⟨ph, hph, hr⟩ := h; exact .waits ph hph hr
  | done r t =>
    obtain ⟨hr, rest, ph, hu⟩ := h
    cases r with
    | ok ws => exact .plain hu (fun _ => goodResponse_ok _) (fun _ => rfl)
    | fail st k => exact .settles1 t rest ph hu rfl hc rfl rfl

/-- What an operation does with the progress of its transaction. -/
theorem continueOp_cases {H : Prop} {i : Instr} {c : Command} {a : Bool} {tmo : Tmo} {s t : State}
    {acts : List Action} {p : Progress} (h : Transacts H c tmo s acts p) (ht : continueOp i c a p = .next t) :
    Continued H i c a tmo s acts t := by
  cases i <;> simp only [continueOp] at ht <;> cases ht
  · exact endRead_continued (fun _ _ => rfl) h
  · split
    · rename_i hc; subst hc; exact afterStop_continued h
    · rename_i hc
      split
      · rename_i ha; subst ha; exact afterRetry_continued h
      · rename_i ha; obtain rfl := eq_false_of_ne_true ha; exact afterFirst_continued hc h
  · exact endSend_continued _ (fun _ => .inr (by decide)) (fun _ => rfl) (fun _ _ h => if_neg h) h
  · exact endSend_continued _ (fun _ => .inr (by decide)) (fun _ => rfl) (fun _ _ h => if_neg h) h
  · exact endRead_continued (fun _ _ => rfl) h
  · exact endSend_continued _ (fun _ => .inl rfl) (fun _ => rfl) (fun _ _ _ => rfl) h
  · exact endRead_continued (fun _ _ => rfl) h

/-- What is true of every step of an operation: it still waits, with no response, or it has responded. -/
def OpRan (H : Prop) (tmo : Tmo) (s t : State) : Prop :=
  (BaseOf tmo s t ∧ t.phase ≠ .idle) ∨
  ∃ st k d u, BaseOf tmo s u ∧ (H → GoodResponse ⟨st, k, d⟩) ∧ t = respond st k d u

theorem OpRan.from {H : Prop} {tmo : Tmo} {s u t : State} (h : BaseOf tmo s u) (ht : OpRan H tmo u t) :
    OpRan H tmo s t := by
  rcases ht with ⟨hb, hw⟩ | ⟨st, k, d, v, hb, hr, rfl⟩
  · exact .inl ⟨h.trans hb, hw⟩
  · exact .inr ⟨st, k, d, v, h.trans hb, hr, rfl⟩

theorem baseOf_end (tmo : Tmo) (s : State) (m : Mode) (x : Bool) (hm : m = s.mode ∨ m ≠ .uninit)
    (hx : s.unusable = true → x = true) : BaseOf tmo s { s with mode := m, unusable := x } :=
  ⟨m, x, s.attempt, s.txbuf, s.rxbuf, s.phase, s.draws, s.drawIndex, [], by simp, hm, hx, by simp, fun _ h => .inl h⟩

theorem baseOf_enter (tmo : Tmo) (s : State) (ph : Phase) (a : Bool) : BaseOf tmo s { s with phase := ph, attempt := a } :=
  ⟨s.mode, s.unusable, a, s.txbuf, s.rxbuf, ph, s.draws, s.drawIndex, [], by simp, .inl rfl, id, by simp,
    fun _ h => .inl h⟩

theorem baseOf_settle (tmo : Tmo) (s : State) (ph : Phase) : BaseOf tmo s (settle ph s) :=
  ⟨s.mode, s.unusable, s.attempt, s.txbuf, s.rxbuf, ph, s.draws, s.drawIndex, [.wait .settleWait], rfl, .inl rfl, id,
    by simp [goodAction_wait], fun _ h => .inl h⟩

theorem callPhase_ne_idle {c : Command} {ph : Phase} (h : CallPhase c ph) : ph ≠ .idle := by
  rintro rfl; cases c <;> simp [CallPhase, commandShape] at h

theorem Continued.ran {H : Prop} {i : Instr} {c : Command} {a : Bool} {tmo : Tmo} {s t : State} {acts : List Action}
    (h : Continued H i c a tmo s acts t) : OpRan H tmo s t := by
  cases h with
  | waits ph hph hr => exact .inl ⟨hr.baseOf, hr.phase_eq ▸ callPhase_ne_idle hph⟩
  | responds u rest ph hu m x st k d hg hm hme hx ht =>
    refine .inr ⟨st, k, d, _, hu.baseOf.trans (baseOf_end tmo u m x (by rwa [hu.mode]) ?_), hg, ht⟩
    rw [hu.unusable]
    rcases hx with rfl | ⟨_, _, rfl⟩
    · exact id
    · exact fun _ => rfl
  | settles1 u rest ph hu hi hc ha ht =>
    subst ht; exact .inl ⟨hu.baseOf.trans (baseOf_settle tmo u _), (by decide : Phase.settle1 ≠ .idle)⟩
  | settles2 u rest ph hu hi hc m hm ht =>
    subst ht
    have hm' : m = u.mode ∨ m ≠ .uninit := hm.imp (·.trans hu.mode.symm) (fun h => (by rw [h]; decide))
    exact .inl ⟨(hu.baseOf.trans (baseOf_end tmo u m u.unusable hm' id)).trans (baseOf_settle tmo _ _),
      (by decide : Phase.settle2 ≠ .idle)⟩

/-- An operation of BUS_OPS always takes the progress of its transaction. -/
theorem continueOp_next {i : Instr} (hi : busOps i = true) (c : Command) (a : Bool) (p : Progress) :
    ∃ t, continueOp i c a p = .next t := by
  cases i <;> first | exact ⟨_, rfl⟩ | exact Bool.noConfusion hi

/-! ### The operations -/

/-- The first transaction of an operation has the calls of its plan up to the first wait to make. -/
def firstCalls (tmo : Tmo) (i : Instr) : List Action := (plan tmo i).takeWhile isCall

/-- The first command an operation sends. -/
def firstCommand (i : Instr) : Command := (sends i).headD .getSerial

theorem firstCommand_mem {i : Instr} (hi : busOps i = true) : firstCommand i ∈ sends i := by
  cases i <;> first | exact List.mem_cons_self .. | exact Bool.noConfusion hi

/-- The state in which an operation of BUS_OPS makes its first call: CHECK_IDENTITY has set ATTEMPT to 0 (R200). -/
def entered (i : Instr) (s : State) : State :=
  { s with attempt := if i = .checkIdentity then false else s.attempt }

theorem exec_busOp_uninit (i : Instr) (s : State) (hi : busOps i = true) (hm : s.mode = .uninit) :
    exec i s = .next (raise .stateError 0 s) := by
  have hbus : ∀ body, busOp s body = .next (raise .stateError 0 s) := by intro body; simp [busOp, hm]
  cases i <;> first | exact hbus _ | exact Bool.noConfusion hi

/-- An operation of BUS_OPS outside UNINIT is its first transaction, whose progress it takes. -/
theorem exec_busOp_step (i : Instr) (tmo : Tmo) (s : State) (hi : busOps i = true) (hm : s.mode ≠ .uninit)
    (ht : s.tmo = some tmo) : ∃ p, Transacts True (firstCommand i) tmo (entered i s) (firstCalls tmo i) p ∧
      exec i s = continueOp i (firstCommand i) false p := by
  have hbus : ∀ body, busOp s body = .next (body tmo s) := by intro body; simp [busOp, hm, withTmo, ht]
  cases i
  case identify => exact ⟨_, xTxRx_transacts .getSerial rfl tmo s, hbus _⟩
  case checkIdentity => exact ⟨_, xTxRx_transacts .getSerial rfl tmo _, hbus _⟩
  case startPeriodic => exact ⟨_, xNoReply_transacts .startPeriodic rfl tmo s, hbus _⟩
  case stopPeriodic => exact ⟨_, xNoReply_transacts .stopPeriodic rfl tmo s, hbus _⟩
  case readSample => exact ⟨_, xTxRx_transacts .readMeasurement rfl tmo s, hbus _⟩
  case setTempOffset v => exact ⟨_, xSet_transacts v tmo s, hbus _⟩
  case getTempOffset => exact ⟨_, xTxrx_transacts tmo s, hbus _⟩
  all_goals exact Bool.noConfusion hi

theorem exec_busOp_cases (i : Instr) (tmo : Tmo) (s : State) (hi : busOps i = true) (hm : s.mode ≠ .uninit)
    (ht : s.tmo = some tmo) :
    ∃ t, exec i s = .next t ∧ Continued True i (firstCommand i) false tmo (entered i s) (firstCalls tmo i) t := by
  obtain ⟨p, hp, he⟩ := exec_busOp_step i tmo s hi hm ht
  obtain ⟨t, hc⟩ := continueOp_next hi (firstCommand i) false p
  exact ⟨t, he.trans hc, continueOp_cases hp hc⟩

/-- The defensive stop that follows the first settle wait (R200). -/
theorem innerStop_cases (tmo : Tmo) (s : State) :
    Continued True .checkIdentity .stopPeriodic s.attempt tmo { s with phase := .stop } [.tx [0x3F, 0x86] tmo]
      (innerStop tmo s) :=
  afterStop_continued (xNoReply_transacts .stopPeriodic rfl tmo _)

/-- The retry that follows the second settle wait (R200). -/
theorem retryIdentify_cases (tmo : Tmo) (s : State) :
    Continued True .checkIdentity .getSerial true tmo { s with phase := .retry, attempt := true }
      [.tx [0x36, 0x82] tmo, .rx 9 tmo] (retryIdentify tmo s) :=
  afterRetry_continued (xTxRx_transacts .getSerial rfl tmo _)

end Sys2Proof.Laws
end

