-- ==== Sys2Proof/Laws/PerInstr.lean ====
section
/-!
SUPPORT. Per instruction: decoding its encoding gives it back (R70, R73, R83), with every operand.
-/

open Sys2Proof Sys2Proof.Laws

/-- Decoding the encoding of `i` gives `i`. -/
def Sys2Proof.Laws.RoundTrip.Statement (i : Instr) : Prop := decode (encode i) = .ok i

/-- A request whose operand is the low 16 bits of the word. -/
theorem Sys2Proof.Laws.selectRow_raw16 (op : BitVec 4) (v : Word16) (i : Instr) :
    selectRow (requestWord op (0#8 ++ v)) (requestWord op 0) 0xFFFF0000 i = .ok i := by
  have := v.isLt
  rw [selectRow_16, if_pos]
  rw [requestWord_toNat, requestWord_toNat, BitVec.toNat_append]; simp; omega

theorem Sys2Proof.Laws.RoundTrip.attach : RoundTrip.Statement .attach := by unfold RoundTrip.Statement; decide
theorem Sys2Proof.Laws.RoundTrip.identify : RoundTrip.Statement .identify := by unfold RoundTrip.Statement; decide
theorem Sys2Proof.Laws.RoundTrip.checkIdentity : RoundTrip.Statement .checkIdentity := by unfold RoundTrip.Statement; decide
theorem Sys2Proof.Laws.RoundTrip.startPeriodic : RoundTrip.Statement .startPeriodic := by unfold RoundTrip.Statement; decide
theorem Sys2Proof.Laws.RoundTrip.stopPeriodic : RoundTrip.Statement .stopPeriodic := by unfold RoundTrip.Statement; decide
theorem Sys2Proof.Laws.RoundTrip.readSample : RoundTrip.Statement .readSample := by unfold RoundTrip.Statement; decide
theorem Sys2Proof.Laws.RoundTrip.setTempOffset (raw16 : Word16) : RoundTrip.Statement (.setTempOffset raw16) := by
  simp only [RoundTrip.Statement, encode, decode, decodeRequest, requestWord_op]
  show selectRow _ _ _ _ = _
  rw [requestWord_raw16]; exact selectRow_raw16 0x7 raw16 _

theorem Sys2Proof.Laws.RoundTrip.getTempOffset : RoundTrip.Statement .getTempOffset := by unfold RoundTrip.Statement; decide
theorem Sys2Proof.Laws.RoundTrip.crcInit : RoundTrip.Statement .crcInit := by unfold RoundTrip.Statement; decide
theorem Sys2Proof.Laws.RoundTrip.crcFeed (b8 : Byte) : RoundTrip.Statement (.crcFeed b8) := by
  have := b8.isLt
  simp only [RoundTrip.Statement, encode, decode, decodeRequest, requestWord_op]
  show selectRow _ _ _ _ = _
  rw [selectRow_8, requestWord_b8, if_pos]
  rw [requestWord_toNat, BitVec.toNat_append]; simp; omega

theorem Sys2Proof.Laws.RoundTrip.encodeWord (raw16 : Word16) : RoundTrip.Statement (.encodeWord raw16) := by
  simp only [RoundTrip.Statement, encode, decode, decodeRequest, requestWord_op]
  show selectRow _ _ _ _ = _
  rw [requestWord_raw16]; exact selectRow_raw16 0xB raw16 _

theorem Sys2Proof.Laws.RoundTrip.decodeWord (chunk : Word24) : RoundTrip.Statement (.decodeWord chunk) := by
  have := chunk.isLt
  simp only [RoundTrip.Statement, encode, decode, decodeRequest, requestWord_op]
  show selectRow _ _ _ _ = _
  rw [selectRow_24, requestWord_opd, if_pos]
  rw [requestWord_toNat]; simp; omega

theorem Sys2Proof.Laws.RoundTrip.readStatus : RoundTrip.Statement .readStatus := by unfold RoundTrip.Statement; decide
theorem Sys2Proof.Laws.RoundTrip.cmdGetSerial : RoundTrip.Statement .cmdGetSerial := by unfold RoundTrip.Statement; decide
theorem Sys2Proof.Laws.RoundTrip.cmdStartPeriodic : RoundTrip.Statement .cmdStartPeriodic := by unfold RoundTrip.Statement; decide
theorem Sys2Proof.Laws.RoundTrip.cmdStopPeriodic : RoundTrip.Statement .cmdStopPeriodic := by unfold RoundTrip.Statement; decide
theorem Sys2Proof.Laws.RoundTrip.cmdReadMeasurement : RoundTrip.Statement .cmdReadMeasurement := by unfold RoundTrip.Statement; decide
theorem Sys2Proof.Laws.RoundTrip.cmdSetTempOffset (out : Word16) : RoundTrip.Statement (.cmdSetTempOffset out) := by
  simp [RoundTrip.Statement, encode, decode, decodeCommand, commandOfCode_code]

theorem Sys2Proof.Laws.RoundTrip.cmdGetTempOffset : RoundTrip.Statement .cmdGetTempOffset := by unfold RoundTrip.Statement; decide
end

