-- ==== Sys2Proof/Laws/Step.lean ====
section
/-!
SUPPORT. What a step finds to do, said once (`FetchCase`), what an instruction can then leave (`exec_cases`) and what
an operation that goes on can leave (`resume_cases`).
-/

namespace Sys2Proof.Laws

open Sys2Proof.Machine Sys2Proof.Safety

/-- The host's list after a step boundary at which it neither resets nor has a request accepted. -/
def Quiet (s : State) (h : List HostEvent) : Prop :=
  s.host = .quiet :: h ∨ (s.host = h ∧ ∀ r, s.host ≠ .reset :: r)

/-- Everything `fetch` can find. -/
inductive FetchCase (s : State) : Fetched → Prop where
  | reset (r : List HostEvent) (h : s.host = .reset :: r) : FetchCase s (.done (doReset { s with host := r }))
  | idle (r : List HostEvent) (hb : s.busy = false) (h : Quiet s r) (hn : ∀ w tmo r, ¬ Offers s w tmo r) :
      FetchCase s (.done { s with host := r })
  | accepted (w : Word32) (tmo : Tmo) (r : List HostEvent) (i : Instr) (h : Offers s w tmo r)
      (hd : decodeRequest w = .ok i) : FetchCase s (.instr i (accept w tmo { s with host := r }))
  | acceptedIllegal (w : Word32) (tmo : Tmo) (r : List HostEvent) (e : DecodeError) (h : Offers s w tmo r)
      (hd : decodeRequest w = .error e) :
      FetchCase s (.done (raise .illegalRequest 0 (accept w tmo { s with host := r })))
  | command (r : List HostEvent) (c : FramerCommand) (i : Instr) (hb : s.busy = true) (h : Quiet s r)
      (hc : s.command = some c) (hd : decodeCommand c.code c.out = .ok i) :
      FetchCase s (.instr i { s with host := r, command := none })
  | badCommand (hc : s.command ≠ none) : FetchCase s (.refused .codeNotInCatalog)
  | start (r : List HostEvent) (w : Word32) (i : Instr) (hb : s.busy = true) (h : Quiet s r)
      (hc : s.command = none) (hp : s.phase = .exec) (hw : s.req = some w) (hd : decodeRequest w = .ok i) :
      FetchCase s (.instr i { s with host := r })
  | startIllegal (r : List HostEvent) (w : Word32) (e : DecodeError) (hb : s.busy = true) (h : Quiet s r)
      (hw : s.req = some w) (hd : decodeRequest w = .error e) :
      FetchCase s (.done (raise .illegalRequest 0 { s with host := r }))
  | noLatch (hb : s.busy = true) (hw : s.req = none) : FetchCase s (.fault .latchUnwritten)
  | resume (r : List HostEvent) (hb : s.busy = true) (h : Quiet s r) (hc : s.command = none) (hp : s.phase ≠ .exec) :
      FetchCase s (.resume { s with host := r })

theorem fetchBusy_case (s : State) (r : List HostEvent) (hb : s.busy = true) (h : Quiet s r) :
    FetchCase s (fetchBusy { s with host := r }) := by
  unfold fetchBusy
  split
  · rename_i c hc
    split
    · rename_i i hd; exact .command r c i hb h hc hd
    · exact .badCommand (by intro hn; rw [show s.command = some c from hc] at hn; cases hn)
  · rename_i hc
    split
    · rename_i hp
      unfold fetchLatched
      split
      · rename_i hw; exact .noLatch hb hw
      · rename_i w hw
        split
        · rename_i i hd; exact .start r w i hb h hc hp hw hd
        · rename_i e hd; exact .startIllegal r w e hb h hw hd
    · rename_i hp; exact .resume r hb h hc hp

theorem fetch_case (s : State) : FetchCase s (fetch s) := by
  unfold fetch
  split
  · rename_i r h; exact .reset r h
  · rename_i r h
    split
    · rename_i hb; exact fetchBusy_case s r hb (.inl h)
    · rename_i hb; exact .idle r (by simpa using hb) (.inl h) (fun w tmo r' ho => by simp [ho.2] at h)
  · rename_i w tmo r h
    split
    · rename_i hb
      have := fetchBusy_case s s.host hb (.inr ⟨rfl, by simp [h]⟩)
      simpa using this
    · rename_i hb
      unfold fetchLatched
      simp only [Laws.accept_req]
      split
      · rename_i i hd; exact .accepted w tmo r i ⟨by simpa using hb, h⟩ hd
      · rename_i e hd; exact .acceptedIllegal w tmo r e ⟨by simpa using hb, h⟩ hd
  · rename_i h
    split
    · rename_i hb
      have := fetchBusy_case s s.host hb (.inr ⟨rfl, by simp [h]⟩)
      simpa using this
    · rename_i hb
      have := FetchCase.idle (s := s) s.host (by simpa using hb) (.inr ⟨rfl, by simp [h]⟩)
        (fun w tmo r' ho => by simp [ho.2] at h)
      simpa using this

theorem Quiet.not_reset {s : State} {h : List HostEvent} (hq : Quiet s h) : ¬ ResetNext s := by
  rintro ⟨r, hr⟩
  rcases hq with h | ⟨_, h⟩
  · rw [hr] at h; cases h
  · exact h r hr

/-! ### What instructions leave -/

/-- A wire command is one transaction from its caller's state, and its value is handed over. -/
theorem exec_wire (i : Instr) (s : State) (tmo : Tmo) (hi : i.isRequest = false) (ht : s.tmo = some tmo) :
    ∃ c acts p, exec i s = .next (handOver p) ∧ Transacts True c tmo s acts p := by
  have hw : ∀ g : Tmo → State → Progress, withTmo s (fun tmo s => handOver (g tmo s)) = .next (handOver (g tmo s)) := by
    intro g; simp [withTmo, ht]
  cases i
  case cmdGetSerial => exact ⟨_, _, _, hw _, xTxRx_transacts .getSerial rfl tmo s⟩
  case cmdStartPeriodic => exact ⟨_, _, _, hw _, xNoReply_transacts .startPeriodic rfl tmo s⟩
  case cmdStopPeriodic => exact ⟨_, _, _, hw _, xNoReply_transacts .stopPeriodic rfl tmo s⟩
  case cmdReadMeasurement => exact ⟨_, _, _, hw _, xTxRx_transacts .readMeasurement rfl tmo s⟩
  case cmdSetTempOffset v => exact ⟨_, _, _, hw _, xSet_transacts v tmo s⟩
  case cmdGetTempOffset => exact ⟨_, _, _, hw _, xTxrx_transacts tmo s⟩
  all_goals exact Bool.noConfusion hi

/-- An operation that makes no transport call responds at once; it writes at most MODE (never UNINIT), CRC_ACC,
LAST_STATUS and LAST_ERR_WORD. -/
theorem exec_local (i : Instr) (s : State) (hr : i.isRequest = true) (hb : busOps i = false) :
    ∃ m c st k r, exec i s = .next (finish r { s with mode := m, crcAcc := c, lastStatus := st, lastErrWord := k }) ∧
      (m = s.mode ∨ m ≠ .uninit) ∧ GoodResponse r ∧
      ((st = s.lastStatus ∧ k = s.lastErrWord) ∨ (st = r.status ∧ k = r.errWord)) ∧
      ((i ≠ .crcInit ∧ ∀ b, i ≠ .crcFeed b) → c = s.crcAcc) := by
  have fail : ∀ (st : Status) (j : Instr), exec j s = .next (raise st 0 s) → ∃ m c st' k r,
      exec j s = .next (finish r { s with mode := m, crcAcc := c, lastStatus := st', lastErrWord := k }) ∧
      (m = s.mode ∨ m ≠ .uninit) ∧ GoodResponse r ∧
      ((st' = s.lastStatus ∧ k = s.lastErrWord) ∨ (st' = r.status ∧ k = r.errWord)) ∧
      ((j ≠ .crcInit ∧ ∀ b, j ≠ .crcFeed b) → c = s.crcAcc) := fun st j h =>
    ⟨s.mode, s.crcAcc, st, 0, ⟨st, 0, 0⟩, h, .inl rfl, ⟨fun _ => rfl, fun _ => rfl, (by decide : (0 : BitVec 2) ≠ 3)⟩,
      .inr ⟨rfl, rfl⟩, fun _ => rfl⟩
  cases i
  case attach =>
    by_cases h : s.mode = .uninit
    · exact ⟨.ready, s.crcAcc, .ok, 0, ⟨.ok, 0, 0⟩, by simp [exec, execAttach, h, respond, State.recordStatus],
        .inr (by decide), goodResponse_ok 0, .inr ⟨rfl, rfl⟩, fun _ => rfl⟩
    · exact fail .stateError .attach (by simp [exec, execAttach, h])
  case crcInit =>
    exact ⟨s.mode, _, .ok, 0, ⟨.ok, 0, _⟩, rfl, .inl rfl, goodResponse_ok _, .inr ⟨rfl, rfl⟩, fun h => absurd rfl h.1⟩
  case crcFeed b =>
    exact ⟨s.mode, _, .ok, 0, ⟨.ok, 0, _⟩, rfl, .inl rfl, goodResponse_ok _, .inr ⟨rfl, rfl⟩,
      fun h => absurd rfl (h.2 b)⟩
  case encodeWord v =>
    exact ⟨s.mode, s.crcAcc, .ok, 0, ⟨.ok, 0, _⟩, rfl, .inl rfl, goodResponse_ok _, .inr ⟨rfl, rfl⟩, fun _ => rfl⟩
  case decodeWord c =>
    cases h : dec (chunkHi c) (chunkLo c) (chunkCk c) with
    | some v =>
      exact ⟨s.mode, s.crcAcc, .ok, 0, ⟨.ok, 0, v.setWidth 48⟩,
        by simp [exec, execDecodeWord, h, respond, State.recordStatus], .inl rfl, goodResponse_ok _, .inr ⟨rfl, rfl⟩,
        fun _ => rfl⟩
    | none => exact fail .checksumMismatch (.decodeWord c) (by simp [exec, execDecodeWord, h])
  case readStatus =>
    exact ⟨s.mode, s.crcAcc, s.lastStatus, s.lastErrWord, ⟨.ok, 0, _⟩, rfl, .inl rfl, goodResponse_ok _,
      .inl ⟨rfl, rfl⟩, fun _ => rfl⟩
  all_goals first | exact Bool.noConfusion hb | exact Bool.noConfusion hr

/-- A wire command runs only with a latched timeout (R37). -/
theorem exec_wire_tmo {i : Instr} {s t : State} (hi : i.isRequest = false) (h : exec i s = .next t) :
    ∃ tmo, s.tmo = some tmo := by
  cases ht : s.tmo with
  | some tmo => exact ⟨tmo, rfl⟩
  | none =>
    have hw : ∀ b, withTmo s b = .fault .latchUnwritten := by intro b; simp [withTmo, ht]
    cases i <;> first
      | exact Bool.noConfusion hi
      | (simp only [exec, execCmdGetSerial, execCmdStartPeriodic, execCmdStopPeriodic, execCmdReadMeasurement,
          execCmdSetTempOffset, execCmdGetTempOffset, hw] at h; cases h)

/-- An operation of BUS_OPS goes past its prologue only with a latched timeout (R37). -/
theorem exec_busOp_tmo {i : Instr} {s t : State} (hi : busOps i = true) (hm : s.mode ≠ .uninit)
    (h : exec i s = .next t) : ∃ tmo, s.tmo = some tmo := by
  cases ht : s.tmo with
  | some tmo => exact ⟨tmo, rfl⟩
  | none =>
    have hw : ∀ b, busOp s b = .fault .latchUnwritten := by intro b; simp [busOp, hm, withTmo, ht]
    cases i <;> first
      | exact Bool.noConfusion hi
      | (simp only [exec, execIdentify, execCheckIdentity, execStartPeriodic, execStopPeriodic, execReadSample,
          execSetTempOffset, execGetTempOffset, hw] at h; cases h)

/-- Everything an instruction's next state can be. -/
inductive ExecCase (i : Instr) (s t : State) : Prop where
  | answered (m : Mode) (c : Byte) (st : Status) (k : BitVec 2) (r : Response) (hr : i.isRequest = true)
      (hb : busOps i = false)
      (ht : t = finish r { s with mode := m, crcAcc := c, lastStatus := st, lastErrWord := k })
      (hm : m = s.mode ∨ m ≠ .uninit) (hg : GoodResponse r)
      (hst : (st = s.lastStatus ∧ k = s.lastErrWord) ∨ (st = r.status ∧ k = r.errWord))
      (hc : (i ≠ .crcInit ∧ ∀ b, i ≠ .crcFeed b) → c = s.crcAcc)
  | refusedByMode (hb : busOps i = true) (hm : s.mode = .uninit) (ht : t = raise .stateError 0 s)
  | operation (hb : busOps i = true) (hm : s.mode ≠ .uninit) (tmo : Tmo) (htm : s.tmo = some tmo)
      (h : Continued True i (firstCommand i) false tmo (entered i s) (firstCalls tmo i) t)
  | wire (hr : i.isRequest = false) (tmo : Tmo) (htm : s.tmo = some tmo) (c : Command) (acts : List Action)
      (p : Progress) (ht : t = handOver p) (h : Transacts True c tmo s acts p)

theorem exec_cases {i : Instr} {s t : State} (h : exec i s = .next t) : ExecCase i s t := by
  cases hr : i.isRequest with
  | false =>
    obtain ⟨tmo, ht⟩ := exec_wire_tmo hr h
    obtain ⟨c, acts, p, he, hp⟩ := exec_wire i s tmo hr ht
    rw [he] at h; cases h
    exact .wire hr tmo ht c acts p rfl hp
  | true =>
    cases hb : busOps i with
    | false =>
      obtain ⟨m, c, st, k, r, he, h1, h2, h3, h4⟩ := exec_local i s hr hb
      rw [he] at h; cases h
      exact .answered m c st k r hr hb rfl h1 h2 h3 h4
    | true =>
      by_cases hm : s.mode = .uninit
      · rw [exec_busOp_uninit i s hb hm] at h; cases h; exact .refusedByMode hb hm rfl
      · obtain ⟨tmo, ht⟩ := exec_busOp_tmo hb hm h
        obtain ⟨u, he, hu⟩ := exec_busOp_cases i tmo s hb hm ht
        rw [he] at h; cases h
        exact .operation hb hm tmo ht hu

/-- The host's words decode to host requests only (R84). -/
theorem decodeRequest_isRequest {w : Word32} {i : Instr} (h : decodeRequest w = .ok i) : i.isRequest = true := by
  simp only [decodeRequest, selectRow] at h
  split at h
  case h_14 => cases h
  all_goals
    split at h <;> cases h
    rfl

/-- The framer's commands decode to wire commands only. -/
theorem decodeCommand_isWire {code out : Word16} {i : Instr} (h : decodeCommand code out = .ok i) :
    i.isRequest = false := by
  simp only [decodeCommand, noOut] at h
  split at h
  case h_7 => cases h
  case h_5 => cases h; rfl
  all_goals
    split at h <;> cases h
    rfl

/-- Everything an operation that goes on can do: the framer's value is taken; the transaction in progress goes on with
its later calls; or a settle wait is over, and the stop or the retry begins. -/
inductive ResumeCase (i : Instr) (tmo : Tmo) (s t : State) : Prop where
  | takes (c : Command) (r : FrameResult) (hr : s.framerResult = some r) (hb : busOps i = true)
      (h : Continued (GoodResult r) i c s.attempt tmo { s with framerResult := none } [] t)
  | goesOn (c : Command) (hph : s.phase = .tx ∨ s.phase = .rx ∨ s.phase = .txrx ∨ s.phase = .decode)
      (hc : inFlight s = some c) (hr : s.framerResult = none) (hb : busOps i = true)
      (h : Continued True i c s.attempt tmo s (later c s.phase tmo) t)
  | stops (hph : s.phase = .settle1 ∨ s.phase = .stop) (hi : i = .checkIdentity)
      (h : Continued True i .stopPeriodic s.attempt tmo { s with phase := .stop } [.tx [0x3F, 0x86] tmo] t)
  | retries (hph : s.phase = .settle2 ∨ s.phase = .retry) (hi : i = .checkIdentity)
      (h : Continued True i .getSerial true tmo { s with phase := .retry, attempt := true }
        [.tx [0x36, 0x82] tmo, .rx 9 tmo] t)

/-- Only an operation of BUS_OPS goes on with a transaction. -/
theorem busOps_of_continueOp {i : Instr} {c : Command} {a : Bool} {p : Progress} {t : State}
    (h : continueOp i c a p = .next t) : busOps i = true := by
  cases i <;> first | rfl | (simp only [continueOp] at h; cases h)

theorem resumeTransaction_cases {i : Instr} {tmo : Tmo} {s t : State}
    (hph : s.phase = .tx ∨ s.phase = .rx ∨ s.phase = .txrx ∨ s.phase = .decode)
    (h : resumeTransaction i tmo s = .next t) : ResumeCase i tmo s t := by
  unfold resumeTransaction at h
  split at h
  · cases h
  · rename_i c hc
    split at h
    · rename_i r hr
      exact .takes c r hr (busOps_of_continueOp h) (continueOp_cases (takes_transacts hc) h)
    · rename_i hr
      split at h
      · rename_i p hp
        exact .goesOn c hph hc hr (busOps_of_continueOp h) (continueOp_cases (finishTransaction_transacts hc hp) h)
      · cases h

theorem resume_cases {s t : State} (h : resume s = .next t) : ∃ w i tmo, s.req = some w ∧ s.tmo = some tmo ∧
    decodeRequest w = .ok i ∧ ResumeCase i tmo s t := by
  unfold resume at h
  split at h
  · rename_i w tmo hw ht
    split at h
    · cases h
    · rename_i i hd
      refine ⟨w, i, tmo, hw, ht, hd, ?_⟩
      cases hp : s.phase <;> simp only [hp] at h
      case tx => exact resumeTransaction_cases (by simp [hp]) h
      case rx => exact resumeTransaction_cases (by simp [hp]) h
      case txrx => exact resumeTransaction_cases (by simp [hp]) h
      case decode => exact resumeTransaction_cases (by simp [hp]) h
      case settle1 => split at h <;> cases h; subst ‹i = _›; exact .stops (.inl hp) rfl (innerStop_cases tmo s)
      case stop => split at h <;> cases h; subst ‹i = _›; exact .stops (.inr hp) rfl (innerStop_cases tmo s)
      case settle2 => split at h <;> cases h; subst ‹i = _›; exact .retries (.inl hp) rfl (retryIdentify_cases tmo s)
      case retry => split at h <;> cases h; subst ‹i = _›; exact .retries (.inr hp) rfl (retryIdentify_cases tmo s)
      all_goals cases h
  · cases h

/-- An operation that goes on leaves what `OpRan` says, from the state with the framer's value taken. -/
theorem resume_ran {s t : State} (h : resume s = .next t) : ∃ tmo u, s.tmo = some tmo ∧
    (u = s ∨ u = { s with framerResult := none }) ∧ OpRan (∀ r, s.framerResult = some r → GoodResult r) tmo u t := by
  obtain ⟨w, i, tmo, _, ht, _, h⟩ := resume_cases h
  cases h with
  | takes c r hr hb h =>
    refine ⟨tmo, _, ht, .inr rfl, ?_⟩
    exact h.ran.imp id fun ⟨st, k, d, u, hu, hg, ht⟩ => ⟨st, k, d, u, hu, fun H => hg (H r hr), ht⟩
  | goesOn c hph hc hr hb h =>
    exact ⟨tmo, s, ht, .inl rfl, h.ran.imp id fun ⟨st, k, d, u, hu, hg, ht⟩ => ⟨st, k, d, u, hu, fun _ => hg trivial, ht⟩⟩
  | stops hph hi h =>
    refine ⟨tmo, s, ht, .inl rfl, .from (baseOf_enter tmo s .stop s.attempt) ?_⟩
    exact h.ran.imp id fun ⟨st, k, d, u, hu, hg, ht⟩ => ⟨st, k, d, u, hu, fun _ => hg trivial, ht⟩
  | retries hph hi h =>
    refine ⟨tmo, s, ht, .inl rfl, .from (baseOf_enter tmo s .retry true) ?_⟩
    exact h.ran.imp id fun ⟨st, k, d, u, hu, hg, ht⟩ => ⟨st, k, d, u, hu, fun _ => hg trivial, ht⟩

/-! ### A step -/

/-- What a step does with what it found. -/
def runFetched : Fetched → Host.Outcome State Fault Refusal
  | .instr i s => exec i s
  | .resume s => resume s
  | .done s => .next s
  | .fault f => .fault f
  | .refused r => .refused r

theorem step_eq (s : State) : step s = runFetched (fetch s) := by
  unfold step; cases fetch s <;> rfl

/-- Every step comes from one case of `fetch`. -/
theorem step_cases {s t : State} (h : step s = .next t) :
    ∃ f, FetchCase s f ∧ fetch s = f ∧ runFetched f = .next t :=
  ⟨fetch s, fetch_case s, rfl, (step_eq s).symm.trans h⟩

end Sys2Proof.Laws
end

