-- ==== Sys2Proof/Tests/Slice0.lean ====
section
/-!
SUPPORT. Own tests: the checks of WellFormed on ill-formed terms, words written out from the tables of 30_encoding.md,
single steps with results from 95_test_vectors.md, and a witness for every statement that has hypotheses.
-/

namespace Sys2Proof.Tests

open Sys2Proof Sys2Proof.Machine Sys2Proof.Safety

/-! ### WellFormed refuses ill-formed terms (R76, R84, R86) -/

theorem test_wf_refuses_timeout_zero : Tmo.wf (.bounded 0) = false ∧ Tmo.wf (.bounded 1) = true := by decide

theorem test_wf_refuses_wire_command_request : Request.wf .cmdGetSerial .infinite = false := by decide

theorem test_wf_refuses_request_with_timeout_zero : Request.wf .identify (.bounded 0) = false := by decide

theorem test_wf_refuses_operand_too_wide :
    AsmLine.wf { mnemonic := .CRC_FEED, imm := some 0x100 } = false ∧
    AsmLine.wf { mnemonic := .CRC_FEED, imm := some 0xFF } = true ∧
    AsmLine.wf { mnemonic := .SET_TEMP_OFFSET, imm := some 0x10000 } = false ∧
    AsmLine.wf { mnemonic := .DECODE_WORD, imm := some 0x1000000 } = false := by decide

theorem test_wf_refuses_missing_operand : AsmLine.wf { mnemonic := .ENCODE_WORD } = false := by decide

theorem test_wf_refuses_superfluous_operand : AsmLine.wf { mnemonic := .ATTACH, imm := some 0 } = false := by decide

theorem test_wf_refuses_line_with_timeout_zero :
    AsmLine.wf { mnemonic := .ATTACH, tmo := .bounded 0 } = false := by decide

/-! ### Decoding, from the tables of R73 and R83 -/

theorem test_decode_requests :
    decodeRequest 0b0001_0000_000000000000000000000000 = .ok .attach ∧
    decodeRequest 0b0010_0000_000000000000000000000000 = .ok .identify ∧
    decodeRequest 0b0011_0000_000000000000000000000000 = .ok .checkIdentity ∧
    decodeRequest 0b0100_0000_000000000000000000000000 = .ok .startPeriodic ∧
    decodeRequest 0b0101_0000_000000000000000000000000 = .ok .stopPeriodic ∧
    decodeRequest 0b0110_0000_000000000000000000000000 = .ok .readSample ∧
    decodeRequest 0b1000_0000_000000000000000000000000 = .ok .getTempOffset ∧
    decodeRequest 0b1001_0000_000000000000000000000000 = .ok .crcInit ∧
    decodeRequest 0b1101_0000_000000000000000000000000 = .ok .readStatus := by decide

theorem test_decode_requests_with_operand :
    decodeRequest 0b0111_0000_00000000_0000010111011010 = .ok (.setTempOffset 0x05DA) ∧
    decodeRequest 0b1010_0000_0000000000000000_10111110 = .ok (.crcFeed 0xBE) ∧
    decodeRequest 0b1011_0000_00000000_1011111011101111 = .ok (.encodeWord 0xBEEF) ∧
    decodeRequest 0b1100_0000_10111110_11101111_10010010 = .ok (.decodeWord 0xBEEF92) := by decide

theorem test_decode_commands :
    decodeCommand 0b0011011010000010 0 = .ok .cmdGetSerial ∧
    decodeCommand 0b0010000110110001 0 = .ok .cmdStartPeriodic ∧
    decodeCommand 0b0011111110000110 0 = .ok .cmdStopPeriodic ∧
    decodeCommand 0b1110110000000101 0 = .ok .cmdReadMeasurement ∧
    decodeCommand 0b0010010000011101 0x05DA = .ok (.cmdSetTempOffset 0x05DA) ∧
    decodeCommand 0b0010001100011000 0 = .ok .cmdGetTempOffset ∧
    decodeCommand 0x3683 0 = .error .codeNotInCatalog ∧
    decodeCommand 0x3682 1 = .error .strayBits := by decide

/-- Q-7 to Q-10, and the stray operand bits of section 2.1 and 2.2. -/
theorem test_decode_illegal :
    decodeRequest 0x00000000 = .error .reservedOp ∧ decodeRequest 0xE0000000 = .error .reservedOp ∧
    decodeRequest 0xF0000000 = .error .reservedOp ∧ decodeRequest 0x11000000 = .error .strayBits ∧
    decodeRequest 0x40000001 = .error .strayBits ∧ decodeRequest 0xA0000100 = .error .strayBits ∧
    decodeRequest 0xB001BEEF = .error .strayBits ∧ decodeRequest 0xC1BEEF92 = .error .strayBits := by decide

theorem test_assemble :
    assemble { mnemonic := .SET_TEMP_OFFSET, imm := some 0x05DA, tmo := .bounded 50 } =
      some (.request 0x700005DA, .bounded 50) ∧
    assemble { mnemonic := .CRC_FEED, imm := some 0x100 } = none := by decide

/-! ### Single steps -/

def ready : State := { State.reset with mode := .ready }
def periodic : State := { State.reset with mode := .periodic }

/-- The step in which an idle block accepts the word, with these transport outcomes to come. -/
def offer (w : Word32) (ds : List Draw) (s : State) : Host.Outcome State Fault Refusal :=
  step { s with host := [.request w .infinite], draws := ds }

/-- The last response, with its status as a code, MODE and UNUSABLE after a step. -/
def seen : Host.Outcome State Fault Refusal → Option (Option (Nat × Nat × Nat) × Mode × Bool)
  | .next t =>
    some (t.responses.getLast?.map fun r => (r.status.code.toNat, r.errWord.toNat, r.data.toNat), t.mode, t.unusable)
  | _ => none

/-- The external actions and the value handed over after a wire command. -/
def framed : Host.Outcome State Fault Refusal → Option (List Action × Option FrameResult)
  | .next t => some (t.bus, t.framerResult)
  | _ => none

/-- A block in the middle of an operation, with a timeout latched. -/
def inOperation (ds : List Draw) : State := { ready with busy := true, phase := .exec, tmo := some .infinite, draws := ds }

def good : List Byte := [0x12, 0x34, 0x37, 0x56, 0x78, 0x7D, 0x9A, 0xBC, 0xE0]
def bad1 : List Byte := [0x12, 0x34, 0x37, 0x56, 0x78, 0x00, 0x9A, 0xBC, 0xE0]

/-- Q-4. -/
theorem test_attach : seen (offer 0x10000000 [] State.reset) = some (some (0, 0, 0), .ready, false) := by decide

/-- Q-5. -/
theorem test_attach_again : seen (offer 0x10000000 [] ready) = some (some (4, 0, 0), .ready, false) := by decide

/-- Q-1. -/
theorem test_identify_uninit : seen (offer 0x20000000 [] State.reset) = some (some (4, 0, 0), .uninit, false) := by
  decide

/-- M-11. -/
theorem test_identify :
    seen (offer 0x20000000 [.ok [], .ok [0xFF, 0xFF, 0xAC, 0xFF, 0xFF, 0xAC, 0xFF, 0xFF, 0xAC]] ready) =
      some (some (0, 0, 0xFFFFFFFFFFFF), .ready, false) := by decide +kernel

/-- CHECK_IDENTITY in the settle wait before its retry. -/
def beforeRetry (ds : List Draw) (s : State) : State :=
  { s with
    busy := true, phase := .settle2, req := some 0x30000000, tmo := some .infinite, txbuf := some [0x3F, 0x86]
    draws := ds }

/-- R-2, first step: after the failed first identify the settle wait begins, and no outcome is read for it. -/
theorem test_check_identity_first_fails :
    (match offer 0x30000000 [.ok [], .ok bad1, .ok [], .ok [], .ok good] ready with
      | .next t => some (t.bus, t.phase, t.draws, t.responses)
      | _ => none) =
    some ([.tx [0x36, 0x82] .infinite, .rx 9 .infinite, .wait .settleWait], .settle1, [.ok [], .ok [], .ok good], []) := by
  decide +kernel

/-- R-6, last step. -/
theorem test_check_identity_retry_fails :
    seen (step (beforeRetry [.ok [], .ok [0x12, 0x34, 0x37, 0x56, 0x78, 0x7D, 0x9A, 0xBC, 0x00]] periodic)) =
      some (some (2, 2, 0), .periodic, true) := by decide +kernel

/-- M-1. -/
theorem test_start_periodic : seen (offer 0x40000000 [.ok []] ready) = some (some (0, 0, 0), .periodic, false) := by
  decide

/-- M-2. -/
theorem test_start_periodic_fails : seen (offer 0x40000000 [.err] ready) = some (some (1, 0, 0), .ready, false) := by
  decide

/-- M-4. -/
theorem test_stop_periodic : seen (offer 0x50000000 [.ok []] periodic) = some (some (0, 0, 0), .ready, false) := by
  decide

/-- M-5. -/
theorem test_stop_periodic_fails : seen (offer 0x50000000 [.err] periodic) = some (some (1, 0, 0), .periodic, false) := by
  decide

/-- Q-6. -/
theorem test_read_sample :
    seen (offer 0x60000000 [.ok [], .ok [0x01, 0xF4, 0x33, 0x66, 0x67, 0xA2, 0x5E, 0xB9, 0x3C]] ready) =
      some (some (0, 0, 0x01F466675EB9), .ready, false) := by decide +kernel

/-- E-3. -/
theorem test_read_sample_mismatch :
    seen (offer 0x60000000 [.ok [], .ok [0x01, 0xF4, 0x33, 0x66, 0x67, 0xA3, 0x5E, 0xB9, 0x3C]] ready) =
      some (some (2, 1, 0), .ready, false) := by decide +kernel

/-- M-7. -/
theorem test_set_temp_offset :
    seen (offer 0x700005DA [.ok []] periodic) = some (some (0, 0, 0), .periodic, false) ∧
    (framed (offer 0x700005DA [.ok []] periodic)).map (·.1) =
      some [.tx [0x24, 0x1D, 0x05, 0xDA, 0x29] .infinite] := by decide +kernel

/-- M-8. -/
theorem test_get_temp_offset :
    seen (offer 0x80000000 [.ok [0x05, 0xDA, 0x29]] ready) = some (some (0, 0, 0x05DA), .ready, false) := by
  decide +kernel

/-- M-9. -/
theorem test_get_temp_offset_mismatch :
    seen (offer 0x80000000 [.ok [0x05, 0xDA, 0x28]] ready) = some (some (2, 0, 0), .ready, false) := by decide +kernel

/-- V6, first line. -/
theorem test_crc_init :
    seen (offer 0x90000000 [] { State.reset with crcAcc := 0x5A }) = some (some (0, 0, 0xFF), .uninit, false) := by
  decide +kernel

/-- V6, third line. -/
theorem test_crc_feed :
    seen (offer 0xA00000EF [] { State.reset with crcAcc := 0x0C }) = some (some (0, 0, 0x92), .uninit, false) := by
  decide +kernel

/-- V6, last line. -/
theorem test_crc_feed_after_reset :
    seen (offer 0xA0000000 [] State.reset) = some (some (0, 0, 0xAC), .uninit, false) := by decide +kernel

/-- Section 2.2: the low byte is bitwise. -/
theorem test_encode_word :
    seen (offer 0xB00000FF [] State.reset) = some (some (0, 0, 0x00FF2D), .uninit, false) := by decide +kernel

/-- Section 2.2. -/
theorem test_decode_word :
    seen (offer 0xC0BEEF92 [] State.reset) = some (some (0, 0, 0xBEEF), .uninit, false) := by decide +kernel

/-- Section 2.2. -/
theorem test_decode_word_mismatch :
    seen (offer 0xC03EEF92 [] State.reset) = some (some (2, 0, 0), .uninit, false) := by decide +kernel

/-- Section 2.4, right after reset. -/
theorem test_read_status :
    seen (offer 0xD0000000 [] State.reset) = some (some (0, 0, 0x000000FF0000), .uninit, false) := by decide

/-- Section 2.4, after a failed IDENTIFY with (2, 1, 0). -/
theorem test_read_status_after_failure :
    seen (offer 0xD0000000 [] { ready with lastStatus := .checksumMismatch, lastErrWord := 1 }) =
      some (some (0, 0, 0x000000FF0121), .ready, false) := by decide

/-- E-1: illegal before the mode check. -/
theorem test_illegal_before_mode :
    seen (offer 0x21000000 [] State.reset) = some (some (5, 0, 0), .uninit, false) := by decide

/-- F-1. -/
theorem test_cmd_get_serial :
    framed (exec .cmdGetSerial (inOperation [.ok [], .ok good])) =
      some ([.tx [0x36, 0x82] .infinite, .rx 9 .infinite], some (.ok [0x1234, 0x5678, 0x9ABC])) := by decide +kernel

/-- F-2. -/
theorem test_cmd_start_periodic :
    framed (exec .cmdStartPeriodic (inOperation [.ok []])) = some ([.tx [0x21, 0xB1] .infinite], some (.ok [])) := by
  decide

/-- F-3. -/
theorem test_cmd_stop_periodic :
    framed (exec .cmdStopPeriodic (inOperation [.err])) =
      some ([.tx [0x3F, 0x86] .infinite], some (.fail .transportError 0)) := by decide

/-- F-4, X-7. -/
theorem test_cmd_read_measurement :
    framed (exec .cmdReadMeasurement
      (inOperation [.ok [], .ok [0x12, 0x34, 0x37, 0x56, 0x78, 0x00, 0x9A, 0xBC, 0x00]])) =
      some ([.tx [0xEC, 0x05] .infinite, .rx 9 .infinite], some (.fail .checksumMismatch 1)) := by decide +kernel

/-- X-5: the length is checked before any checksum. -/
theorem test_cmd_read_measurement_length :
    framed (exec .cmdReadMeasurement (inOperation [.ok [], .ok (bad1 ++ [0x00])])) =
      some ([.tx [0xEC, 0x05] .infinite, .rx 9 .infinite], some (.fail .protocolViolation 0)) := by decide +kernel

/-- F-5c. -/
theorem test_cmd_set_temp_offset :
    framed (exec (.cmdSetTempOffset 0x0EA1) (inOperation [.ok []])) =
      some ([.tx [0x24, 0x1D, 0x0E, 0xA1, 0x21] .infinite], some (.ok [])) := by decide +kernel

/-- F-6. -/
theorem test_cmd_get_temp_offset :
    framed (exec .cmdGetTempOffset (inOperation [.ok [0x05, 0xDA]])) =
      some ([.txRx [0x23, 0x18] 3 .infinite], some (.fail .protocolViolation 0)) := by decide +kernel

/-- The host's two placements run as the first step after reset (notes/assumptions/6.md, 7.md). -/
theorem test_first_step_after_reset :
    seen (step (State.reset.withFetchWord 32 0xB000BEEF)) = some (some (0, 0, 0xBEEF92), .uninit, false) ∧
    (framed (step (State.withFetchWord { State.reset with draws := [.ok []] } 16 0x21B1))) =
      some ([.tx [0x21, 0xB1] .infinite], some (.ok [])) := by decide +kernel

/-- E-5: reset while CHECK_IDENTITY waits in SETTLE2. -/
theorem test_reset_in_settle2 :
    step { ready with busy := true, phase := .settle2, unusable := true, host := [.reset] } = .next State.reset := rfl

/-! ### Conversions (section 2.6) -/

/-- 19.75280384527352 and 37.00160219729916. -/
theorem test_conversion_of_0x5EB9 :
    temperatureC 0x5EB9 = 0x4033C0B7C0B7C0B8 ∧ humidityPct 0x5EB9 = 0x4042803480348035 := by decide +kernel

/-- 4.4, and -0.001, 174.9986 and 175.0. -/
theorem test_offset_conversions :
    rawToOffset 0x0666 = 0x401199999999999A ∧ offsetToRaw 0xBF50624DD2F1A9FC = some 0x0000 ∧
    offsetToRaw 0x4065DFF487FCB924 = some 0xFFFF ∧ offsetToRaw 0x4065E00000000000 = none := by decide +kernel

/-- By hand: 2^53 + 1 and 2^53 + 3 lie half-way between two numbers of 53 bits, whose even one is the result. -/
theorem test_rounding_ties_to_even :
    roundRat false (2 ^ 53 + 1) 1 = .fin false (2 ^ 52) 1 ∧ roundRat true (2 ^ 53 + 3) 1 = .fin true (2 ^ 52 + 2) 1 := by
  decide +kernel

/-! ### Witnesses: a state and operands that meet all the hypotheses of a statement -/

theorem witness_EncodeInvertsDecode :
    decode (.request 0x7000FFFF) = .ok (.setTempOffset 0xFFFF) ∧
    decode (.command 0x241D 0xFFFF) = .ok (.cmdSetTempOffset 0xFFFF) := by decide

theorem witness_DecodingFollowsTheTable :
    (⟨.SET_TEMP_OFFSET, 0x70000000, 0xFFFF0000⟩ : RequestRow) ∈ requestTable ∧
    (0x7000FFFF : Word32) &&& 0xFFFF0000 = 0x70000000 ∧
    ∀ r ∈ requestTable, (0x70010000 : Word32) &&& r.mask ≠ r.pattern := by decide

theorem witness_OperandsAreUnsignedFields :
    decodeRequest 0x7000FFFF = .ok (.setTempOffset 0xFFFF) ∧ decodeRequest 0xB0008000 = .ok (.encodeWord 0x8000) ∧
    decodeRequest 0xA00000FF = .ok (.crcFeed 0xFF) ∧ decodeRequest 0xC0FFFFFF = .ok (.decodeWord 0xFFFFFF) := by decide

theorem witness_LinesAssembleIffWellFormed :
    AsmLine.wf { mnemonic := .DECODE_WORD, imm := some 0xFFFFFF } = true ∧ AsmLine.wf { mnemonic := .ATTACH } = true ∧
    AsmLine.wf { mnemonic := .CRC_FEED, imm := some 0x100 } = false := by decide

theorem witness_IllegalWordCompletes :
    Offers { State.reset with host := [.request 0xE0000000 (.bounded 1)] } 0xE0000000 (.bounded 1) [] ∧
    decodeRequest 0xE0000000 = .error .reservedOp := ⟨⟨rfl, rfl⟩, by decide⟩

theorem witness_ChecksumResidueIsZero : valid 0xFF 0x00 0x00 = true := by decide +kernel

theorem witness_OneAndTwoBitErrorsDetected :
    valid (chunkHi 0xBEEF92) (chunkLo 0xBEEF92) (chunkCk 0xBEEF92) = true ∧ 0 < 24 ∧ 23 < 24 := by decide +kernel

/-- An idle block that is offered READ_STATUS. -/
def statusOffered : State := { ready with host := [.request 0xD0000000 .infinite] }

theorem statusOffered_fetch : fetch statusOffered =
    .instr .readStatus (accept 0xD0000000 .infinite { statusOffered with host := [] }) := rfl

theorem statusOffered_no_reset : ¬ ResetNext statusOffered := by
  rintro ⟨rest, h⟩; simp [statusOffered] at h

theorem witness_OnlyCrcOperationsWriteCrcAcc : (∃ t, step statusOffered = .next t) ∧ ¬ ResetNext statusOffered ∧
    (∀ u, fetch statusOffered ≠ .instr .crcInit u) ∧ (∀ b u, fetch statusOffered ≠ .instr (.crcFeed b) u) :=
  ⟨⟨_, rfl⟩, statusOffered_no_reset, fun u h => (by rw [statusOffered_fetch] at h; cases h),
    fun b u h => (by rw [statusOffered_fetch] at h; cases h)⟩

theorem witness_WordRoundTrip : dec 0xFF 0xFF 0xAC = some 0xFFFF := by decide +kernel

theorem witness_DecodeWordResult :
    crc8 [chunkHi 0x000081, chunkLo 0x000081] = chunkCk 0x000081 ∧
    crc8 [chunkHi 0x000000, chunkLo 0x000000] ≠ chunkCk 0x000000 := by decide +kernel

theorem witness_NoReplyCommandResult : ∀ d : Draw, d = .ok [] ∨ d = .err ∨ d = .stall →
    (inOperation [d]).tmo = some .infinite ∧ (inOperation [d]).draws = d :: [] := fun _ _ => ⟨rfl, rfl⟩

/-- A good reply of three words at the ends of their range. -/
theorem gives_reply (f : List Byte) : ReadGives f .infinite [.ok [], .ok (enc 0x0000 ++ enc 0x8000 ++ enc 0xFFFF)]
    [.tx f .infinite, .rx 9 .infinite] (enc 0x0000 ++ enc 0x8000 ++ enc 0xFFFF) 0x0000 0x8000 0xFFFF := .reply ..

theorem fails_transmit (f : List Byte) :
    ReadFails f .infinite [.err] [.tx f .infinite] none .tx .transportError 0 := .transmit

theorem fails_receive (f : List Byte) :
    ReadFails f .infinite [.ok [], .err] [.tx f .infinite, .rx 9 .infinite] none .rx .transportError 0 := .receive []

/-- Lengths 8 and 10 on either side of 9. -/
theorem fails_length (f : List Byte) : ∀ n, n = 0 ∨ n = 8 ∨ n = 10 →
    ReadFails f .infinite [.ok [], .ok (List.replicate n 0)] [.tx f .infinite, .rx 9 .infinite]
      (some (List.replicate n 0)) .decode .protocolViolation 0 := by
  rintro n (rfl | rfl | rfl) <;> exact .length [] _ (by simp)

theorem fails_word0 (f : List Byte) :
    ReadFails f .infinite [.ok [], .ok [0, 0, 0, 0, 0, 0x81, 0, 0, 0x81]] [.tx f .infinite, .rx 9 .infinite]
      (some [0, 0, 0, 0, 0, 0x81, 0, 0, 0x81]) .decode .checksumMismatch 0 :=
  .word0 [] _ _ _ _ _ _ _ _ _ (by decide +kernel)

theorem fails_word1 (f : List Byte) : ReadFails f .infinite [.ok [], .ok bad1] [.tx f .infinite, .rx 9 .infinite]
    (some bad1) .decode .checksumMismatch 1 :=
  .word1 [] _ _ _ _ _ _ _ _ _ (by decide +kernel) (by decide +kernel)

theorem fails_word2 (f : List Byte) :
    ReadFails f .infinite [.ok [], .ok [0, 0, 0x81, 0, 0, 0x81, 0, 0, 0x80]] [.tx f .infinite, .rx 9 .infinite]
      (some [0, 0, 0x81, 0, 0, 0x81, 0, 0, 0x80]) .decode .checksumMismatch 2 :=
  .word2 [] _ _ _ _ _ _ _ _ _ (by decide +kernel) (by decide +kernel) (by decide +kernel)

/-- The outcomes of each clause stand first in the list of a state with a latched timeout. -/
theorem witness_SeparateReplyCommandResult (f : List Byte) :
    (∃ ds acts bytes w0 w1 w2, (inOperation (ds ++ [])).draws = ds ++ [] ∧ ReadGives f .infinite ds acts bytes w0 w1 w2) ∧
    (∃ ds acts rx ph st k, (inOperation (ds ++ [])).draws = ds ++ [] ∧ ReadFails f .infinite ds acts rx ph st k) ∧
    (inOperation []).tmo = some .infinite :=
  ⟨⟨_, _, _, _, _, _, rfl, gives_reply f⟩, ⟨_, _, _, _, _, _, rfl, fails_word2 f⟩, rfl⟩

theorem witness_CombinedReplyCommandResult :
    (inOperation [.err]).draws = .err :: [] ∧ (inOperation [.ok [0, 0]]).draws = .ok [0, 0] :: [] ∧
    [(0 : Byte), 0].length ≠ 3 ∧ (inOperation [.ok [0, 0, 0x81]]).draws = .ok [0, 0, 0x81] :: [] ∧
    (inOperation []).tmo = some .infinite := by decide

theorem witness_WireCommandsFrame :
    Instr.isRequest (.cmdSetTempOffset 0xFFFF) = false ∧ (inOperation []).tmo.isSome = true := by decide

theorem witness_PrologueRefusesByMode :
    busOps .checkIdentity = true ∧ busOps (.setTempOffset 0) = true ∧ State.reset.mode = .uninit ∧
    busOps .getTempOffset = true := by decide

theorem witness_AttachResult :
    State.reset.mode = .uninit ∧ ready.mode ≠ .uninit ∧ periodic.mode ≠ .uninit := by decide

/-- A word with op 0x9 that is not CRC_INIT's. -/
theorem witness_CrcInitResult : opField 0x90000001 = 0x9 ∧ (0x90000001 : Word32) ≠ 0x90000000 := by decide

/-- For IDENTIFY and READ_SAMPLE alike: in READY and in PERIODIC. -/
theorem witness_IdentifyResult (f : List Byte) :
    (inOperation []).mode ≠ .uninit ∧ (inOperation []).tmo = some .infinite ∧
    (∃ ds acts bytes w0 w1 w2, (inOperation (ds ++ [])).draws = ds ++ [] ∧ ReadGives f .infinite ds acts bytes w0 w1 w2) ∧
    (∃ ds acts rx ph st k, (inOperation (ds ++ [])).draws = ds ++ [] ∧ ReadFails f .infinite ds acts rx ph st k) :=
  ⟨by decide, rfl, ⟨_, _, _, _, _, _, rfl, gives_reply f⟩, ⟨_, _, _, _, _, _, rfl, fails_transmit f⟩⟩

theorem witness_ReadSampleResult :
    { inOperation [] with mode := .periodic }.mode ≠ .uninit ∧ (inOperation []).tmo = some .infinite ∧
    (inOperation [.ok [], .err]).draws = [.ok [], .err] ++ [] ∧
    ReadFails [0xEC, 0x05] .infinite [.ok [], .err] [.tx [0xEC, 0x05] .infinite, .rx 9 .infinite] none .rx
      .transportError 0 ∧
    ReadGives [0xEC, 0x05] .infinite [.ok [], .ok (enc 0x0000 ++ enc 0x8000 ++ enc 0xFFFF)]
      [.tx [0xEC, 0x05] .infinite, .rx 9 .infinite] (enc 0x0000 ++ enc 0x8000 ++ enc 0xFFFF) 0x0000 0x8000 0xFFFF :=
  ⟨by decide, rfl, rfl, fails_receive _, gives_reply _⟩

theorem witness_GetTempOffsetResult :
    (inOperation []).mode ≠ .uninit ∧ (inOperation []).tmo = some .infinite ∧
    (inOperation [.err]).draws = .err :: [] ∧ [(0 : Byte), 0, 0x81, 0].length ≠ 3 ∧
    crc8 [0x05, 0xDA] ≠ 0x28 ∧ (inOperation [.ok (enc 0xFFFF)]).draws = .ok (enc 0xFFFF) :: [] := by decide +kernel

theorem witness_SetTempOffsetResult :
    (inOperation []).mode ≠ .uninit ∧ (inOperation []).tmo = some .infinite ∧
    (inOperation [.ok []]).draws = .ok [] :: [] ∧ (inOperation [.err]).draws = .err :: [] := by decide

theorem witness_StartStopResult :
    { inOperation [.ok []] with mode := .periodic }.mode ≠ .uninit ∧ (inOperation [.ok []]).mode ≠ .uninit ∧
    (inOperation [.ok []]).tmo = some .infinite ∧ (inOperation [.ok []]).draws = .ok [] :: [] ∧
    (inOperation [.err]).draws = .err :: [] := by decide

theorem witness_UninitOnlyByReset :
    let s : State := { statusOffered with mode := .uninit }
    ∃ t, step s = .next t ∧ ¬ ResetNext s ∧ t.mode = .uninit :=
  ⟨_, rfl, (by rintro ⟨rest, h⟩; cases h), rfl⟩

theorem witness_CheckIdentityFirstTry : (inOperation []).mode ≠ .uninit ∧ (inOperation []).tmo = some .infinite ∧
    ∃ ds acts bytes w0 w1 w2, (inOperation (ds ++ [])).draws = ds ++ [] ∧
      ReadGives [0x36, 0x82] .infinite ds acts bytes w0 w1 w2 :=
  ⟨by decide, rfl, _, _, _, _, _, _, rfl, gives_reply _⟩

/-- CHECK_IDENTITY accepted and not yet started. -/
def checking (ds : List Draw) : State := { inOperation ds with req := some 0x30000000 }

theorem checking_latched (ds : List Draw) : Latched (checking ds) .checkIdentity := ⟨_, rfl, by decide⟩

theorem witness_CheckIdentityRetrySucceeds (stop : Draw) (h : stop = .err ∨ stop = .ok []) :
    ∃ ds1 acts1 rx1 ph1 st1 k1 ds2 acts2 bytes w0 w1 w2, let s := checking (ds1 ++ stop :: (ds2 ++ []))
      s.mode ≠ .uninit ∧ s.tmo = some .infinite ∧ s.busy = true ∧ Latched s .checkIdentity ∧ s.command = none ∧
      Undisturbed s ∧ s.draws = ds1 ++ stop :: (ds2 ++ []) ∧ stop ≠ .stall ∧
      ReadFails [0x36, 0x82] .infinite ds1 acts1 rx1 ph1 st1 k1 ∧
      ReadGives [0x36, 0x82] .infinite ds2 acts2 bytes w0 w1 w2 := by
  refine ⟨_, _, _, _, _, _, _, _, _, _, _, _, (by decide : Mode.ready ≠ .uninit), rfl, rfl, checking_latched _, rfl,
    .inl rfl, rfl, ?_, fails_word0 _, gives_reply _⟩
  rcases h with rfl | rfl <;> decide

theorem witness_CheckIdentityRetryFails (stop : Draw) (h : stop = .err ∨ stop = .ok []) :
    ∃ ds1 acts1 rx1 ph1 st1 k1 ds2 acts2 rx2 ph2 st2 k2, let s := checking (ds1 ++ stop :: (ds2 ++ []))
      s.mode ≠ .uninit ∧ s.tmo = some .infinite ∧ s.busy = true ∧ Latched s .checkIdentity ∧ s.command = none ∧
      Undisturbed s ∧ s.draws = ds1 ++ stop :: (ds2 ++ []) ∧ stop ≠ .stall ∧
      ReadFails [0x36, 0x82] .infinite ds1 acts1 rx1 ph1 st1 k1 ∧
      ReadFails [0x36, 0x82] .infinite ds2 acts2 rx2 ph2 st2 k2 := by
  refine ⟨_, _, _, _, _, _, _, _, _, _, _, _, (by decide : Mode.ready ≠ .uninit), rfl, rfl, checking_latched _, rfl,
    .inl rfl, rfl, ?_, fails_word1 _, fails_length _ 8 (by decide)⟩
  rcases h with rfl | rfl <;> decide

theorem witness_UnusableIsSticky :
    let s : State := { statusOffered with unusable := true }
    (∃ t, step s = .next t) ∧ ¬ ResetNext s ∧ s.unusable = true :=
  ⟨⟨_, rfl⟩, (by rintro ⟨rest, h⟩; cases h), rfl⟩

theorem witness_BusOperationsFrame : busOps .checkIdentity = true ∧ (inOperation []).tmo.isSome = true := by decide

theorem witness_ResponsesAreWellFormed :
    let s : State := { statusOffered with responses := [⟨.checksumMismatch, 2, 0⟩, ⟨.ok, 0, 0xFFFFFFFFFFFF⟩] }
    (∃ t, step s = .next t) ∧ s.framerResult = none ∧ ∀ r ∈ s.responses, GoodResponse r := by
  refine ⟨⟨_, rfl⟩, rfl, ?_⟩
  intro r hr
  simp only [List.mem_cons, List.not_mem_nil, or_false] at hr
  rcases hr with rfl | rfl <;> simp [GoodResponse]

theorem witness_OneResponsePerOperation : (∃ t, step statusOffered = .next t) ∧ ¬ ResetNext statusOffered ∧
    let s : State := { ready with host := [.request 0x20000000 .infinite], draws := [.stall] }
    (∃ t, step s = .next t ∧ t.responses = s.responses) ∧ ¬ ResetNext s ∧ Offers s 0x20000000 .infinite [] :=
  ⟨⟨_, rfl⟩, statusOffered_no_reset, ⟨_, rfl, rfl⟩, (by rintro ⟨rest, h⟩; cases h), rfl, rfl⟩

/-! An operation left in progress in each phase in which a step can leave one. -/

/-- CHECK_IDENTITY or GET_TEMP_OFFSET in progress in a phase, with these outcomes to come. -/
def inPhase (ph : Phase) (w : Word32) (frame : List Byte) (ds : List Draw) : State :=
  { ready with
    busy := true, phase := ph, req := some w, tmo := some (.bounded 1), txbuf := some frame, draws := ds }

theorem ready_ne_uninit : Mode.ready ≠ .uninit := by decide

theorem inPhase_inv (ph : Phase) (w : Word32) (frame : List Byte) (ds : List Draw) (hf : frame.length ≤ 5)
    (hp : PhaseMeans (inPhase ph w frame ds)) : Inv (inPhase ph w frame ds) :=
  { phase := hp, latched := fun _ => ⟨rfl, rfl⟩, errWord := (by decide : (0 : BitVec 2) ≠ 3), errWordZero := fun _ => rfl
    txbuf := fun f h => by cases h; exact hf, framer := ⟨rfl, rfl⟩ }

theorem inPhase_no_reset (ph : Phase) (w : Word32) (frame : List Byte) (ds : List Draw) :
    ¬ ResetNext (inPhase ph w frame ds) := by rintro ⟨rest, h⟩; cases h

theorem inPhase_checking (ph : Phase) (frame : List Byte) (ds : List Draw) :
    Latched (inPhase ph 0x30000000 frame ds) .checkIdentity := ⟨_, rfl, by decide⟩

theorem inPhase_tx_inv (ds : List Draw) : Inv (inPhase .tx 0x30000000 [0x36, 0x82] ds) :=
  inPhase_inv _ _ _ _ (by decide)
    ⟨rfl, ready_ne_uninit, .checkIdentity, .getSerial, ⟨inPhase_checking .., rfl, by decide, nofun⟩, by decide⟩

theorem inPhase_rx_inv (ds : List Draw) : Inv (inPhase .rx 0x60000000 [0xEC, 0x05] ds) :=
  inPhase_inv _ _ _ _ (by decide)
    ⟨rfl, ready_ne_uninit, .readSample, .readMeasurement, ⟨⟨_, rfl, by decide⟩, rfl, by decide, nofun⟩, rfl⟩

theorem inPhase_txrx_inv (ds : List Draw) : Inv (inPhase .txrx 0x80000000 [0x23, 0x18] ds) :=
  inPhase_inv _ _ _ _ (by decide)
    ⟨rfl, ready_ne_uninit, .getTempOffset, ⟨_, rfl, by decide⟩, rfl, by decide, nofun⟩

theorem inPhase_settle1_inv (ds : List Draw) : Inv (inPhase .settle1 0x30000000 [0x36, 0x82] ds) :=
  inPhase_inv _ _ _ _ (by decide) ⟨rfl, ready_ne_uninit, inPhase_checking .., rfl⟩

theorem inPhase_settle2_inv (ds : List Draw) : Inv (inPhase .settle2 0x30000000 [0x3F, 0x86] ds) :=
  inPhase_inv _ _ _ _ (by decide) ⟨rfl, ready_ne_uninit, inPhase_checking .., rfl⟩

theorem inPhase_exec_inv (w : Word32) (ds : List Draw) : Inv (inPhase .exec w [] ds) :=
  inPhase_inv _ _ _ _ (by decide) ⟨rfl, rfl⟩

/-- A call of CHECK_IDENTITY's retry in flight: its transmit, or its receive. -/
def inRetry (ph : Phase) (ds : List Draw) : State :=
  { inPhase ph 0x30000000 [0x36, 0x82] ds with attempt := true }

theorem inRetry_inv (ph : Phase) (h : ph = .tx ∨ ph = .rx) (ds : List Draw) : Inv (inRetry ph ds) := by
  refine { phase := ?_, latched := fun _ => ⟨rfl, rfl⟩, errWord := (by decide : (0 : BitVec 2) ≠ 3)
           errWordZero := fun _ => rfl, txbuf := fun f h => (by cases h; decide), framer := ⟨rfl, rfl⟩ }
  rcases h with rfl | rfl
  · exact ⟨rfl, ready_ne_uninit, .checkIdentity, .getSerial, ⟨⟨_, rfl, by decide⟩, rfl, by decide, fun _ => ⟨rfl, rfl⟩⟩,
      by decide⟩
  · exact ⟨rfl, ready_ne_uninit, .checkIdentity, .getSerial, ⟨⟨_, rfl, by decide⟩, rfl, by decide, fun _ => ⟨rfl, rfl⟩⟩,
      rfl⟩

/-- The second statement of CheckIdentityRetryFails: an ERR to either call, and a reply that is too short. -/
theorem witness_CheckIdentityRetryFails_delayed :
    (∀ ph, ph = .tx ∨ ph = .rx → let s := inRetry ph [.err]
      Inv s ∧ s.attempt = true ∧ Undisturbed s ∧ s.draws = .err :: []) ∧
    let s := inRetry .rx [.ok (List.replicate 8 0)]
    Inv s ∧ s.attempt = true ∧ Undisturbed s ∧ s.phase = .rx ∧ s.draws = .ok (List.replicate 8 0) :: [] ∧
      ReadFails [0x36, 0x82] .infinite [.ok [], .ok (List.replicate 8 0)] [.tx [0x36, 0x82] .infinite, .rx 9 .infinite]
        (some (List.replicate 8 0)) .decode .protocolViolation 0 :=
  ⟨fun ph h => ⟨inRetry_inv ph h _, rfl, .inl rfl, rfl⟩, inRetry_inv _ (.inr rfl) _, rfl, .inl rfl, rfl, rfl,
    fails_length _ 8 (by decide)⟩

theorem witness_ModeTransitionTable : (inOperation [.ok []]).busy = true ∧
    (∃ t, exec .attach { inOperation [] with mode := .uninit } = .next t) ∧
    (∃ t, exec .startPeriodic (inOperation [.ok []]) = .next t) ∧
    (∃ t, exec .stopPeriodic (inOperation [.err]) = .next t) ∧
    (∃ t, exec .checkIdentity (inOperation [.err]) = .next t) ∧
    (∃ t, exec .readSample (inOperation [.stall]) = .next t) ∧
    let s := inPhase .settle1 0x30000000 [0x36, 0x82] [.ok []]
    Inv s ∧ s.busy = true ∧ Latched s .checkIdentity ∧ ¬ ResetNext s ∧
      ∃ t, step s = .next t ∧ t.mode = .ready ∧ t.phase = .settle2 :=
  ⟨rfl, ⟨_, rfl⟩, ⟨_, rfl⟩, ⟨_, rfl⟩, ⟨_, rfl⟩, ⟨_, rfl⟩, inPhase_settle1_inv _, rfl, inPhase_checking ..,
    inPhase_no_reset _ _ _ _, _, rfl, rfl, rfl⟩

theorem witness_RecoveryIsBounded : (∃ t, exec .checkIdentity (checking [.ok [], .ok bad1]) = .next t) ∧
    let s := inPhase .settle1 0x30000000 [0x36, 0x82] [.ok []]
    Inv s ∧ s.busy = true ∧ Latched s .checkIdentity ∧ s.tmo = some (.bounded 1) ∧ ¬ ResetNext s ∧
      ∃ t, step s = .next t ∧ t.busy = true :=
  ⟨⟨_, rfl⟩, inPhase_settle1_inv _, rfl, inPhase_checking .., rfl, inPhase_no_reset _ _ _ _, _, rfl, rfl⟩

theorem witness_NoOtherOperationRetries : busOps .readSample = true ∧ Instr.readSample ≠ .checkIdentity ∧
    (inOperation []).tmo = some .infinite ∧ (∃ t, exec .readSample (inOperation [.ok [], .err]) = .next t) ∧
    let s := inPhase .rx 0x60000000 [0xEC, 0x05] [.err]
    Inv s ∧ s.busy = true ∧ Latched s .readSample ∧ s.tmo = some (.bounded 1) ∧ ¬ ResetNext s ∧
      ∃ t, step s = .next t :=
  ⟨rfl, by decide, rfl, ⟨_, rfl⟩, inPhase_rx_inv _, rfl, ⟨_, rfl, by decide⟩, rfl, inPhase_no_reset _ _ _ _, _, rfl⟩

/-- In the step that starts, and in one that goes on: from SETTLE2, or in the retry's transmit or receive. -/
theorem witness_SerialValueDoesNotBranch (v0 v1 v2 : Word16) : let d : Draw := .ok (enc v0 ++ enc v1 ++ enc v2)
    (∃ t, exec .identify (inOperation [.ok [], d]) = .next t) ∧
    (∃ t, exec .checkIdentity (inOperation [.ok [], d]) = .next t) ∧
    (let s := inPhase .settle2 0x30000000 [0x3F, 0x86] [];
      Inv s ∧ Latched s .checkIdentity ∧ s.phase = .settle2 ∧ ∃ t, step { s with draws := [.ok [], d] } = .next t) ∧
    (let s := inRetry .tx [];
      Inv s ∧ Latched s .checkIdentity ∧ s.phase = .tx ∧ inFlight s = some .getSerial ∧
        ∃ t, step { s with draws := [.ok [], d] } = .next t) ∧
    let s := inRetry .rx []
    Inv s ∧ Latched s .checkIdentity ∧ s.phase = .rx ∧ ∃ t, step { s with draws := [d] } = .next t :=
  ⟨⟨_, rfl⟩, ⟨_, rfl⟩, ⟨inPhase_settle2_inv _, inPhase_checking .., rfl, _, rfl⟩,
    ⟨inRetry_inv _ (.inl rfl) _, ⟨_, rfl, by decide⟩, rfl, rfl, _, rfl⟩,
    inRetry_inv _ (.inr rfl) _, ⟨_, rfl, by decide⟩, rfl, _, rfl⟩

theorem witness_StalledCallBlocks : ∃ s1 s2 s3 s4 s5 : State,
    (∀ s ∈ [s1, s2, s3, s4, s5], s.host = [] ∧ s.tmo = some (.bounded 1) ∧ s.draws = .stall :: []) ∧
    (Inv s1 ∧ s1.phase = .tx) ∧ (Inv s2 ∧ s2.phase = .rx) ∧ (Inv s3 ∧ s3.phase = .txrx) ∧
    (Inv s4 ∧ s4.phase = .settle1) ∧ (Inv s5 ∧ s5.phase = .settle2) := by
  refine ⟨_, _, _, _, _, ?_, ⟨inPhase_tx_inv [.stall], rfl⟩, ⟨inPhase_rx_inv [.stall], rfl⟩,
    ⟨inPhase_txrx_inv [.stall], rfl⟩, ⟨inPhase_settle1_inv [.stall], rfl⟩, ⟨inPhase_settle2_inv [.stall], rfl⟩⟩
  simp [inPhase, ready, State.reset]

theorem witness_RequestHeldWhileBusy :
    let s : State := { inPhase .tx 0x30000000 [0x36, 0x82] [.stall] with host := [.request 0x20000000 .infinite] }
    s.busy = true ∧ s.host = .request 0x20000000 .infinite :: [] ∧ ∃ t, step s = .next t := ⟨rfl, rfl, _, rfl⟩

theorem witness_TimeoutPassedUnchanged :
    ∃ t, step (inPhase .settle2 0x30000000 [0x3F, 0x86] [.ok [], .err]) = .next t ∧ t.bus.length = 2 ∧
      ¬ ResetNext (inPhase .settle2 0x30000000 [0x3F, 0x86] [.ok [], .err]) :=
  ⟨_, rfl, rfl, (by rintro ⟨rest, h⟩; cases h)⟩

theorem witness_OnlyCatalogFramesTransmitted :
    ∃ t, step (inPhase .settle1 0x30000000 [0x36, 0x82] [.ok []]) = .next t ∧ t.bus.length = 2 := ⟨_, rfl, rfl⟩

/-- The first call; and a step that stops at the first call, at the stop, at the retry's receive, at the combined call. -/
theorem witness_DelayedCallChangesNothing :
    (let s := checking [];
      busOps .checkIdentity = true ∧ Latched s .checkIdentity ∧ s.tmo.isSome = true ∧ s.mode ≠ .uninit ∧
      s.busy = true ∧ s.attempt = false ∧ s.command = none ∧ s.framerResult = none ∧ s.host = []) ∧
    ∀ (s : State) (pre : List Draw) (ph : Phase), (s, pre, ph) ∈
      [(inPhase .exec 0x20000000 [] [.stall], [], .tx),
        (inPhase .settle1 0x30000000 [0x36, 0x82] [.stall], [], .tx),
        (inPhase .settle2 0x30000000 [0x3F, 0x86] [.ok [], .stall], [.ok []], .rx),
        (inPhase .txrx 0x80000000 [0x23, 0x18] [.stall], [], .txrx)] →
      Inv s ∧ ¬ ResetNext s ∧ s.draws = pre ++ .stall :: [] ∧ .stall ∉ pre ∧
        ∃ t, step s = .next t ∧ t.phase = ph ∧ Undisturbed t := by
  refine ⟨⟨rfl, checking_latched _, rfl, by decide, rfl, rfl, rfl, rfl, rfl⟩, ?_⟩
  intro s pre ph h
  simp only [List.mem_cons, List.not_mem_nil, or_false, Prod.mk.injEq] at h
  rcases h with ⟨rfl, rfl, rfl⟩ | ⟨rfl, rfl, rfl⟩ | ⟨rfl, rfl, rfl⟩ | ⟨rfl, rfl, rfl⟩
  · exact ⟨inPhase_exec_inv _ _, inPhase_no_reset _ _ _ _, rfl, by decide, _, rfl, rfl, .inl rfl⟩
  · exact ⟨inPhase_settle1_inv _, inPhase_no_reset _ _ _ _, rfl, by decide, _, rfl, rfl, .inl rfl⟩
  · exact ⟨inPhase_settle2_inv _, inPhase_no_reset _ _ _ _, rfl, by decide, _, rfl, rfl, .inl rfl⟩
  · exact ⟨inPhase_txrx_inv _, inPhase_no_reset _ _ _ _, rfl, by decide, _, rfl, rfl, .inl rfl⟩

theorem witness_StepRunsDecodedInstruction :
    (Offers statusOffered 0xD0000000 .infinite [] ∧ decodeRequest 0xD0000000 = .ok .readStatus) ∧
    let s : State := { inOperation [] with command := some ⟨0x241D, 0xFFFF⟩ }
    s.busy = true ∧ s.host = [] ∧ s.command = some ⟨0x241D, 0xFFFF⟩ ∧
      decodeCommand 0x241D 0xFFFF = .ok (.cmdSetTempOffset 0xFFFF) :=
  ⟨⟨⟨rfl, rfl⟩, by decide⟩, rfl, rfl, rfl, by decide⟩

theorem witness_ResetAbandonsOperation :
    { inPhase .settle2 0x30000000 [0x3F, 0x86] [] with host := [.reset] }.host = .reset :: [] := rfl

theorem witness_InvariantKept : Inv (inPhase .rx 0x60000000 [0xEC, 0x05] [.ok good]) ∧
    ∃ t, step (inPhase .rx 0x60000000 [0xEC, 0x05] [.ok good]) = .next t := ⟨inPhase_rx_inv _, _, rfl⟩

theorem witness_NoRunStops : Inv (inPhase .settle1 0x30000000 [0x36, 0x82] []) := inPhase_settle1_inv _

/-- An offset of 4.0 (section 2.6: q = 1497.9657…, raw 0x05DA), and the half 175/131072 (raw 0x0001). -/
theorem witness_OffsetDomain :
    offsetToRaw 0x4010000000000000 = some 0x05DA ∧ offsetToRaw 0x3F55E00000000000 = some 0x0001 ∧
    (match offsetQuotient 0x4010000000000000 with | .fin _ _ _ => true | _ => false) = true ∧
    offsetQuotient 0x3F55E00000000000 = .fin false (2 ^ 52) (-53) := by decide +kernel

/-- 1, the least quotient that is an infinity, and 0. -/
theorem witness_RoundingIsToNearest : 0 < 1 ∧ ((1 : Nat) : ℚ) / (1 : Nat) < (2 ^ 54 - 1) * 2 ^ 970 ∧
    ((2 : ℚ) ^ 54 - 1) * 2 ^ 970 ≤ (((2 ^ 54 - 1) * 2 ^ 970 : Nat) : ℚ) / (1 : Nat) := by
  refine ⟨by decide, ?_, ?_⟩
  · generalize 970 = k
    have h : (1 : ℚ) ≤ 2 ^ k := one_le_pow₀ (by norm_num)
    calc ((1 : Nat) : ℚ) / (1 : Nat) < (2 ^ 54 - 1) * 1 := by norm_num
      _ ≤ _ := by gcongr
  · generalize 970 = k
    rw [Nat.cast_mul, Nat.cast_pow, Nat.cast_one, div_one]
    exact mul_le_mul_of_nonneg_right (by norm_num) (by positivity)

theorem witness_TenthsRoundTrip : 0 < 1000 ∧ 999 < 1000 := by decide

end Sys2Proof.Tests
end

section
/-!
The invariant of the block's state (10_state.md R28 to R33): what completing, accepting and going on with an operation
keep, and from it the statements InvariantAtReset, InvariantKept and ResetValues.
-/

namespace Sys2Proof.Proofs

open Sys2Proof.Machine Sys2Proof.Safety Sys2Proof.Laws

/-! ### The parts of the invariant -/

/-- The part of `Inv` that does not speak of the operation in progress: LAST_STATUS with LAST_ERR_WORD (R28), TXBUF's
size (R32) and the empty framer interface. -/
structure Registers (s : State) : Prop where
  errWord : s.lastErrWord ≠ 3
  errWordZero : s.lastStatus ≠ .checksumMismatch → s.lastErrWord = 0
  txbuf : ∀ f, s.txbuf = some f → f.length ≤ 5
  framer : s.command = none ∧ s.framerResult = none

theorem inv_registers {s : State} (h : Inv s) : Registers s := ⟨h.errWord, h.errWordZero, h.txbuf, h.framer⟩

/-- MODE, UNUSABLE, the phase and ATTEMPT are not among these registers. -/
theorem Registers.update {s : State} (h : Registers s) (m : Mode) (u : Bool) (ph : Phase) (a : Bool) :
    Registers { s with mode := m, unusable := u, phase := ph, attempt := a } :=
  ⟨h.errWord, h.errWordZero, h.txbuf, h.framer⟩

/-- The block performs the latched operation `i` with the latched timeout `tmo` (R25, R33). -/
structure Performs (i : Instr) (tmo : Tmo) (s : State) : Prop where
  busy : s.busy = true
  latched : Latched s i
  tmo : s.tmo = some tmo

theorem Registers.inv {i : Instr} {tmo : Tmo} {s : State} (hr : Registers s) (hp : Performs i tmo s)
    (h : PhaseMeans s) : Inv s := by
  obtain ⟨w, hw, _⟩ := hp.latched
  exact ⟨h, fun _ => by simp [hw, hp.tmo], hr.errWord, hr.errWordZero, hr.txbuf, hr.framer⟩

theorem Performs.unique {i j : Instr} {tmo : Tmo} {s : State} (h : Performs i tmo s) (hj : Latched s j) : j = i := by
  obtain ⟨w, hw, hd⟩ := h.latched
  obtain ⟨w', hw', hd'⟩ := hj
  cases hw.symm.trans hw'
  cases hd.symm.trans hd'
  rfl

/-- BUSY = 0 only in phase IDLE, with ATTEMPT 0 (R30, R31). -/
theorem inv_idle {s : State} (h : Inv s) (hb : s.busy = false) : s.phase = .idle ∧ s.attempt = false := by
  have hp := h.phase
  cases hs : s.phase <;> simp_all [PhaseMeans]

/-- At the start of an operation ATTEMPT is 0 (R31). -/
theorem inv_exec {s : State} (h : Inv s) (hp : s.phase = .exec) : s.attempt = false := by
  have := h.phase
  simp only [PhaseMeans, hp] at this
  exact this.2

/-- The host's events are no part of the invariant. -/
theorem inv_host {s : State} (h : Inv s) (r : List HostEvent) : Inv { s with host := r } :=
  ⟨h.phase, h.latched, h.errWord, h.errWordZero, h.txbuf, h.framer⟩

theorem inv_reset : Inv State.reset :=
  ⟨⟨rfl, rfl⟩, fun h => (Bool.noConfusion h), (by decide : (0 : BitVec 2) ≠ 3), fun _ => rfl, nofun, ⟨rfl, rfl⟩⟩

/-- A reset leaves the reset state's own registers (R270). -/
theorem inv_doReset (s : State) : Inv (doReset s) :=
  ⟨inv_reset.phase, inv_reset.latched, inv_reset.errWord, inv_reset.errWordZero, inv_reset.txbuf, inv_reset.framer⟩

/-- A response ends in IDLE, where nothing is in progress (R244). -/
theorem inv_finish {s : State} (h : Registers s) (r : Response) : Inv (finish r s) :=
  ⟨⟨rfl, rfl⟩, fun hb => (Bool.noConfusion hb), h.errWord, h.errWordZero, h.txbuf, h.framer⟩

theorem inv_respond {s : State} (h : Registers s) {st : Status} {k : BitVec 2} {d : Word48}
    (hg : GoodResponse ⟨st, k, d⟩) : Inv (respond st k d s) :=
  inv_finish (s := s.recordStatus st k) ⟨hg.2.2, hg.2.1, h.txbuf, h.framer⟩ _

theorem goodResponse_error (st : Status) : GoodResponse ⟨st, 0, 0⟩ :=
  ⟨fun _ => rfl, fun _ => rfl, (by decide : (0 : BitVec 2) ≠ 3)⟩

theorem inv_raise {s : State} (h : Registers s) (st : Status) : Inv (raise st 0 s) :=
  inv_respond h (goodResponse_error st)

/-- An idle block that accepts a request stands at the start of its operation (R161). -/
theorem inv_accept {s : State} (h : Inv s) (hb : s.busy = false) (w : Word32) (tmo : Tmo) : Inv (accept w tmo s) :=
  ⟨⟨rfl, (inv_idle h hb).2⟩, fun _ => ⟨rfl, rfl⟩, h.errWord, h.errWordZero, h.txbuf, h.framer⟩

theorem inv_performs {i : Instr} {s : State} (h : Inv s) (hb : s.busy = true) (hl : Latched s i) :
    ∃ tmo, Performs i tmo s := by
  obtain ⟨tmo, ht⟩ := Option.isSome_iff_exists.1 (h.latched hb).2
  exact ⟨tmo, hb, hl, ht⟩

/-! ### What is in progress in each phase -/

/-- A transport call has been issued and has not completed (R30). -/
def AtCall (s : State) : Prop := s.phase = .tx ∨ s.phase = .rx ∨ s.phase = .txrx

theorem atCall_of_callPhase {c : Command} {s : State} (h : CallPhase c s.phase) : AtCall s := by
  cases c
  case getSerial => exact h.imp id .inl
  case readMeasurement => exact h.imp id .inl
  case getTempOffset => exact .inr (.inr h)
  all_goals exact .inl h

/-- Every command but the combined one begins with a transmit. -/
theorem callPhase_tx {c : Command} (h : c ≠ .getTempOffset) : CallPhase c .tx := by
  cases c <;> simp_all [CallPhase, commandShape]

/-- A call in flight in its command's phase is what that phase means. -/
theorem phaseMeans_call {i : Instr} {c : Command} {s : State} (hb : s.busy = true) (hm : s.mode ≠ .uninit)
    (hc : CallInFlight s i c) (hph : CallPhase c s.phase) : PhaseMeans s := by
  have tx : s.phase = .tx → c ≠ .getTempOffset → PhaseMeans s := fun h hne => by
    simp only [PhaseMeans, h]; exact ⟨hb, hm, i, c, hc, hne⟩
  have rx : s.phase = .rx → commandShape c = .txRx 3 → PhaseMeans s := fun h hs => by
    simp only [PhaseMeans, h]; exact ⟨hb, hm, i, c, hc, hs⟩
  cases c
  case getTempOffset =>
    have h : s.phase = .txrx := hph
    simp only [PhaseMeans, h]; exact ⟨hb, hm, i, hc⟩
  case getSerial => exact hph.elim (tx · (by decide)) (rx · rfl)
  case readMeasurement => exact hph.elim (tx · (by decide)) (rx · rfl)
  all_goals exact tx hph (by decide)

/-- At a call, it is a call of a command of the latched operation, in its own phase. -/
theorem inv_call {s : State} (h : Inv s) (hp : AtCall s) :
    s.mode ≠ .uninit ∧ ∃ i c, CallInFlight s i c ∧ CallPhase c s.phase := by
  have hm := h.phase
  rcases hp with hp | hp | hp <;> simp only [PhaseMeans, hp] at hm <;> rw [hp]
  · obtain ⟨_, hm, i, c, hc, hne⟩ := hm
    exact ⟨hm, i, c, hc, callPhase_tx hne⟩
  · obtain ⟨_, hm, i, c, hc, hs⟩ := hm
    exact ⟨hm, i, c, hc, by simp [CallPhase, hs]⟩
  · obtain ⟨_, hm, i, hc⟩ := hm
    exact ⟨hm, i, _, hc, rfl⟩

/-- In a settle wait CHECK_IDENTITY is in progress, with ATTEMPT 0. -/
theorem inv_settle {s : State} (h : Inv s) (hp : s.phase = .settle1 ∨ s.phase = .settle2) :
    s.mode ≠ .uninit ∧ Latched s .checkIdentity ∧ s.attempt = false := by
  have hm := h.phase
  rcases hp with hp | hp <;> simp only [PhaseMeans, hp] at hm <;> exact hm.2

/-- No rule leaves an operation in DECODE, STOP or RETRY. -/
theorem inv_phase_left {s : State} (h : Inv s) : s.phase ≠ .decode ∧ s.phase ≠ .stop ∧ s.phase ≠ .retry := by
  have hm := h.phase
  refine ⟨?_, ?_, ?_⟩ <;> intro hp <;> simp only [PhaseMeans, hp] at hm

/-- An operation in progress past its start has a call in flight or is in a settle wait. -/
theorem inv_inProgress {s : State} (h : Inv s) (hb : s.busy = true) (hx : s.phase ≠ .exec) :
    AtCall s ∨ s.phase = .settle1 ∨ s.phase = .settle2 := by
  have hm := h.phase
  cases hph : s.phase <;> simp_all [PhaseMeans, AtCall]

/-! ### Going on with an operation keeps the invariant -/

theorem baseOf_registers {tmo : Tmo} {s t : State} (h : BaseOf tmo s t) (hs : Registers s) : Registers t := by
  obtain ⟨m, u, a, b, rb, ph, ds, n, new, rfl, _, _, _, hb⟩ := h
  exact ⟨hs.errWord, hs.errWordZero, fun f hf => (hb f hf).elim (hs.txbuf f) id, hs.framer⟩

theorem baseOf_performs {i : Instr} {tmo tmo' : Tmo} {s t : State} (h : BaseOf tmo s t) (hs : Performs i tmo' s) :
    Performs i tmo' t := by
  obtain ⟨m, u, a, b, rb, ph, ds, n, new, rfl, _⟩ := h
  exact ⟨hs.busy, hs.latched, hs.tmo⟩

/-- Whatever an operation does with its transaction, the invariant holds after it: where the operation ran with the
ATTEMPT it was told (`ha`) and the command is one it sends. -/
theorem continued_inv {i : Instr} {c : Command} {tmo : Tmo} {s t : State} {acts : List Action}
    (h : Continued True i c s.attempt tmo s acts t) (hr : Registers s) (hp : Performs i tmo s) (hm : s.mode ≠ .uninit)
    (hc : c ∈ sends i) (ha : s.attempt = true → i = .checkIdentity ∧ c = .getSerial) : Inv t := by
  cases h with
  | waits ph hph hu =>
    have hpt := baseOf_performs hu.baseOf hp
    have hf := hu.moves.frame
    have hfl : inFlight t = some c := by obtain ⟨_, _, _, _, _, _, h⟩ := hu; exact h
    exact (baseOf_registers hu.baseOf hr).inv hpt (phaseMeans_call hpt.busy (hf.mode ▸ hm)
      ⟨hpt.latched, hfl, hc, fun h => ha (hf.attempt ▸ h)⟩ (hu.phase_eq ▸ hph))
  | responds u rest ph hu m x st k d hg hm' hme hx ht =>
    subst ht
    exact inv_respond ((baseOf_registers hu.baseOf hr).update m x _ _) (hg trivial)
  | settles1 u rest ph hu hi hc ha' ht =>
    subst hi ht
    have hb := hu.baseOf.trans (baseOf_settle tmo u .settle1)
    have hpt := baseOf_performs hb hp
    have hf := hu.moves.frame
    exact (baseOf_registers hb hr).inv hpt ⟨hpt.busy, hf.mode ▸ hm, hpt.latched, hf.attempt.trans ha'⟩
  | settles2 u rest ph hu hi hc' m hm' ht =>
    subst hi hc' ht
    have hne : m ≠ .uninit := by rcases hm' with rfl | rfl; exacts [hm, by decide]
    have hb := (hu.baseOf.trans (baseOf_end tmo u m u.unusable (.inr hne) id)).trans (baseOf_settle tmo _ .settle2)
    have hpt := baseOf_performs hb hp
    have hat : s.attempt = false := eq_false_of_ne_true fun h => by simpa using ha h
    exact (baseOf_registers hb hr).inv hpt ⟨hpt.busy, hne, hpt.latched, hu.moves.frame.attempt.trans hat⟩

/-- A request performed from its start keeps the invariant (R162). -/
theorem exec_inv {i : Instr} {s t : State} (h : Inv s) (hp : s.phase = .exec) (hb : s.busy = true) (hl : Latched s i)
    (ht : exec i s = .next t) : Inv t := by
  have hr := inv_registers h
  cases exec_cases ht with
  | answered m c st k r _ _ ht _ hg hst _ =>
    have hk : k ≠ 3 ∧ (st ≠ .checksumMismatch → k = 0) := by
      rcases hst with ⟨rfl, rfl⟩ | ⟨rfl, rfl⟩
      exacts [⟨h.errWord, h.errWordZero⟩, ⟨hg.2.2, hg.2.1⟩]
    exact ht ▸ inv_finish (s := { s with mode := m, crcAcc := c, lastStatus := st, lastErrWord := k })
      ⟨hk.1, hk.2, h.txbuf, h.framer⟩ r
  | refusedByMode _ _ ht => exact ht ▸ inv_raise hr _
  | operation hi hm tmo htm hc =>
    have ha : (entered i s).attempt = false := by simp [entered, inv_exec h hp]
    rw [← ha] at hc
    exact continued_inv hc (hr.update _ _ _ _) ⟨hb, hl, htm⟩ hm (firstCommand_mem hi) (by simp [ha])
  | wire hi => obtain ⟨w, _, hd⟩ := hl; rw [decodeRequest_isRequest hd] at hi; cases hi

/-- An operation that goes on keeps the invariant. -/
theorem resume_inv {s t : State} (h : Inv s) (hb : s.busy = true) (ht : resume s = .next t) : Inv t := by
  obtain ⟨w, i, tmo, hw, htm, hd, hcase⟩ := resume_cases ht
  have hr := inv_registers h
  have hp : Performs i tmo s := ⟨hb, ⟨w, hw, hd⟩, htm⟩
  obtain ⟨hdec, hstop, hretry⟩ := inv_phase_left h
  cases hcase with
  | takes c r hf => rw [h.framer.2] at hf; cases hf
  | goesOn c hph hc _ _ hcont =>
    obtain ⟨hm, j, c', ⟨hl, hfl, hs, ha⟩, _⟩ := inv_call h (by simpa [AtCall, hdec] using hph)
    obtain rfl := hp.unique hl
    cases hc.symm.trans hfl
    exact continued_inv hcont hr hp hm hs ha
  | stops hph hi hcont =>
    subst hi
    obtain ⟨hm, _, ha⟩ := inv_settle h (.inl (by simpa [hstop] using hph))
    exact continued_inv (s := { s with phase := .stop }) hcont
      (hr.update _ _ _ _) ⟨hb, hp.latched, htm⟩ hm (by decide) (by simp [ha])
  | retries hph hi hcont =>
    subst hi
    obtain ⟨hm, _, _⟩ := inv_settle h (.inr (by simpa [hretry] using hph))
    exact continued_inv (s := { s with phase := .retry, attempt := true }) hcont
      (hr.update _ _ _ _) ⟨hb, hp.latched, htm⟩ hm (by decide) (fun _ => ⟨rfl, rfl⟩)

/-- What a step finds to do from a state that meets the invariant: a step that is over and keeps the invariant; a
request at its start; or an operation to go on with. The framer's interface, a latch without a value and a refusal are
left out (R37). -/
inductive InvFetch (s : State) : Fetched → Prop where
  | done (t : State) (h : Inv t) (hph : t.phase = .idle) : InvFetch s (.done t)
  | starts (i : Instr) (u : State) (h : Inv u) (hph : u.phase = .exec) (hb : u.busy = true) (hl : Latched u i)
      (hr : u.responses = s.responses) : InvFetch s (.instr i u)
  | resumes (u : State) (h : Inv u) (hph : u.phase ≠ .exec) (hb : u.busy = true) (hr : u.responses = s.responses) :
      InvFetch s (.resume u)

theorem inv_fetch {s : State} (h : Inv s) : InvFetch s (fetch s) := by
  obtain ⟨hcmd, _⟩ := h.framer
  have hu := inv_host h
  have hf := fetch_case s
  generalize fetch s = f at *
  cases hf with
  | reset r => exact .done _ (inv_doReset _) rfl
  | idle r hb => exact .done _ (hu r) (inv_idle h hb).1
  | accepted w tmo r i ho hd => exact .starts i _ (inv_accept (hu r) ho.1 w tmo) rfl rfl ⟨w, rfl, hd⟩ rfl
  | acceptedIllegal w tmo r e ho => exact .done _ (inv_raise (inv_registers (inv_accept (hu r) ho.1 w tmo)) _) rfl
  | command r c i _ _ hc => rw [hcmd] at hc; cases hc
  | badCommand hc => exact absurd hcmd hc
  | start r w i hb _ _ hp hw hd => exact .starts i _ (hu r) hp hb ⟨w, hw, hd⟩ rfl
  | startIllegal r w e hb => exact .done _ (inv_raise (inv_registers (hu r)) _) rfl
  | noLatch hb hw => have := (h.latched hb).1; rw [hw] at this; cases this
  | resume r hb _ _ hp => exact .resumes _ (hu r) hp hb rfl

/-- Settles O54: each thing a step can find to do keeps the invariant. -/
theorem invariantKept : Obligations.InvariantKept := by
  intro s t h ht
  rw [step_eq] at ht
  have hf := inv_fetch h
  generalize fetch s = f at ht hf
  cases hf with
  | done t => cases ht; assumption
  | starts i u hu hph hb hl => exact exec_inv hu hph hb hl ht
  | resumes u hu _ hb => exact resume_inv hu hb ht

/-- Settles O53: every register is at its value of R36, and the phase is IDLE. -/
theorem invariantAtReset : Obligations.InvariantAtReset := inv_reset

/-- Settles O51: R36's table, read off the reset state. -/
theorem resetValues : Obligations.ResetValues :=
  ⟨rfl, rfl, rfl, rfl, rfl, rfl, rfl, rfl, rfl, rfl, rfl, rfl⟩

end Sys2Proof.Proofs
end

section
/-!
From a state that meets the invariant a step always goes on (R37): every request has a next state once the timeout is
latched, and so has an operation in each phase that the invariant allows.
-/

namespace Sys2Proof.Proofs

open Sys2Proof.Machine Sys2Proof.Safety Sys2Proof.Laws

/-- The rest of a transaction of command `c` in flight in phase `ph` (R142 to R146): the transmit of a command with a
separate reply is followed by its receive, any other transmit ends the transaction, and a receive is checked. -/
def restOf (c : Command) (ph : Phase) (tmo : Tmo) : State → Progress :=
  match ph, commandShape c with
  | .tx, .txRx n => awaitTx (receive n tmo)
  | .tx, _ => awaitTx (.done (.ok []))
  | _, _ => awaitReply (replyWords c)

/-- A call in flight in its command's phase is no fault, and goes on with the rest of its transaction. -/
theorem finishTransaction_call {c : Command} {s : State} (tmo : Tmo) (h : CallPhase c s.phase) :
    finishTransaction c tmo s = .ok (restOf c s.phase tmo s) := by
  unfold finishTransaction
  cases c
  case getSerial => rcases h with h | h <;> rw [h] <;> rfl
  case readMeasurement => rcases h with h | h <;> rw [h] <;> rfl
  all_goals rw [show s.phase = _ from h]; rfl

/-- An operation that finds no value of the framer goes on with the rest of its transaction. -/
theorem resumeTransaction_call {i : Instr} {c : Command} {s : State} (tmo : Tmo) (hc : inFlight s = some c)
    (hr : s.framerResult = none) (h : CallPhase c s.phase) :
    resumeTransaction i tmo s = continueOp i c s.attempt (restOf c s.phase tmo s) := by
  simp only [resumeTransaction, hc, hr, finishTransaction_call tmo h]

/-- Going on with the latched operation in a phase in which a call is in flight. -/
theorem resume_call {i : Instr} {tmo : Tmo} {s : State} (hp : Performs i tmo s)
    (hph : AtCall s) : resume s = resumeTransaction i tmo s := by
  obtain ⟨w, hw, hd⟩ := hp.latched
  rcases hph with h | h | h <;> simp only [resume, hw, hp.tmo, hd, h]

/-- Going on after a settle wait: the stop, or the retry. -/
theorem resume_settle {tmo : Tmo} {s : State} (hp : Performs .checkIdentity tmo s) :
    (s.phase = .settle1 → resume s = .next (innerStop tmo s)) ∧
    (s.phase = .settle2 → resume s = .next (retryIdentify tmo s)) := by
  obtain ⟨w, hw, hd⟩ := hp.latched
  constructor <;> intro h <;> simp only [resume, hw, hp.tmo, hd, h, if_true]

/-- An operation that sends a command is one of BUS_OPS. -/
theorem busOps_of_sends {i : Instr} {c : Command} (h : c ∈ sends i) : busOps i = true := by
  cases i <;> first | rfl | cases h

/-- A call of the latched operation `i` is in flight, in its command's phase, and the framer's interface is empty. -/
structure InCall (i : Instr) (tmo : Tmo) (s : State) : Prop where
  performs : Performs i tmo s
  framer : s.command = none ∧ s.framerResult = none
  busOp : busOps i = true
  call : ∃ c, inFlight s = some c ∧ CallPhase c s.phase

theorem InCall.draws {i : Instr} {tmo : Tmo} {s : State} (h : InCall i tmo s) (ds : List Draw) :
    InCall i tmo { s with draws := ds } :=
  ⟨⟨h.performs.busy, h.performs.latched, h.performs.tmo⟩, h.framer, h.busOp, h.call⟩

/-- What `g` answers to the outcomes to come is what going on answers from a state with a call just issued: `g` is one
transaction of operation `i`, whose caller's state is `s`. -/
def RunsCall (i : Instr) (tmo : Tmo) (s : State) (g : List Draw → Host.Outcome State Fault Refusal) : Prop :=
  ∃ v, InCall i tmo v ∧ v.responses = s.responses ∧ v.host = s.host ∧
    ∀ ds, g ds = resumeTransaction i tmo { v with draws := ds }

/-- A transaction has a next state whatever the outcomes are. -/
theorem runsCall_next {i : Instr} {tmo : Tmo} {s : State} {g : List Draw → Host.Outcome State Fault Refusal}
    (h : RunsCall i tmo s g) (ds : List Draw) : ∃ t, g ds = .next t := by
  obtain ⟨v, hv, _, _, hg⟩ := h
  obtain ⟨c, hc, hph⟩ := hv.call
  rw [hg, resumeTransaction_call (s := { v with draws := ds }) tmo hc hv.framer.2 hph]
  exact continueOp_next hv.busOp c _ _

/-- A transaction that begins with the transmit of the frame `f` of command `c`. -/
theorem runsCall_tx {i : Instr} {tmo : Tmo} {s : State} {g : List Draw → Host.Outcome State Fault Refusal}
    {f : List Byte} (c : Command) (hp : Performs i tmo s) (hf : s.command = none ∧ s.framerResult = none)
    (hi : busOps i = true) (hc : ∀ u : State, u.txbuf = some f → inFlight u = some c) (hph : CallPhase c .tx)
    (hg : ∀ ds, g ds = continueOp i c s.attempt (restOf c .tx tmo { issueTx f tmo s with draws := ds })) :
    RunsCall i tmo s g :=
  ⟨issueTx f tmo s, ⟨⟨hp.busy, hp.latched, hp.tmo⟩, hf, hi, c, hc _ rfl, hph⟩, rfl, rfl, fun ds =>
    (hg ds).trans (resumeTransaction_call (s := { issueTx f tmo s with draws := ds }) tmo (hc _ rfl) hf.2 hph).symm⟩

/-- An operation of BUS_OPS outside UNINIT is one transaction from its start. -/
theorem exec_runsCall {i : Instr} {tmo : Tmo} {s : State} (hi : busOps i = true) (hm : s.mode ≠ .uninit)
    (hp : Performs i tmo s) (hf : s.command = none ∧ s.framerResult = none) :
    RunsCall i tmo s fun ds => exec i { s with draws := ds } := by
  have hbus : ∀ ds body, busOp { s with draws := ds } body = .next (body tmo { s with draws := ds }) := by
    intro ds body; simp [busOp, hm, withTmo, hp.tmo]
  cases i
  case identify => exact runsCall_tx .getSerial hp hf hi (inFlight_frameCmd _) (.inl rfl) fun ds => hbus ds _
  case checkIdentity =>
    exact runsCall_tx (s := { s with attempt := false }) .getSerial ⟨hp.busy, hp.latched, hp.tmo⟩ hf hi
      (inFlight_frameCmd _) (.inl rfl) fun ds => hbus ds _
  case startPeriodic => exact runsCall_tx .startPeriodic hp hf hi (inFlight_frameCmd _) rfl fun ds => hbus ds _
  case stopPeriodic => exact runsCall_tx .stopPeriodic hp hf hi (inFlight_frameCmd _) rfl fun ds => hbus ds _
  case readSample => exact runsCall_tx .readMeasurement hp hf hi (inFlight_frameCmd _) (.inl rfl) fun ds => hbus ds _
  case setTempOffset v => exact runsCall_tx .setTempOffset hp hf hi (inFlight_frameSet _ v) rfl fun ds => hbus ds _
  case getTempOffset =>
    have hc : ∀ u : State, u.txbuf = some (frameCmd Command.getTempOffset.code) → inFlight u = some .getTempOffset :=
      inFlight_frameCmd _
    refine ⟨issueTxRx (frameCmd Command.getTempOffset.code) 1 tmo s,
      ⟨⟨hp.busy, hp.latched, hp.tmo⟩, hf, hi, _, hc _ rfl, rfl⟩, rfl, rfl, fun ds => (hbus ds _).trans ?_⟩
    exact (resumeTransaction_call (i := .getTempOffset) (s := { issueTxRx _ 1 tmo s with draws := ds }) tmo
      (hc _ rfl) hf.2 rfl).symm
  all_goals exact Bool.noConfusion hi

/-- An operation that goes on is one transaction: the one in flight, the stop, or the retry. -/
theorem resume_runsCall {s : State} (h : Inv s) (hb : s.busy = true) (hx : s.phase ≠ .exec) :
    ∃ i tmo, RunsCall i tmo s fun ds => resume { s with draws := ds } := by
  have settled (hph : s.phase = .settle1 ∨ s.phase = .settle2) :
      ∃ tmo, ∀ ds, Performs .checkIdentity tmo { s with draws := ds } := by
    obtain ⟨_, hl, _⟩ := inv_settle h hph
    obtain ⟨tmo, hp⟩ := inv_performs h hb hl
    exact ⟨tmo, fun ds => ⟨hp.busy, hp.latched, hp.tmo⟩⟩
  rcases inv_inProgress h hb hx with hph | hph | hph
  · obtain ⟨_, i, c, ⟨hl, hc, hs, _⟩, hcp⟩ := inv_call h hph
    obtain ⟨tmo, hp⟩ := inv_performs h hb hl
    have hv : InCall i tmo s := ⟨hp, h.framer, busOps_of_sends hs, c, hc, hcp⟩
    exact ⟨i, tmo, s, hv, rfl, rfl, fun ds => resume_call (hv.draws ds).performs hph⟩
  · obtain ⟨tmo, hp⟩ := settled (.inl hph)
    have hp' := hp s.draws
    exact ⟨_, tmo, runsCall_tx (s := { s with phase := .stop }) .stopPeriodic
      ⟨hp'.busy, hp'.latched, hp'.tmo⟩ h.framer rfl (inFlight_frameCmd _) rfl
      fun ds => (resume_settle (hp ds)).1 hph⟩
  · obtain ⟨tmo, hp⟩ := settled (.inr hph)
    have hp' := hp s.draws
    exact ⟨_, tmo, runsCall_tx (s := { s with phase := .retry, attempt := true }) .getSerial
      ⟨hp'.busy, hp'.latched, hp'.tmo⟩ h.framer rfl (inFlight_frameCmd _) (.inl rfl)
      fun ds => (resume_settle (hp ds)).2 hph⟩

/-- Every host request has a next state once its timeout is latched. -/
theorem exec_next {i : Instr} {s : State} {tmo : Tmo} (hi : i.isRequest = true) (ht : s.tmo = some tmo) :
    ∃ t, exec i s = .next t := by
  cases hb : busOps i with
  | false =>
    obtain ⟨m, c, st, k, r, he, _⟩ := exec_local i s hi hb
    exact ⟨_, he⟩
  | true =>
    by_cases hm : s.mode = .uninit
    · exact ⟨_, exec_busOp_uninit i s hb hm⟩
    · obtain ⟨t, he, _⟩ := exec_busOp_cases i tmo s hb hm ht
      exact ⟨t, he⟩

/-- Settles O55: each thing a step can find to do has a next state. -/
theorem noRunStops : Obligations.NoRunStops := by
  intro s h
  rw [step_eq]
  have hf := inv_fetch h
  generalize fetch s = f at hf ⊢
  cases hf with
  | done t => exact ⟨t, rfl⟩
  | starts i u hu hph hb hl =>
    obtain ⟨tmo, hp⟩ := inv_performs hu hb hl
    obtain ⟨w, _, hd⟩ := hl
    exact exec_next (decodeRequest_isRequest hd) hp.tmo
  | resumes u hu hph hb =>
    obtain ⟨i, tmo, hrun⟩ := resume_runsCall hu hb hph
    exact runsCall_next hrun u.draws

end Sys2Proof.Proofs
end

section
/-!
What every step but a reset keeps, in any state: UNUSABLE is never cleared (R24), and CRC_ACC is written by CRC_INIT and
CRC_FEED alone (R26).
-/

namespace Sys2Proof.Proofs

open Sys2Proof.Machine Sys2Proof.Safety Sys2Proof.Laws

/-- From `s` to `t` CRC_ACC stays and UNUSABLE is not cleared. -/
structure Keeps (s t : State) : Prop where
  crcAcc : t.crcAcc = s.crcAcc
  unusable : s.unusable = true → t.unusable = true

theorem keeps_of_baseOf {tmo : Tmo} {s t : State} (h : BaseOf tmo s t) : Keeps s t := by
  obtain ⟨m, u, a, b, rb, ph, ds, n, new, rfl, _, hu, _⟩ := h
  exact ⟨rfl, hu⟩

/-- An operation of BUS_OPS keeps them, whether it waits or responds. -/
theorem keeps_of_opRan {H : Prop} {tmo : Tmo} {s t : State} (h : OpRan H tmo s t) : Keeps s t := by
  rcases h with ⟨hb, _⟩ | ⟨st, k, d, u, hb, _, rfl⟩
  · exact keeps_of_baseOf hb
  · exact ⟨(keeps_of_baseOf hb).crcAcc, (keeps_of_baseOf hb).unusable⟩

/-- A wire command keeps them: a transaction changes only what `Moves` says, and the framer's value is handed over. -/
theorem keeps_handOver {H : Prop} {c : Command} {tmo : Tmo} {s : State} {acts : List Action} {p : Progress}
    (h : Transacts H c tmo s acts p) : Keeps s (handOver p) := by
  have hm := h.moves
  cases p with
  | waiting t => exact ⟨hm.frame.crcAcc, hm.frame.unusable.trans⟩
  | done r t => exact ⟨hm.frame.crcAcc, hm.frame.unusable.trans⟩

/-- Every instruction keeps UNUSABLE, and every one but CRC_INIT and CRC_FEED keeps CRC_ACC. -/
theorem exec_keeps {i : Instr} {s t : State} (h : exec i s = .next t) :
    (s.unusable = true → t.unusable = true) ∧
      ((i ≠ .crcInit ∧ ∀ b, i ≠ .crcFeed b) → t.crcAcc = s.crcAcc) := by
  cases exec_cases h with
  | answered m c st k r _ _ ht _ _ _ hc => subst ht; exact ⟨id, hc⟩
  | refusedByMode _ _ ht => subst ht; exact ⟨id, fun _ => rfl⟩
  | operation _ _ tmo _ hc =>
    have hk := keeps_of_opRan hc.ran
    exact ⟨hk.unusable, fun _ => hk.crcAcc⟩
  | wire _ tmo _ c acts p ht hp =>
    subst ht
    have hk := keeps_handOver hp
    exact ⟨hk.unusable, fun _ => hk.crcAcc⟩

/-- An operation that goes on keeps both. -/
theorem resume_keeps {s t : State} (h : resume s = .next t) : Keeps s t := by
  obtain ⟨tmo, u, _, hu, hran⟩ := resume_ran h
  have hk := keeps_of_opRan hran
  rcases hu with rfl | rfl
  · exact hk
  · exact ⟨hk.crcAcc, hk.unusable⟩

/-- The state in which a step finds something to do keeps both. -/
def FoundKeeping (s : State) : Fetched → Prop
  | .instr _ u => Keeps s u
  | .resume u => Keeps s u
  | .done u => Keeps s u
  | .fault _ => True
  | .refused _ => True

/-- Short of a reset, finding what to do writes neither: it moves the host's list, latches a request or responds. -/
theorem fetch_keeps {s : State} (hr : ¬ ResetNext s) : FoundKeeping s (fetch s) := by
  have hf := fetch_case s
  generalize fetch s = f at hf
  cases hf with
  | reset r h => exact absurd ⟨r, h⟩ hr
  | badCommand => trivial
  | noLatch => trivial
  | _ => exact ⟨rfl, id⟩

/-- What every step but a reset keeps. -/
theorem step_keeps {s t : State} (h : step s = .next t) (hr : ¬ ResetNext s) :
    (s.unusable = true → t.unusable = true) ∧
      ((∀ i u, fetch s = .instr i u → i ≠ .crcInit ∧ ∀ b, i ≠ .crcFeed b) → t.crcAcc = s.crcAcc) := by
  have hk := fetch_keeps hr
  rw [step_eq] at h
  generalize fetch s = f at h hk ⊢
  cases f with
  | instr i u =>
    obtain ⟨hu, hc⟩ := exec_keeps h
    exact ⟨fun hs => hu (hk.unusable hs), fun hi => (hc (hi i u rfl)).trans hk.crcAcc⟩
  | resume u =>
    have hk' := resume_keeps h
    exact ⟨fun hs => hk'.unusable (hk.unusable hs), fun _ => hk'.crcAcc.trans hk.crcAcc⟩
  | done u => cases h; exact ⟨hk.unusable, fun _ => hk.crcAcc⟩
  | fault r => cases h
  | refused r => cases h

/-- Settles O15: of the instructions a step can run, only CRC_INIT and CRC_FEED write CRC_ACC (`step_keeps`). -/
theorem onlyCrcOperationsWriteCrcAcc : Obligations.OnlyCrcOperationsWriteCrcAcc := by
  intro s t h hr hinit hfeed
  refine (step_keeps h hr).2 fun i u hf => ⟨?_, fun b => ?_⟩
  · rintro rfl; exact hinit u hf
  · rintro rfl; exact hfeed b u hf

/-- Settles O40: no instruction clears UNUSABLE, and none of the other things a step does (`step_keeps`). -/
theorem unusableIsSticky : Obligations.UnusableIsSticky := fun _ _ h hr => (step_keeps h hr).1

end Sys2Proof.Proofs
end

section
/-!
A call that completes only in a later step makes no difference (R30, R61): one transaction that stops at an outcome
still to come goes on from there as it would have gone on at once.
-/

namespace Sys2Proof.Proofs

open Sys2Proof.Machine Sys2Proof.Safety Sys2Proof.Laws

theorem not_atCall_idle {s : State} (h : s.phase = .idle) : ¬ AtCall s := by simp [AtCall, h]

/-! ### One outcome of a transaction in flight -/

/-- The rest of a transaction is a last transmit, a transmit before a receive, or a receive. -/
theorem restOf_cases (c : Command) (ph : Phase) (tmo : Tmo) :
    restOf c ph tmo = awaitTx (.done (.ok [])) ∨
    (∃ n, commandShape c = .txRx n ∧ restOf c ph tmo = awaitTx (receive n tmo)) ∨
    restOf c ph tmo = awaitReply (replyWords c) := by
  unfold restOf
  split
  · exact .inr (.inl ⟨_, ‹_›, rfl⟩)
  · exact .inl rfl
  · exact .inr (.inr rfl)

/-- A call that has not completed leaves the transaction where it is (R56). -/
theorem restOf_stall (c : Command) (ph : Phase) (tmo : Tmo) (s : State) (ds : List Draw) :
    restOf c ph tmo { s with draws := .stall :: ds } = .waiting { s with draws := ds } := by
  rcases restOf_cases c ph tmo with h | ⟨n, _, h⟩ | h <;> rw [h] <;> rfl

theorem awaitReply_complete (n : Nat) (s : State) {d : Draw} (hd : d ≠ .stall) (ds : List Draw) :
    ∃ r u, awaitReply n { s with draws := d :: ds } = .done r u := by
  cases d with
  | stall => exact absurd rfl hd
  | err => exact ⟨_, _, rfl⟩
  | ok bytes =>
    simp only [awaitReply, nextDraw, checkReply]
    split <;> exact ⟨_, _, rfl⟩

/-- A call that completes ends the transaction, or it was the transmit before a receive, which is then in flight. -/
theorem restOf_complete (c : Command) (ph : Phase) (tmo : Tmo) (s : State) {d : Draw} (hd : d ≠ .stall) :
    (∀ ds, ∃ r u, restOf c ph tmo { s with draws := d :: ds } = .done r u) ∨
    (CallPhase c .rx ∧ ∃ n, ∀ ds,
      restOf c ph tmo { s with draws := d :: ds } = restOf c .rx tmo { issueRx n tmo s with draws := ds }) := by
  rcases restOf_cases c ph tmo with h | ⟨n, hs, h⟩ | h <;> rw [h]
  · cases d with
    | stall => exact absurd rfl hd
    | err => exact .inl fun ds => ⟨_, _, rfl⟩
    | ok bytes => exact .inl fun ds => ⟨_, _, rfl⟩
  · cases d with
    | stall => exact absurd rfl hd
    | err => exact .inl fun ds => ⟨_, _, rfl⟩
    | ok bytes =>
      have hrx : restOf c .rx tmo = awaitReply n := by simp [restOf, replyWords, hs]
      exact .inr ⟨by simp [CallPhase, hs], n, fun ds => by rw [hrx]; rfl⟩
  · exact .inl (awaitReply_complete _ s hd)

/-- An operation whose transaction is done has responded or begins a settle wait. -/
theorem continueOp_done {i : Instr} {c : Command} {a : Bool} {r : FrameResult} {s t : State}
    (h : continueOp i c a (.done r s) = .next t) : ¬ AtCall t := by
  cases i <;> simp only [continueOp] at h <;> cases h
  case checkIdentity =>
    split
    · cases r <;> rintro (h | h | h) <;> cases h
    · split <;> cases r <;> rintro (h | h | h) <;> cases h
  all_goals cases r <;> rintro (h | h | h) <;> cases h

/-- An operation whose transaction waits, waits with it. -/
theorem continueOp_waiting {i : Instr} (hi : busOps i = true) (c : Command) (a : Bool) (s : State) :
    continueOp i c a (.waiting s) = .next s := by
  cases i
  case checkIdentity =>
    simp only [continueOp]
    split
    · rfl
    · split <;> rfl
  all_goals first | rfl | cases hi

/-! ### Going on with a call in flight -/

theorem InCall.atCall {i : Instr} {tmo : Tmo} {s : State} (h : InCall i tmo s) : AtCall s := by
  obtain ⟨c, _, hph⟩ := h.call
  exact atCall_of_callPhase hph

theorem resumeTransaction_stall {i : Instr} {tmo : Tmo} {s : State} (h : InCall i tmo s) (ds : List Draw) :
    resumeTransaction i tmo { s with draws := .stall :: ds } = .next { s with draws := ds } := by
  obtain ⟨c, hc, hph⟩ := h.call
  rw [resumeTransaction_call (s := { s with draws := .stall :: ds }) tmo hc h.framer.2 hph, restOf_stall,
    continueOp_waiting h.busOp]

/-- A call that completes ends the operation's transaction, or it is followed by a call of the same transaction. -/
theorem resumeTransaction_complete {i : Instr} {tmo : Tmo} {s : State} (h : InCall i tmo s) {d : Draw}
    (hd : d ≠ .stall) : (∀ ds t, resumeTransaction i tmo { s with draws := d :: ds } = .next t → ¬ AtCall t) ∨
    ∃ v, InCall i tmo v ∧ v.responses = s.responses ∧ ∀ ds,
      resumeTransaction i tmo { s with draws := d :: ds } = resumeTransaction i tmo { v with draws := ds } := by
  obtain ⟨c, hc, hph⟩ := h.call
  have hs ds := resumeTransaction_call (i := i) (s := { s with draws := d :: ds }) tmo hc h.framer.2 hph
  rcases restOf_complete c s.phase tmo s hd with hdone | ⟨hrx, n, hnext⟩
  · refine .inl fun ds t ht => ?_
    obtain ⟨r, u, hu⟩ := hdone ds
    rw [hs, hu] at ht
    exact continueOp_done ht
  · have hv : InCall i tmo (issueRx n tmo s) :=
      ⟨⟨h.performs.busy, h.performs.latched, h.performs.tmo⟩, h.framer, h.busOp, c, hc, hrx⟩
    refine .inr ⟨issueRx n tmo s, hv, rfl, fun ds => ?_⟩
    rw [hs, hnext]
    exact (resumeTransaction_call (i := i) (s := { issueRx n tmo s with draws := ds }) tmo hc h.framer.2 hrx).symm

/-- Where going on stops at the outcome still to come, going on once more is going on with that outcome left out: by
induction on the outcomes before it. -/
theorem resumeTransaction_delayed {i : Instr} {tmo : Tmo} {pre rest : List Draw} {s t : State} (h : InCall i tmo s)
    (hpre : .stall ∉ pre) (ht : resumeTransaction i tmo { s with draws := pre ++ .stall :: rest } = .next t)
    (hat : AtCall t) : InCall i tmo t ∧ t.draws = rest ∧ t.responses = s.responses ∧
      resumeTransaction i tmo t = resumeTransaction i tmo { s with draws := pre ++ rest } := by
  induction pre generalizing s with
  | nil =>
    rw [List.nil_append, resumeTransaction_stall h] at ht
    cases ht
    exact ⟨h.draws rest, rfl, rfl, rfl⟩
  | cons d pre ih =>
    obtain ⟨hd, hpre⟩ := List.ne_and_not_mem_of_not_mem_cons hpre
    rcases resumeTransaction_complete h (Ne.symm hd) with hdone | ⟨v, hv, hr, hnext⟩
    · exact absurd hat (hdone _ t ht)
    · rw [List.cons_append, hnext] at ht ⊢
      obtain ⟨hin, hdraws, hresp, hgo⟩ := ih hv hpre ht
      exact ⟨hin, hdraws, hresp.trans hr, hgo⟩

/-! ### A step at a call -/

/-- A step that finds a call in flight, and no reset or quiet boundary, goes on with it. -/
theorem step_call {i : Instr} {tmo : Tmo} {s : State} (h : InCall i tmo s) (hu : Undisturbed s) :
    step s = resumeTransaction i tmo s := by
  have hx : s.phase ≠ .exec := by rcases h.atCall with hp | hp | hp <;> rw [hp] <;> decide
  have hf : fetch s = .resume s := by
    rcases hu with hh | ⟨w, tmo', rest, hh⟩ <;> simp [fetch, fetchBusy, hh, h.performs.busy, h.framer.1, hx]
  rw [step_eq, hf]
  exact resume_call h.performs h.atCall

/-- The delay of one transaction. -/
theorem runsCall_delayed {i : Instr} {tmo : Tmo} {s t : State} {g : List Draw → Host.Outcome State Fault Refusal}
    {pre rest : List Draw} (h : RunsCall i tmo s g) (hpre : .stall ∉ pre) (ht : g (pre ++ .stall :: rest) = .next t)
    (hat : AtCall t) : t.draws = rest ∧ t.busy = true ∧ t.responses = s.responses ∧
      (Undisturbed t → step t = g (pre ++ rest)) := by
  obtain ⟨v, hv, hr, _, hg⟩ := h
  rw [hg] at ht
  obtain ⟨hin, hdraws, hresp, hgo⟩ := resumeTransaction_delayed hv hpre ht hat
  exact ⟨hdraws, hin.performs.busy, hresp.trans hr, fun hu => by rw [step_call hin hu, hgo, hg]⟩

/-- A transaction whose first outcome is still to come stops at its first call. -/
theorem runsCall_stall {i : Instr} {tmo : Tmo} {s : State} {g : List Draw → Host.Outcome State Fault Refusal}
    (h : RunsCall i tmo s g) (rest : List Draw) : ∃ t, g (.stall :: rest) = .next t ∧ AtCall t ∧ t.host = s.host := by
  obtain ⟨v, hv, _, hh, hg⟩ := h
  exact ⟨_, (hg _).trans (resumeTransaction_stall hv rest), (hv.draws rest).atCall, hh⟩

/-! ### A step with other outcomes to come -/

/-- What a step finds to do, with other outcomes to come. -/
def foundDraws (ds : List Draw) : Fetched → Fetched
  | .instr i s => .instr i { s with draws := ds }
  | .resume s => .resume { s with draws := ds }
  | .done s => .done { s with draws := ds }
  | .fault f => .fault f
  | .refused r => .refused r

theorem fetchLatched_draws (s : State) (ds : List Draw) :
    fetchLatched { s with draws := ds } = foundDraws ds (fetchLatched s) := by
  simp only [fetchLatched]
  split
  · rfl
  · split <;> rfl

theorem fetchBusy_draws (s : State) (ds : List Draw) :
    fetchBusy { s with draws := ds } = foundDraws ds (fetchBusy s) := by
  simp only [fetchBusy]
  split
  · split <;> rfl
  · split
    · exact fetchLatched_draws s ds
    · rfl

/-- What a step finds to do does not depend on the transport's outcomes. -/
theorem fetch_draws (s : State) (ds : List Draw) : fetch { s with draws := ds } = foundDraws ds (fetch s) := by
  simp only [fetch]
  split
  · rfl
  · rename_i r _
    split
    · exact fetchBusy_draws { s with host := r } ds
    · rfl
  · rename_i w tmo r _
    split
    · exact fetchBusy_draws s ds
    · exact fetchLatched_draws (accept w tmo { s with host := r }) ds
  · split
    · exact fetchBusy_draws s ds
    · rfl

/-- A step that stops at a call is one transaction, whatever the outcomes to come are. -/
theorem step_runsCall {s t : State} (h : Inv s) (ht : step s = .next t) (hat : AtCall t) :
    ∃ i tmo u, u.responses = s.responses ∧ RunsCall i tmo u fun ds => step { s with draws := ds } := by
  have hstep ds : step { s with draws := ds } = runFetched (foundDraws ds (fetch s)) := by rw [step_eq, fetch_draws]
  have hf := inv_fetch h
  rw [step_eq] at ht
  simp only [hstep]
  generalize fetch s = f at ht hf
  cases hf with
  | done u hu hph => cases ht; exact absurd hat (not_atCall_idle hph)
  | starts i u hu hph hb hl hr =>
    cases exec_cases ht with
    | answered m c st k r _ _ ht => exact absurd hat (not_atCall_idle (by rw [ht]; rfl))
    | refusedByMode _ _ ht => exact absurd hat (not_atCall_idle (by rw [ht]; rfl))
    | wire hi => obtain ⟨w, _, hd⟩ := hl; rw [decodeRequest_isRequest hd] at hi; cases hi
    | operation hi hm tmo htm _ => exact ⟨i, tmo, u, hr, exec_runsCall hi hm ⟨hb, hl, htm⟩ hu.framer⟩
  | resumes u hu hph hb hr =>
    obtain ⟨i, tmo, hrun⟩ := resume_runsCall hu hb hph
    exact ⟨i, tmo, u, hr, hrun⟩

/-- Settles O49: a step that stops at a call is one transaction (`exec_runsCall`, `step_runsCall`), and a transaction
goes on from an outcome still to come as if that outcome were not listed (`runsCall_delayed`). -/
theorem delayedCallChangesNothing : Obligations.DelayedCallChangesNothing := by
  constructor
  · intro i s rest hi hl htmo hm hb _ hcmd hfr hh
    obtain ⟨tmo, htmo⟩ := Option.isSome_iff_exists.1 htmo
    have hrun : RunsCall i tmo s _ := exec_runsCall hi hm ⟨hb, hl, htmo⟩ ⟨hcmd, hfr⟩
    obtain ⟨t, ht, hat, hth⟩ := runsCall_stall hrun rest
    obtain ⟨_, hbusy, hresp, hgo⟩ := runsCall_delayed hrun (pre := []) List.not_mem_nil ht hat
    exact ⟨t, ht, hbusy, hresp, hgo (.inl (hth.trans hh))⟩
  · intro s t pre rest h _ hd hpre ht hat
    obtain ⟨i, tmo, u, hu, hrun⟩ := step_runsCall h ht hat
    have ht' : step { s with draws := pre ++ .stall :: rest } = .next t := by rw [← hd]; exact ht
    obtain ⟨hdraws, hbusy, hresp, hgo⟩ := runsCall_delayed hrun hpre ht' hat
    exact ⟨hdraws, hbusy, hresp.trans hu, hgo⟩

end Sys2Proof.Proofs
end

section
/-!
A step that finds a transport outcome still to come: a call in flight waits (R56, R61), and a settle wait ends all the
same (R282), so that the outcome is that of the transmit after it.
-/

namespace Sys2Proof.Proofs

open Sys2Proof.Machine Sys2Proof.Safety Sys2Proof.Laws

/-- In a phase other than IDLE an operation is in progress (R30). -/
theorem inv_busy {s : State} (h : Inv s) (hp : s.phase ≠ .idle) : s.busy = true := by
  have hm := h.phase
  cases hph : s.phase <;> simp only [PhaseMeans, hph] at hm
  case idle => exact absurd hph hp
  all_goals exact hm.1

/-- In a phase in which a call is in flight, it is a call of the latched operation with the latched timeout (R33). -/
theorem inv_inCall {s : State} (h : Inv s) (hp : AtCall s) : ∃ i tmo, InCall i tmo s := by
  have hb : s.busy = true := inv_busy h fun hi => not_atCall_idle hi hp
  obtain ⟨_, i, c, ⟨hl, hc, hs, _⟩, hph⟩ := inv_call h hp
  obtain ⟨tmo, hperf⟩ := inv_performs h hb hl
  exact ⟨i, tmo, hperf, h.framer, busOps_of_sends hs, c, hc, hph⟩

/-- A step that finds a settle wait, and nothing from the host, goes on with CHECK_IDENTITY. -/
theorem step_settle {s : State} {tmo : Tmo} (h : Inv s) (hh : s.host = []) (htmo : s.tmo = some tmo) :
    (s.phase = .settle1 → step s = .next (innerStop tmo s)) ∧
    (s.phase = .settle2 → step s = .next (retryIdentify tmo s)) := by
  have goesOn (hp : s.phase = .settle1 ∨ s.phase = .settle2) :
      step s = resume s ∧ Performs .checkIdentity tmo s := by
    have hidle : s.phase ≠ .idle := by rcases hp with hp | hp <;> rw [hp] <;> decide
    have hexec : s.phase ≠ .exec := by rcases hp with hp | hp <;> rw [hp] <;> decide
    have hb := inv_busy h hidle
    have hf : fetch s = .resume s := by simp [fetch, fetchBusy, hh, hb, h.framer.1, hexec]
    exact ⟨by rw [step_eq, hf]; rfl, hb, (inv_settle h hp).2.1, htmo⟩
  constructor <;> intro hp
  · obtain ⟨hs, hperf⟩ := goesOn (.inl hp)
    exact hs.trans ((resume_settle hperf).1 hp)
  · obtain ⟨hs, hperf⟩ := goesOn (.inr hp)
    exact hs.trans ((resume_settle hperf).2 hp)

/-- A transmit whose outcome is still to come is in flight (R56). -/
theorem awaitTx_stall (k : State → Progress) {s : State} {rest : List Draw} (hd : s.draws = .stall :: rest) :
    awaitTx k s = .waiting { s with draws := rest } := by
  simp only [awaitTx, nextDraw_cons hd]

/-- The stop after the first settle wait, its transmit in flight. -/
theorem innerStop_stall (tmo : Tmo) {s : State} {rest : List Draw} (hd : s.draws = .stall :: rest) :
    innerStop tmo s = { s with
      phase := .tx, txbuf := some [0x3F, 0x86], bus := s.bus ++ [.tx [0x3F, 0x86] tmo], draws := rest } := by
  rw [innerStop, xNoReply, awaitTx_stall (rest := rest)]
  · rfl
  · exact hd

/-- The retry after the second settle wait, its transmit in flight. -/
theorem retryIdentify_stall (tmo : Tmo) {s : State} {rest : List Draw} (hd : s.draws = .stall :: rest) :
    retryIdentify tmo s = { s with
      phase := .tx, attempt := true, txbuf := some [0x36, 0x82], bus := s.bus ++ [.tx [0x36, 0x82] tmo],
      draws := rest } := by
  rw [retryIdentify, identifyBody, xTxRx, awaitTx_stall (rest := rest)]
  · rfl
  · exact hd

/-- A step that finds the outcome of the call in flight still to come only waits. -/
theorem step_call_stall {s : State} {rest : List Draw} (h : Inv s) (hh : s.host = [])
    (hd : s.draws = .stall :: rest) (hp : AtCall s) : step s = .next { s with draws := rest } := by
  obtain ⟨i, tmo, hin⟩ := inv_inCall h hp
  calc step s = resumeTransaction i tmo s := step_call hin (.inl hh)
    _ = resumeTransaction i tmo { s with draws := .stall :: rest } := by rw [← hd]
    _ = .next { s with draws := rest } := resumeTransaction_stall hin rest

/-- Settles O48: a call in flight waits (`step_call_stall`); a settle wait ends (`step_settle`), and the transmit that
begins after it waits (`innerStop_stall`, `retryIdentify_stall`). -/
theorem stalledCallBlocks : Obligations.StalledCallBlocks := by
  intro s tmo rest h hh htmo hd
  obtain ⟨hstop, hretry⟩ := step_settle h hh htmo
  refine ⟨step_call_stall h hh hd, fun hp => ?_, fun hp => ?_⟩
  · rw [hstop hp, innerStop_stall tmo hd]
  · rw [hretry hp, retryIdentify_stall tmo hd]

end Sys2Proof.Proofs
end

section
/-!
The encoding of 30_encoding.md: the decoder is described by R73's table (`decodeRequest_ok_iff`), the encoder by the
same rows (`encode_row`); the two are inverse to each other, and the operands and the assembler's lines follow.
-/

namespace Sys2Proof.Proofs

open Sys2Proof.Machine Sys2Proof.Laws

/-- Settles O2: one round trip per instruction (Laws/PerInstr.lean). -/
theorem decodeInvertsEncode : Obligations.DecodeInvertsEncode
  | .attach => RoundTrip.attach
  | .identify => RoundTrip.identify
  | .checkIdentity => RoundTrip.checkIdentity
  | .startPeriodic => RoundTrip.startPeriodic
  | .stopPeriodic => RoundTrip.stopPeriodic
  | .readSample => RoundTrip.readSample
  | .setTempOffset raw16 => RoundTrip.setTempOffset raw16
  | .getTempOffset => RoundTrip.getTempOffset
  | .crcInit => RoundTrip.crcInit
  | .crcFeed b8 => RoundTrip.crcFeed b8
  | .encodeWord raw16 => RoundTrip.encodeWord raw16
  | .decodeWord chunk => RoundTrip.decodeWord chunk
  | .readStatus => RoundTrip.readStatus
  | .cmdGetSerial => RoundTrip.cmdGetSerial
  | .cmdStartPeriodic => RoundTrip.cmdStartPeriodic
  | .cmdStopPeriodic => RoundTrip.cmdStopPeriodic
  | .cmdReadMeasurement => RoundTrip.cmdReadMeasurement
  | .cmdSetTempOffset out => RoundTrip.cmdSetTempOffset out
  | .cmdGetTempOffset => RoundTrip.cmdGetTempOffset

/-! ### The rows of R73 -/

theorem mnemonic_instr (m : Mnemonic) (n : Nat) : (m.instr n).mnemonic = some m := by cases m <;> rfl

/-- Every mnemonic has its row. -/
theorem exists_row (m : Mnemonic) : ∃ r ∈ requestTable, r.mnemonic = m := by cases m <;> decide

/-- A row's mask leaves out its operand bits alone (R73). -/
theorem row_mask {r : RequestRow} (h : r ∈ requestTable) : r.mask = BitVec.allOnes 32 <<< r.mnemonic.width := by
  revert r; decide

/-- Every row's mask holds the whole op code (R74). -/
theorem row_mask_op {r : RequestRow} (h : r ∈ requestTable) : opField r.mask = BitVec.allOnes 4 := by
  revert r; decide

/-- A row's pattern has no operand bit set (R73). -/
theorem row_pattern_mod {r : RequestRow} (h : r ∈ requestTable) : r.pattern.toNat % 2 ^ r.mnemonic.width = 0 := by
  revert r; decide

/-- A word that fits a row has the row's op code. -/
theorem opField_of_row {w : Word32} {r : RequestRow} (hr : r ∈ requestTable) (h : w &&& r.mask = r.pattern) :
    opField w = opField r.pattern := by
  have hand : opField (w &&& r.mask) = opField w &&& opField r.mask := BitVec.extractLsb'_and ..
  rw [← h, hand, row_mask_op hr, BitVec.and_allOnes]

/-- A word that fits a row decodes to the row's instruction, whose operand is the low bits of the word (R73, R74). -/
theorem decodeRequest_row {w : Word32} {r : RequestRow} (hr : r ∈ requestTable) (h : w &&& r.mask = r.pattern) :
    decodeRequest w = .ok (r.mnemonic.instr w.toNat) := by
  have raw16 : raw16Field w = BitVec.ofNat 16 w.toNat := BitVec.eq_of_toNat_eq (raw16Field_toNat w)
  have b8 : b8Field w = BitVec.ofNat 8 w.toNat := BitVec.eq_of_toNat_eq (b8Field_toNat w)
  have opd : opdField w = BitVec.ofNat 24 w.toNat := BitVec.eq_of_toNat_eq (opdField_toNat w)
  have hop := opField_of_row hr h
  simp only [requestTable, List.mem_cons, List.not_mem_nil, or_false] at hr
  rcases hr with rfl | rfl | rfl | rfl | rfl | rfl | rfl | rfl | rfl | rfl | rfl | rfl | rfl <;>
    simp only [decodeRequest, hop, raw16, b8, opd] <;> exact if_pos h

/-- A word that fits no row is illegal (R74, R75). -/
theorem decodeRequest_noRow {w : Word32} (h : ∀ r ∈ requestTable, w &&& r.mask ≠ r.pattern) :
    ∃ e, decodeRequest w = .error e := by
  have stray (m : Mnemonic) (p k : Word32) (i : Instr) (hr : ⟨m, p, k⟩ ∈ requestTable) :
      ∃ e, selectRow w p k i = .error e := ⟨.strayBits, if_neg (h ⟨m, p, k⟩ hr)⟩
  unfold decodeRequest
  split
  case h_1 => exact stray .ATTACH _ _ _ (by decide)
  case h_2 => exact stray .IDENTIFY _ _ _ (by decide)
  case h_3 => exact stray .CHECK_IDENTITY _ _ _ (by decide)
  case h_4 => exact stray .START_PERIODIC _ _ _ (by decide)
  case h_5 => exact stray .STOP_PERIODIC _ _ _ (by decide)
  case h_6 => exact stray .READ_SAMPLE _ _ _ (by decide)
  case h_7 => exact stray .SET_TEMP_OFFSET _ _ _ (by decide)
  case h_8 => exact stray .GET_TEMP_OFFSET _ _ _ (by decide)
  case h_9 => exact stray .CRC_INIT _ _ _ (by decide)
  case h_10 => exact stray .CRC_FEED _ _ _ (by decide)
  case h_11 => exact stray .ENCODE_WORD _ _ _ (by decide)
  case h_12 => exact stray .DECODE_WORD _ _ _ (by decide)
  case h_13 => exact stray .READ_STATUS _ _ _ (by decide)
  case h_14 => exact ⟨_, rfl⟩

theorem decodeRequest_ok_iff {w : Word32} {i : Instr} : decodeRequest w = .ok i ↔
    ∃ r ∈ requestTable, w &&& r.mask = r.pattern ∧ i = r.mnemonic.instr w.toNat := by
  constructor
  · intro h
    by_contra hn
    obtain ⟨e, he⟩ := decodeRequest_noRow (w := w) fun r hr hm => hn ⟨r, hr, hm, by
      rw [decodeRequest_row hr hm] at h; exact (Except.ok.inj h).symm⟩
    rw [he] at h; cases h
  · rintro ⟨r, hr, hm, rfl⟩
    exact decodeRequest_row hr hm

/-- An operand of 16 bits in the operand field. -/
theorem raw16_opd_toNat (v : Word16) : BitVec.toNat (w := 24) (0#8 ++ v) = v.toNat := by
  rw [BitVec.toNat_append]; simp

/-- An operand of 8 bits in the operand field. -/
theorem b8_opd_toNat (v : Byte) : BitVec.toNat (w := 24) (0#16 ++ v) = v.toNat := by
  rw [BitVec.toNat_append]; simp

/-- The word of a row's instruction: the row's pattern with the operand's low bits in it (R70, R73). -/
theorem encode_row {r : RequestRow} (hr : r ∈ requestTable) (n : Nat) : ∃ w, encode (r.mnemonic.instr n) = .request w ∧
    w.toNat = r.pattern.toNat + n % 2 ^ r.mnemonic.width := by
  simp only [requestTable, List.mem_cons, List.not_mem_nil, or_false] at hr
  rcases hr with rfl | rfl | rfl | rfl | rfl | rfl | rfl | rfl | rfl | rfl | rfl | rfl | rfl <;>
    exact ⟨_, rfl, by simp [requestWord_toNat, raw16_opd_toNat, b8_opd_toNat, Mnemonic.width, Nat.mod_one]⟩

/-! ### Both directions -/

/-- A request word that decodes is the encoding of what it decodes to: the mask keeps the row's pattern, and the bits it
leaves out are the operand's. -/
theorem encode_of_decodeRequest {w : Word32} {i : Instr} (h : decodeRequest w = .ok i) : encode i = .request w := by
  obtain ⟨r, hr, hm, rfl⟩ := decodeRequest_ok_iff.1 h
  obtain ⟨w', he, hw'⟩ := encode_row hr w.toNat
  have hhigh : w.toNat / 2 ^ r.mnemonic.width * 2 ^ r.mnemonic.width = r.pattern.toNat := by
    rw [← and_highMask, ← row_mask hr, hm]
  have hw : w'.toNat = w.toNat := by rw [hw', ← hhigh, Nat.div_add_mod']
  rw [he, BitVec.eq_of_toNat_eq hw]

/-- A code that decodes is the code of a command, whose outgoing word is 0 if it has none (R83). -/
theorem encode_of_decodeCommand {code out : Word16} {i : Instr} (h : decodeCommand code out = .ok i) :
    encode i = .command code out := by
  unfold decodeCommand at h
  split at h
  case h_7 => cases h
  case h_5 hc => cases h; rw [← commandOfCode_some hc]; rfl
  all_goals
    rename_i hc
    unfold noOut at h
    split at h <;> cases h
    subst out
    rw [← commandOfCode_some hc]; rfl

/-- Settles O3, for request words (`encode_of_decodeRequest`) and for commands (`encode_of_decodeCommand`). -/
theorem encodeInvertsDecode : Obligations.EncodeInvertsDecode
  | .request _, _, h => encode_of_decodeRequest h
  | .command _ _, _, h => encode_of_decodeCommand h

/-- Settles O4: the decoder is R73's table, row by row (`decodeRequest_row`, `decodeRequest_noRow`). -/
theorem decodingFollowsTheTable : Obligations.DecodingFollowsTheTable :=
  ⟨fun _ _ hr h => ⟨_, decodeRequest_row hr h, mnemonic_instr _ _⟩, fun _ h => decodeRequest_noRow h⟩

/-! ### Operands -/

theorem rsvField_toNat (w : Word32) : (rsvField w).toNat = w.toNat / 2 ^ 24 % 2 ^ 4 := by
  simp [rsvField, Nat.shiftRight_eq_div_pow]

theorem chunkHi_toNat (c : Word24) : (chunkHi c).toNat = c.toNat / 2 ^ 16 % 2 ^ 8 := by
  simp [chunkHi, Nat.shiftRight_eq_div_pow]

theorem chunkLo_toNat (c : Word24) : (chunkLo c).toNat = c.toNat / 2 ^ 8 % 2 ^ 8 := by
  simp [chunkLo, Nat.shiftRight_eq_div_pow]

theorem chunkCk_toNat (c : Word24) : (chunkCk c).toNat = c.toNat % 2 ^ 8 := by simp [chunkCk]

/-- The word an instruction decodes from is its op code and its operand, as numbers (R70). -/
theorem decodeRequest_toNat {w : Word32} {i : Instr} {op : BitVec 4} {opd : Word24} (h : decodeRequest w = .ok i)
    (he : encode i = .request (requestWord op opd)) : w.toNat = op.toNat * 2 ^ 28 + opd.toNat := by
  cases (encode_of_decodeRequest h).symm.trans he
  exact requestWord_toNat op opd

/-- An operand of 16 bits is the low 16 bits of its word. -/
theorem raw16_of_decodeRequest {w : Word32} {i : Instr} {op : BitVec 4} {v : Word16} (h : decodeRequest w = .ok i)
    (he : encode i = .request (requestWord op (0#8 ++ v))) : v.toNat = w.toNat % 2 ^ 16 := by
  have hw := decodeRequest_toNat h he
  rw [raw16_opd_toNat] at hw
  omega

/-- Settles O5: the fields as divisions of the word, and each operand as the low bits of the word that encodes it
(`decodeRequest_toNat`). -/
theorem operandsAreUnsignedFields : Obligations.OperandsAreUnsignedFields := by
  refine ⟨fun w => ⟨opField_toNat w, rsvField_toNat w, opdField_toNat w⟩, fun w v h => raw16_of_decodeRequest h rfl,
    fun w v h => raw16_of_decodeRequest h rfl, fun w b h => ?_, fun w c h => ?_⟩
  · have hw := decodeRequest_toNat h rfl
    rw [b8_opd_toNat] at hw
    omega
  · have hw := decodeRequest_toNat h rfl
    rw [chunkHi_toNat, chunkLo_toNat, chunkCk_toNat]
    omega

/-! ### Assembler lines (R86) -/

/-- The operand of a well-formed line fits its mnemonic's width; a line without one has operand 0. -/
theorem imm_lt_of_wf {l : AsmLine} (h : l.wf = true) : l.imm.getD 0 < 2 ^ l.mnemonic.width := by
  simp only [AsmLine.wf, AsmLine.immWf, Bool.and_eq_true] at h
  cases hi : l.imm with
  | none => exact Nat.two_pow_pos _
  | some n => simp_all

/-- Settles O6: a well-formed line assembles to its mnemonic's row with the operand in it (`encode_row`), which decodes
to the instruction of the line (`decodeInvertsEncode`). -/
theorem linesAssembleIffWellFormed : Obligations.LinesAssembleIffWellFormed := by
  refine ⟨fun l h => ?_, fun l h => by simp [assemble, h]⟩
  obtain ⟨r, hr, hm⟩ := exists_row l.mnemonic
  obtain ⟨w, he, hw⟩ := encode_row hr (l.imm.getD 0)
  have hpat := row_pattern_mod hr
  rw [hm] at he hw hpat
  have hd := decodeInvertsEncode (l.mnemonic.instr (l.imm.getD 0))
  rw [he] at hd
  refine ⟨w, _, by simp [assemble, h, he], hd, rfl, mnemonic_instr _ _, ?_⟩
  rw [hw, Nat.add_mod, hpat, Nat.zero_add, Nat.mod_mod, Nat.mod_mod, Nat.mod_eq_of_lt (imm_lt_of_wf h)]

/-- Settles O1: the decoder run on twelve fixed words. -/
theorem tableWordsDecode : Obligations.TableWordsDecode := by
  unfold Obligations.TableWordsDecode
  decide

end Sys2Proof.Proofs
end

section
/-!
The fixed layouts of responses (R77, R78) and outgoing frames (R79, R80, R83), and the completion of an illegal request
word (R75).
-/

namespace Sys2Proof.Proofs

open Sys2Proof.Machine Sys2Proof.Safety Sys2Proof.Laws

/-- The fields of a word of R77's layout: each is found by leaving out the fields below it. -/
theorem extract_fields (a : BitVec 4) (b c : BitVec 2) (d : Word48) :
    (a ++ b ++ c ++ d).extractLsb' 52 4 = a ∧ (a ++ b ++ c ++ d).extractLsb' 50 2 = b ∧
    (a ++ b ++ c ++ d).extractLsb' 48 2 = c ∧ (a ++ b ++ c ++ d).extractLsb' 0 48 = d := by
  have above48 (start len : Nat) (h : 48 ≤ start) :
      (a ++ b ++ c ++ d).extractLsb' start len = (a ++ b ++ c).extractLsb' (start - 48) len :=
    BitVec.extractLsb'_append_eq_of_le h
  have above50 (start len : Nat) (h : 2 ≤ start) :
      (a ++ b ++ c).extractLsb' start len = (a ++ b).extractLsb' (start - 2) len :=
    BitVec.extractLsb'_append_eq_of_le h
  refine ⟨?_, ?_, ?_, BitVec.extractLsb'_append_eq_right⟩
  · rw [above48 _ _ (by decide), above50 _ _ (by decide)]
    exact BitVec.extractLsb'_append_eq_left
  · rw [above48 _ _ (by decide), above50 _ _ (by decide)]
    exact BitVec.extractLsb'_append_eq_right
  · rw [above48 _ _ (by decide)]
    exact BitVec.extractLsb'_append_eq_right

/-- Settles O7: the record's fields (`extract_fields`) and R78's codes, read off their definitions. -/
theorem responsePacking : Obligations.ResponsePacking :=
  ⟨fun r => extract_fields r.status.code 0#2 r.errWord r.data, rfl, rfl, rfl, rfl, rfl, rfl⟩

/-- An idle block that is offered an illegal word has accepted it and responded when the step is over (R75, R162). -/
theorem fetch_offered_illegal {s : State} {w : Word32} {tmo : Tmo} {rest : List HostEvent} {e : DecodeError}
    (ho : Offers s w tmo rest) (he : decodeRequest w = .error e) :
    fetch s = .done (raise .illegalRequest 0 (accept w tmo { s with host := rest })) := by
  obtain ⟨hb, hh⟩ := ho
  simp [fetch, fetchLatched, hh, hb, he]

/-- Settles O8: the response overwrites BUSY and the phase that acceptance has written. -/
theorem illegalWordCompletes : Obligations.IllegalWordCompletes := by
  intro s w tmo rest e ho he
  rw [step_eq, fetch_offered_illegal ho he]
  rfl

/-- The bytes of the set frame (R80, R141). -/
theorem frameSet_eq (v : Word16) : frameSet Command.setTempOffset.code v =
    [0x24, 0x1D, hiByte v, loByte v, crc8 [hiByte v, loByte v]] := rfl

/-- Settles O20: the codes' bytes, the set frame (`frameSet_eq`) and its checksum in the vector. -/
theorem outgoingFrames : Obligations.OutgoingFrames :=
  ⟨by decide, by decide, by decide, by decide, by decide, frameSet_eq, by decide +kernel⟩

end Sys2Proof.Proofs
end

section
/-!
What every step adds to the block's outputs, in any state: transport calls with the latched timeout and frames of the
catalog (R76, R84), and responses whose data and word index are 0 unless the status says otherwise (R77, R249).
-/

namespace Sys2Proof.Proofs

open Sys2Proof.Machine Sys2Proof.Safety Sys2Proof.Laws

/-- The state in which a step finds something to do meets `P`. -/
def Found (P : State → Prop) : Fetched → Prop
  | .instr _ u => P u
  | .resume u => P u
  | .done u => P u
  | .fault _ => True
  | .refused _ => True

/-- What is found in a state that meets `P` and leads from `P` to `Q` leads from every step to `Q`. -/
theorem step_of_found {P Q : State → Prop} {s t : State} (hf : Found P (fetch s)) (hd : ∀ u, P u → Q u)
    (he : ∀ i u, P u → exec i u = .next t → Q t) (hr : ∀ u, P u → resume u = .next t → Q t)
    (h : step s = .next t) : Q t := by
  rw [step_eq] at h
  generalize fetch s = f at h hf
  cases f with
  | instr i u => exact he i u hf h
  | resume u => exact hr u hf h
  | done u => cases h; exact hd t hf
  | fault r => cases h
  | refused r => cases h

/-! ### Transport calls -/

/-- The actions made from `s` to `t` carry the timeout latched in `t`, and transmit catalog frames only. -/
def Emits (s t : State) : Prop :=
  ∃ new : List Action, t.bus = s.bus ++ new ∧
    ∀ a ∈ new, (isCall a = true → timeoutOf a = t.tmo) ∧ ∀ f, sentFrame a = some f → CatalogFrame f

theorem emits_of_bus_eq {s t : State} (h : t.bus = s.bus) : Emits s t := ⟨[], by simp [h], by simp⟩

theorem baseOf_emits {tmo : Tmo} {s t : State} (ht : s.tmo = some tmo) (h : BaseOf tmo s t) : Emits s t := by
  obtain ⟨m, u, a, b, rb, ph, ds, n, new, rfl, _, _, hn, _⟩ := h
  exact ⟨new, rfl, fun x hx => ⟨fun hc => ((hn x hx).1 hc).trans ht.symm, (hn x hx).2⟩⟩

theorem opRan_emits {H : Prop} {tmo : Tmo} {s t : State} (ht : s.tmo = some tmo) (h : OpRan H tmo s t) :
    Emits s t := by
  rcases h with ⟨hb, _⟩ | ⟨st, k, d, u, hb, _, rfl⟩
  · exact baseOf_emits ht hb
  · exact baseOf_emits (t := u) ht hb

/-- A wire command makes its transaction's calls. -/
theorem handOver_emits {H : Prop} {c : Command} {tmo : Tmo} {s : State} {acts : List Action} {p : Progress}
    (ht : s.tmo = some tmo) (h : Transacts H c tmo s acts p) : Emits s (handOver p) := by
  have h := h.sat
  cases p with
  | waiting t => obtain ⟨_, _, hr⟩ := h; exact baseOf_emits ht hr.baseOf
  | done r t => obtain ⟨_, _, _, hr⟩ := h; exact baseOf_emits (t := t) ht hr.baseOf

theorem exec_emits {i : Instr} {s t : State} (h : exec i s = .next t) : Emits s t := by
  cases exec_cases h with
  | answered m c st k r _ _ ht => exact emits_of_bus_eq (by rw [ht]; rfl)
  | refusedByMode _ _ ht => exact emits_of_bus_eq (by rw [ht]; rfl)
  | operation _ _ tmo htm hc => exact opRan_emits (s := entered i s) htm hc.ran
  | wire _ tmo htm c acts p ht hp => exact ht ▸ handOver_emits htm hp

theorem resume_emits {s t : State} (h : resume s = .next t) : Emits s t := by
  obtain ⟨tmo, u, htm, hu, hran⟩ := resume_ran h
  rcases hu with rfl | rfl
  · exact opRan_emits htm hran
  · exact opRan_emits (s := { s with framerResult := none }) htm hran

/-- Finding what to do makes no call. -/
theorem fetch_bus (s : State) : Found (fun u => u.bus = s.bus) (fetch s) := by
  have hf := fetch_case s
  generalize fetch s = f at hf
  cases hf with
  | badCommand => trivial
  | noLatch => trivial
  | _ => rfl

/-- Every call of a step carries the latched timeout and a catalog frame; a reset makes none. -/
theorem step_emits {s t : State} (h : step s = .next t) : Emits s t := by
  have from_eq {u v : State} (hu : u.bus = s.bus) (h : Emits u v) : Emits s v := by
    obtain ⟨new, hb, hn⟩ := h
    exact ⟨new, hu ▸ hb, hn⟩
  exact step_of_found (fetch_bus s) (fun _ => emits_of_bus_eq) (fun _ _ hu h => from_eq hu (exec_emits h))
    (fun _ hu h => from_eq hu (resume_emits h)) h

/-- Settles O47: the frames of a step's calls (`step_emits`). -/
theorem onlyCatalogFramesTransmitted : Obligations.OnlyCatalogFramesTransmitted := by
  intro s t h
  obtain ⟨new, hb, hn⟩ := step_emits h
  exact ⟨new, hb, fun a ha => (hn a ha).2⟩

/-- Settles O46: the timeouts of a step's calls (`step_emits`). -/
theorem timeoutPassedUnchanged : Obligations.TimeoutPassedUnchanged := by
  intro s t h _
  obtain ⟨new, hb, hn⟩ := step_emits h
  exact ⟨new, hb, fun a ha => (hn a ha).1⟩

/-! ### Responses -/

/-- Every response emitted so far is as R77 lays it out. -/
def GoodResponses (s : State) : Prop := ∀ r ∈ s.responses, GoodResponse r

theorem goodResponses_snoc {s t : State} {r : Response} (h : GoodResponses s) (hr : GoodResponse r)
    (ht : t.responses = s.responses ++ [r]) : GoodResponses t := by
  intro x hx
  rw [ht] at hx
  rcases List.mem_append.1 hx with hx | hx
  · exact h x hx
  · exact List.mem_singleton.1 hx ▸ hr

theorem goodResponses_congr {s t : State} (h : GoodResponses s) (ht : t.responses = s.responses) : GoodResponses t := by
  unfold GoodResponses; rwa [ht]

theorem baseOf_responses {tmo : Tmo} {s t : State} (h : BaseOf tmo s t) : t.responses = s.responses := by
  obtain ⟨m, u, a, b, rb, ph, ds, n, new, rfl, _⟩ := h
  rfl

/-- An operation whose results are good responds well, if it responds. -/
theorem opRan_responses {H : Prop} {tmo : Tmo} {s t : State} (hH : H) (hs : GoodResponses s) (h : OpRan H tmo s t) :
    GoodResponses t := by
  rcases h with ⟨hb, _⟩ | ⟨st, k, d, u, hb, hg, rfl⟩
  · exact goodResponses_congr hs (baseOf_responses hb)
  · exact goodResponses_snoc (goodResponses_congr hs (baseOf_responses hb)) (hg hH) rfl

/-- A wire command emits no response. -/
theorem handOver_responses {H : Prop} {c : Command} {tmo : Tmo} {s : State} {acts : List Action} {p : Progress}
    (h : Transacts H c tmo s acts p) : (handOver p).responses = s.responses := by
  have hm := h.moves
  cases p with
  | waiting t => exact hm.frame.responses
  | done r t => exact hm.frame.responses

theorem exec_responses {i : Instr} {s t : State} (hs : GoodResponses s) (h : exec i s = .next t) :
    GoodResponses t := by
  cases exec_cases h with
  | answered m c st k r _ _ ht _ hg => exact goodResponses_snoc hs hg (by rw [ht]; rfl)
  | refusedByMode _ _ ht => exact goodResponses_snoc hs (goodResponse_error .stateError) (by rw [ht]; rfl)
  | operation _ _ tmo _ hc => exact opRan_responses (s := entered i s) trivial hs hc.ran
  | wire _ tmo _ c acts p ht hp => exact goodResponses_congr hs (ht ▸ handOver_responses hp)

/-- An operation that has no value of the framer to take goes on with results of its own. -/
theorem resume_responses {s t : State} (hf : s.framerResult = none) (hs : GoodResponses s) (h : resume s = .next t) :
    GoodResponses t := by
  obtain ⟨tmo, u, _, hu, hran⟩ := resume_ran h
  have noValue : ∀ r, s.framerResult = some r → GoodResult r := by simp [hf]
  rcases hu with rfl | rfl
  · exact opRan_responses noValue hs hran
  · exact opRan_responses (s := { s with framerResult := none }) noValue hs hran

/-- Finding what to do hands over no value, and responds at most with ILLEGAL_REQUEST (R75). -/
theorem fetch_responses {s : State} (hf : s.framerResult = none) (hs : GoodResponses s) :
    Found (fun u => u.framerResult = none ∧ GoodResponses u) (fetch s) := by
  have hc := fetch_case s
  generalize fetch s = f at hc
  cases hc with
  | reset => exact ⟨rfl, hs⟩
  | acceptedIllegal => exact ⟨hf, goodResponses_snoc hs (goodResponse_error .illegalRequest) rfl⟩
  | startIllegal => exact ⟨hf, goodResponses_snoc hs (goodResponse_error .illegalRequest) rfl⟩
  | badCommand => trivial
  | noLatch => trivial
  | _ => exact ⟨hf, hs⟩

/-- Settles O43: what a step finds (`fetch_responses`), an instruction (`exec_responses`) and an operation that goes on
(`resume_responses`) add good responses only. -/
theorem responsesAreWellFormed : Obligations.ResponsesAreWellFormed := fun _ _ h hf hs =>
  step_of_found (Q := GoodResponses) (fetch_responses hf hs) (fun _ hu => hu.2) (fun _ _ hu => exec_responses hu.2)
    (fun _ hu => resume_responses hu.1 hu.2) h

end Sys2Proof.Proofs
end

section
/-!
The checksum validator (40_checksum.md): the residue of a span followed by its checksum (R103), the errors a DataWord's
check detects (R107), and the operations CRC_INIT and CRC_FEED (R104, R105).
-/

namespace Sys2Proof.Proofs

open Sys2Proof.Machine Sys2Proof.Safety Sys2Proof.Laws

/-! ### The residue -/

/-- Settles O9: no byte leaves the initial value, and two bytes are 16 shift steps. -/
theorem checksumReferenceVectors : Obligations.ChecksumReferenceVectors := ⟨rfl, by decide +kernel⟩

/-- The checksum byte cancels the register, and the shift steps keep 0. -/
theorem crc8_snoc_crc8 (s : List Byte) : crc8 (s ++ [crc8 s]) = 0 :=
  calc crc8 (s ++ [crc8 s]) = crcShift8 (crc8 s ^^^ crc8 s) := crc8_snoc s (crc8 s)
    _ = crcShift8 0 := congrArg crcShift8 BitVec.xor_self
    _ = 0 := crcShift8_zero

theorem crc8_eq_zero_of_valid {hi lo ck : Byte} (h : valid hi lo ck = true) : crc8 [hi, lo, ck] = 0 := by
  obtain rfl := (valid_iff hi lo ck).1 h
  exact crc8_snoc_crc8 [hi, lo]

/-- Settles O10: the cancellation (`crc8_snoc_crc8`), and with it every valid DataWord, the two examples among them. -/
theorem checksumResidueIsZero : Obligations.ChecksumResidueIsZero :=
  ⟨crc8_snoc_crc8, fun _ _ _ => crc8_eq_zero_of_valid, crc8_eq_zero_of_valid (by decide +kernel),
    crc8_eq_zero_of_valid (by decide +kernel)⟩

/-! ### The errors a DataWord's check detects -/

/-- How far the flipped bits `e` of a DataWord move its checksum away from its check byte. -/
def syndrome (e : Word24) : Byte := crcShift8 (crcShift8 (chunkHi e) ^^^ chunkLo e) ^^^ chunkCk e

theorem chunkHi_xor (c e : Word24) : chunkHi (c ^^^ e) = chunkHi c ^^^ chunkHi e := BitVec.extractLsb'_xor

theorem chunkLo_xor (c e : Word24) : chunkLo (c ^^^ e) = chunkLo c ^^^ chunkLo e := BitVec.extractLsb'_xor

theorem chunkCk_xor (c e : Word24) : chunkCk (c ^^^ e) = chunkCk c ^^^ chunkCk e := BitVec.extractLsb'_xor

theorem syndrome_xor (a b : Word24) : syndrome (a ^^^ b) = syndrome a ^^^ syndrome b := by
  simp only [syndrome, chunkHi_xor, chunkLo_xor, chunkCk_xor, crcShift8_xor]
  ac_rfl

/-- The change of a checksum depends on the flipped bits alone: the shift steps are linear, whatever the register began
with. -/
theorem crc8_pair_xor (hi lo x y : Byte) :
    crc8 [hi ^^^ x, lo ^^^ y] = crc8 [hi, lo] ^^^ crcShift8 (crcShift8 x ^^^ y) := by
  simp only [crc8_pair]
  generalize crcInitValue = r
  simp only [crcShift8_xor]
  ac_rfl

/-- A valid DataWord with flipped bits is valid again exactly if the flips have no syndrome. -/
theorem valid_xor_iff {c : Word24} (h : valid (chunkHi c) (chunkLo c) (chunkCk c) = true) (e : Word24) :
    valid (chunkHi (c ^^^ e)) (chunkLo (c ^^^ e)) (chunkCk (c ^^^ e)) = true ↔ syndrome e = 0 := by
  rw [valid_iff] at h ⊢
  rw [chunkHi_xor, chunkLo_xor, chunkCk_xor, crc8_pair_xor, h, BitVec.xor_right_inj, syndrome]
  exact BitVec.xor_eq_zero_iff.symm

theorem invalid_of_syndrome {c e : Word24} (h : valid (chunkHi c) (chunkLo c) (chunkCk c) = true)
    (he : syndrome e ≠ 0) : valid (chunkHi (c ^^^ e)) (chunkLo (c ^^^ e)) (chunkCk (c ^^^ e)) = false :=
  eq_false_of_ne_true fun hv => he ((valid_xor_iff h e).1 hv)

/-- No flip of one bit goes unseen. -/
theorem syndrome_bit_ne_zero : ∀ i < 24, syndrome (1#24 <<< i) ≠ 0 := by decide +kernel

/-- The polynomial tells the 24 bits apart. -/
theorem syndrome_bit_ne : ∀ i < 24, ∀ j < 24, i ≠ j → syndrome (1#24 <<< i) ≠ syndrome (1#24 <<< j) := by
  decide +kernel

/-- Two flips cancel in the syndrome only if they have the same syndrome. -/
theorem syndrome_bits_ne_zero {i j : Nat} (hi : i < 24) (hj : j < 24) (hij : i ≠ j) :
    syndrome (1#24 <<< i ^^^ 1#24 <<< j) ≠ 0 := by
  rw [syndrome_xor]
  exact fun h => syndrome_bit_ne i hi j hj hij (BitVec.xor_eq_zero_iff.1 h)

/-- Settles O11: one flipped bit has a syndrome, and so have two, since no two bits have the same. -/
theorem oneAndTwoBitErrorsDetected : Obligations.OneAndTwoBitErrorsDetected := by
  intro c h i j hi hj
  refine ⟨invalid_of_syndrome h (syndrome_bit_ne_zero i hi), fun hij => ?_⟩
  rw [BitVec.xor_assoc]
  exact invalid_of_syndrome h (syndrome_bits_ne_zero hi hj hij)

/-! ### CRC_INIT and CRC_FEED -/

theorem exec_crcInit (s : State) : exec .crcInit s = .next (completed .ok 0 0xFF { s with crcAcc := 0xFF }) := rfl

theorem exec_crcFeed (b : Byte) (s : State) : exec (.crcFeed b) s =
    .next (completed .ok 0 ((crcStep s.crcAcc b).setWidth 48) { s with crcAcc := crcStep s.crcAcc b }) := rfl

/-- Op code 0x9 has one word only: R73's mask leaves no bit out. -/
theorem decodeRequest_op9 {w : Word32} (h : opField w = 0x9) (hw : w ≠ 0x90000000) :
    decodeRequest w = .error .strayBits := by
  have hrow : decodeRequest w = selectRow w 0x90000000 0xFFFFFFFF .crcInit := by simp only [decodeRequest, h]; rfl
  rw [hrow, selectRow_full, if_neg hw]

/-- Settles O12: the response of R104 read off `exec`, and CRC_INIT's row of R73. -/
theorem crcInitResult : Obligations.CrcInitResult :=
  ⟨exec_crcInit, RoundTrip.crcInit, fun _ h hw => ⟨_, decodeRequest_op9 h hw⟩⟩

/-- Settles O13: the byte stands below 24 fixed bits (R70), and the response of R105 is read off `exec`. -/
theorem crcFeedResult : Obligations.CrcFeedResult := fun s b =>
  ⟨congrArg Encoded.request (BitVec.append_assoc' (x₁ := 0xA0#8) (x₂ := 0#16) (x₃ := b)), exec_crcFeed b s⟩

/-- Feeding bytes from any accumulator steps it through them in order, each with one response and no call. -/
theorem execAll_crcFeed (bs : List Byte) (s : State) : ∃ t, execAll (bs.map .crcFeed) s = .next t ∧
    t.crcAcc = bs.foldl crcStep s.crcAcc ∧ t.bus = s.bus ∧ t.mode = s.mode ∧
    t.responses.length = s.responses.length + bs.length := by
  induction bs generalizing s with
  | nil => exact ⟨s, rfl, rfl, rfl, rfl, rfl⟩
  | cons b bs ih =>
    obtain ⟨t, hrun, hacc, hbus, hmode, hresp⟩ :=
      ih (completed .ok 0 ((crcStep s.crcAcc b).setWidth 48) { s with crcAcc := crcStep s.crcAcc b })
    refine ⟨t, hrun, hacc, hbus, hmode, hresp.trans ?_⟩
    simp [completed, Nat.add_assoc, Nat.add_comm 1]

/-- Settles O14: CRC_INIT sets the accumulator to the initial value, and the bytes are fed from there
(`execAll_crcFeed`). -/
theorem feedingASpanComputesCrc8 : Obligations.FeedingASpanComputesCrc8 := by
  intro s bs
  obtain ⟨t, hrun, hacc, hbus, hmode, hresp⟩ := execAll_crcFeed bs (completed .ok 0 0xFF { s with crcAcc := 0xFF })
  refine ⟨t, hrun, hacc, hbus, hmode, hresp.trans ?_⟩
  simp [completed, Nat.add_right_comm]

end Sys2Proof.Proofs
end

section
/-!
What an instruction that calls the transport leaves alone in its caller's state: a wire command (R108, R142), and an
operation of BUS_OPS (R163, R165 to R170, R200).
-/

namespace Sys2Proof.Proofs

open Sys2Proof.Machine Sys2Proof.Safety Sys2Proof.Laws

/-- Handing the framer's value over writes `framerResult` alone, which is no register of the caller's. -/
theorem handOver_frame {s : State} {p : Progress} (h : Sat (Moves s) (fun _ t => Moves s t) p) :
    FramerFrame s (handOver p) := by
  cases p with
  | waiting t => exact h.frame
  | done r t =>
    obtain ⟨b, new, ph, rb, ds, n, rfl⟩ := h
    constructor <;> rfl

/-- Settles O24: a wire command is one transaction (`exec_wire`), which only moves its caller's state. -/
theorem wireCommandsFrame : Obligations.WireCommandsFrame := by
  intro i s hi htmo
  obtain ⟨tmo, ht⟩ := Option.isSome_iff_exists.1 htmo
  obtain ⟨c, acts, p, he, hp⟩ := exec_wire i s tmo hi ht
  exact ⟨_, he, handOver_frame hp.moves⟩

theorem busOpFrame_of_baseOf {tmo : Tmo} {s t : State} (h : BaseOf tmo s t) : BusOpFrame s t := by
  obtain ⟨m, u, a, b, rb, ph, ds, n, new, rfl, _⟩ := h
  constructor <;> rfl

/-- An operation's response writes none of what an operation leaves alone. -/
theorem busOpFrame_of_opRan {H : Prop} {tmo : Tmo} {s t : State} (h : OpRan H tmo s t) : BusOpFrame s t := by
  rcases h with ⟨hb, _⟩ | ⟨st, k, d, u, hb, _, rfl⟩
  · exact busOpFrame_of_baseOf hb
  · obtain ⟨hcrc, hreq, htmo, hhost, hcmd, hres⟩ := busOpFrame_of_baseOf hb
    exact ⟨hcrc, hreq, htmo, hhost, hcmd, hres⟩

/-- Only START, STOP and CHECK_IDENTITY write MODE: of the others none begins a settle wait, and none has a MODE of its
own to end in. -/
theorem continued_mode {i : Instr} {c : Command} {a : Bool} {tmo : Tmo} {s t : State} {acts : List Action}
    (h : Continued True i c a tmo s acts t) (hstart : i ≠ .startPeriodic) (hstop : i ≠ .stopPeriodic)
    (hcheck : i ≠ .checkIdentity) : t.mode = s.mode := by
  cases h with
  | waits ph hph hr => exact hr.mode
  | responds u rest ph hu m x st k d hg hm hme hx ht =>
    have hend : endMode i st s.mode = s.mode := by
      unfold endMode
      split
      · exact absurd rfl hstart
      · exact absurd rfl hstop
      · rfl
    rw [ht]
    exact (hme trivial).trans hend
  | settles1 u rest ph hu hi => exact absurd hi hcheck
  | settles2 u rest ph hu hi => exact absurd hi hcheck

/-- Only CHECK_IDENTITY writes UNUSABLE, at the end of its retry. -/
theorem continued_unusable {H : Prop} {i : Instr} {c : Command} {a : Bool} {tmo : Tmo} {s t : State}
    {acts : List Action} (h : Continued H i c a tmo s acts t) (hcheck : i ≠ .checkIdentity) :
    t.unusable = s.unusable := by
  cases h with
  | waits ph hph hr => exact hr.unusable
  | responds u rest ph hu m x st k d hg hm hme hx ht =>
    rcases hx with rfl | ⟨hi, _⟩
    · rw [ht]; rfl
    · exact absurd hi hcheck
  | settles1 u rest ph hu hi => exact absurd hi hcheck
  | settles2 u rest ph hu hi => exact absurd hi hcheck

/-- Settles O42: in UNINIT the operation is refused by a response alone; elsewhere it takes its first transaction
(`exec_busOp_cases`), and what that may write is in `busOpFrame_of_opRan`, `continued_mode` and `continued_unusable`. -/
theorem busOperationsFrame : Obligations.BusOperationsFrame := by
  intro i s hi htmo
  obtain ⟨tmo, ht⟩ := Option.isSome_iff_exists.1 htmo
  by_cases hm : s.mode = .uninit
  · exact ⟨_, exec_busOp_uninit i s hi hm, ⟨rfl, rfl, rfl, rfl, rfl, rfl⟩, fun _ _ _ => rfl, fun _ => rfl⟩
  · obtain ⟨t, he, hc⟩ := exec_busOp_cases i tmo s hi hm ht
    obtain ⟨hcrc, hreq, htmo, hhost, hcmd, hres⟩ := busOpFrame_of_opRan hc.ran
    exact ⟨t, he, ⟨hcrc, hreq, htmo, hhost, hcmd, hres⟩, continued_mode (s := entered i s) hc,
      continued_unusable (s := entered i s) hc⟩

end Sys2Proof.Proofs
end

section
/-!
The word marshaller (41_word_codec.md): `enc` and `dec` are inverse to each other (R127), the first failing word of a
reply decides its outcome (R124), and the operations ENCODE_WORD and DECODE_WORD (R122, R123).
-/

namespace Sys2Proof.Proofs

open Sys2Proof.Machine Sys2Proof.Safety Sys2Proof.Laws

/-! ### One word and its frame -/

/-- `dec` succeeds on a frame whose third byte is the checksum of the first two, and its value is those two (R121). -/
theorem dec_eq_some_iff {b0 b1 b2 : Byte} {v : Word16} :
    dec b0 b1 b2 = some v ↔ crc8 [b0, b1] = b2 ∧ joinBytes b0 b1 = v := by
  by_cases h : crc8 [b0, b1] = b2
  · simp [dec_valid h, h]
  · simp [dec_invalid h, h]

theorem enc_joinBytes (b0 b1 : Byte) : enc (joinBytes b0 b1) = [b0, b1, crc8 [b0, b1]] := by
  rw [enc, hiByte_join, loByte_join]

/-- Settles O16: a value's bytes join to the value, and joined bytes are the bytes of their value. -/
theorem wordRoundTrip : Obligations.WordRoundTrip := by
  refine ⟨fun v => dec_eq_some_iff.2 ⟨rfl, joinBytes_hi_lo v⟩, fun b0 b1 b2 v h => ?_⟩
  obtain ⟨rfl, rfl⟩ := dec_eq_some_iff.1 h
  exact enc_joinBytes b0 b1

/-! ### The words of a reply -/

theorem decWordsFrom_nil (k : BitVec 2) (acc : List Word16) : decWordsFrom k acc [] = .ok acc := rfl

/-- A good word is kept and the rest decoded; a failing word ends the decode, whatever the rest is (R124). -/
theorem decWordsFrom_word (k : BitVec 2) (acc : List Word16) (b0 b1 b2 : Byte) (rest : List Byte) :
    decWordsFrom k acc (b0 :: b1 :: b2 :: rest) =
      if crc8 [b0, b1] = b2 then decWordsFrom (k + 1) (acc ++ [b0 ++ b1]) rest else .fail .checksumMismatch k := by
  by_cases h : crc8 [b0, b1] = b2
  · rw [decWordsFrom, dec_valid h, if_pos h]; rfl
  · rw [decWordsFrom, dec_invalid h, if_neg h]

/-- Settles O17: the decode goes through a reply word by word (`decWordsFrom_word`), once for one word and three times
for three. -/
theorem firstFailingWordDecides : Obligations.FirstFailingWordDecides := by
  refine ⟨fun a0 a1 a2 => ?_, fun a0 a1 a2 b0 b1 b2 c0 c1 c2 => ?_⟩
  · rw [decWords, decWordsFrom_word, decWordsFrom_nil]; rfl
  · simp only [decWords, decWordsFrom_word, decWordsFrom_nil, ite_not]; rfl

/-! ### ENCODE_WORD and DECODE_WORD -/

/-- Two bytes as data: 32 zero bits above them (R77). -/
theorem setWidth_two_bytes (b0 b1 : Byte) : (b0 ++ b1).setWidth 48 = 0#32 ++ b0 ++ b1 :=
  calc (b0 ++ b1).setWidth 48 = 0#32 ++ (b0 ++ b1) := BitVec.setWidth_eq_append (by decide)
    _ = 0#32 ++ b0 ++ b1 := BitVec.append_assoc'

/-- Three bytes as data: 24 zero bits above them (R77). -/
theorem setWidth_three_bytes (b0 b1 b2 : Byte) : (b0 ++ b1 ++ b2).setWidth 48 = 0#24 ++ b0 ++ b1 ++ b2 :=
  calc (b0 ++ b1 ++ b2).setWidth 48 = 0#24 ++ (b0 ++ b1 ++ b2) := BitVec.setWidth_eq_append (by decide)
    _ = 0#24 ++ (b0 ++ b1) ++ b2 := BitVec.append_assoc'
    _ = 0#24 ++ b0 ++ b1 ++ b2 := congrArg (· ++ b2) (BitVec.append_assoc' (x₁ := 0#24))

theorem exec_encodeWord (v : Word16) (s : State) : exec (.encodeWord v) s =
    .next (completed .ok 0 ((hiByte v ++ loByte v ++ crc8 [hiByte v, loByte v]).setWidth 48) s) := rfl

/-- Settles O18: the value stands below 16 fixed bits (R70), and the DataWord below 24 zero bits of the data. -/
theorem encodeWordResult : Obligations.EncodeWordResult := by
  refine fun s v => ⟨congrArg Encoded.request (BitVec.append_assoc' (x₁ := 0xB0#8) (x₂ := 0#8)), ?_⟩
  rw [exec_encodeWord, setWidth_three_bytes]

theorem exec_decodeWord_valid {c : Word24} (s : State) (h : crc8 [chunkHi c, chunkLo c] = chunkCk c) :
    exec (.decodeWord c) s = .next (completed .ok 0 ((chunkHi c ++ chunkLo c).setWidth 48) s) := by
  change execDecodeWord c s = _
  rw [execDecodeWord, dec_valid h]; rfl

theorem exec_decodeWord_invalid {c : Word24} (s : State) (h : crc8 [chunkHi c, chunkLo c] ≠ chunkCk c) :
    exec (.decodeWord c) s = .next (completed .checksumMismatch 0 0 s) := by
  change execDecodeWord c s = _
  rw [execDecodeWord, dec_invalid h]; rfl

/-- Settles O19: the chunk stands below 8 fixed bits (R70), and the check of `dec` decides which way DECODE_WORD
ends. -/
theorem decodeWordResult : Obligations.DecodeWordResult := by
  refine fun s c => ⟨rfl, fun h => ?_, exec_decodeWord_invalid s⟩
  rw [exec_decodeWord_valid s h, setWidth_two_bytes]

end Sys2Proof.Proofs
end

section
/-!
The framer (42_framer.md): what each transaction of R142 returns for each outcome of its calls (R143 to R149, R248),
and what the wire commands hand over to their caller.
-/

namespace Sys2Proof.Proofs

open Sys2Proof.Machine Sys2Proof.Safety Sys2Proof.Laws

/-! ### The checks of a reply -/

/-- What the checks of a reply of `n` words return: the length goes before the checksums (R147 to R149). -/
def replyResult (n : Nat) (bytes : List Byte) : FrameResult :=
  if bytes.length ≠ 3 * n then .fail .protocolViolation 0 else decWords bytes

/-- The checks take a reply to phase DECODE, whether it is good or not. -/
theorem checkReply_eq (bytes : List Byte) (n : Nat) (s : State) :
    checkReply bytes n s = .done (replyResult n bytes) { s with phase := .decode } := by
  unfold checkReply replyResult
  split <;> rfl

theorem replyResult_length {n : Nat} {bytes : List Byte} (h : bytes.length ≠ 3 * n) :
    replyResult n bytes = .fail .protocolViolation 0 := if_pos h

theorem replyResult_words {n : Nat} {bytes : List Byte} (h : bytes.length = 3 * n) :
    replyResult n bytes = decWords bytes := if_neg (not_not_intro h)

/-- A reply of three words, of which the first failing one decides (R124). -/
theorem replyResult_three (a0 a1 a2 b0 b1 b2 c0 c1 c2 : Byte) :
    replyResult 3 [a0, a1, a2, b0, b1, b2, c0, c1, c2] =
      if crc8 [a0, a1] ≠ a2 then .fail .checksumMismatch 0
      else if crc8 [b0, b1] ≠ b2 then .fail .checksumMismatch 1
      else if crc8 [c0, c1] ≠ c2 then .fail .checksumMismatch 2
      else .ok [a0 ++ a1, b0 ++ b1, c0 ++ c1] :=
  (replyResult_words rfl).trans (firstFailingWordDecides.2 ..)

theorem replyResult_one (b0 b1 b2 : Byte) : replyResult 1 [b0, b1, b2] =
    if crc8 [b0, b1] = b2 then .ok [b0 ++ b1] else .fail .checksumMismatch 0 :=
  (replyResult_words rfl).trans (firstFailingWordDecides.1 ..)

/-! ### One outcome of a call -/

/-- A transmit that succeeds is followed by the rest of its transaction (R143, R144, R146). -/
theorem awaitTx_issueTx_ok (k : State → Progress) (f : List Byte) (tmo : Tmo) {s : State} {a : List Byte}
    {rest : List Draw} (hd : s.draws = .ok a :: rest) :
    awaitTx k (issueTx f tmo s) = k { transacted f none [.tx f tmo] rest s with phase := .tx } := by
  rw [awaitTx, nextDraw_cons (s := issueTx f tmo s) hd]; rfl

/-- A transmit that fails ends its transaction, whatever was to follow (R143, R144, R146). -/
theorem awaitTx_issueTx_err (k : State → Progress) (f : List Byte) (tmo : Tmo) {s : State} {rest : List Draw}
    (hd : s.draws = .err :: rest) : awaitTx k (issueTx f tmo s) =
      .done (.fail .transportError 0) { transacted f none [.tx f tmo] rest s with phase := .tx } := by
  rw [awaitTx, nextDraw_cons (s := issueTx f tmo s) hd]; rfl

/-- A transmit whose outcome is still to come is in flight (R56). -/
theorem awaitTx_issueTx_stall (k : State → Progress) (f : List Byte) (tmo : Tmo) {s : State} {rest : List Draw}
    (hd : s.draws = .stall :: rest) : awaitTx k (issueTx f tmo s) =
      .waiting { transacted f none [.tx f tmo] rest s with phase := .tx } :=
  awaitTx_stall (s := issueTx f tmo s) k hd

theorem awaitReply_err (n : Nat) {s : State} {rest : List Draw} (hd : s.draws = .err :: rest) :
    awaitReply n s = .done (.fail .transportError 0) { s with draws := rest } := by
  simp only [awaitReply, nextDraw_cons hd]

/-- A reply is kept in RXBUF and checked (R147 to R149). -/
theorem awaitReply_ok (n : Nat) {s : State} {bytes : List Byte} {rest : List Draw} (hd : s.draws = .ok bytes :: rest) :
    awaitReply n s =
      .done (replyResult n bytes) { s with draws := rest, rxbuf := some bytes, phase := .decode } := by
  simp only [awaitReply, nextDraw_cons hd, checkReply_eq]

/-- A receive is one more call of the transaction (R144). -/
theorem issueRx_transacted (n : Nat) (tmo : Tmo) (f : List Byte) (rx : Option (List Byte)) (acts : List Action)
    (rest : List Draw) (ph : Phase) (s : State) : issueRx n tmo { transacted f rx acts rest s with phase := ph } =
      { transacted f rx (acts ++ [.rx (3 * n) tmo]) rest s with phase := .rx } := by
  simp only [issueRx, transacted, List.append_assoc]

/-! ### The transactions -/

/-- `x_tx_rx` whose transmit fails makes no receive (R144). -/
theorem xTxRx_err (code : Word16) (n : Nat) (tmo : Tmo) {s : State} {rest : List Draw} (hd : s.draws = .err :: rest) :
    xTxRx code n tmo s = .done (.fail .transportError 0)
      { transacted (frameCmd code) none [.tx (frameCmd code) tmo] rest s with phase := .tx } :=
  awaitTx_issueTx_err _ _ tmo hd

/-- `x_tx_rx` whose transmit succeeds is its receive, in flight (R144). -/
theorem xTxRx_ok (code : Word16) (n : Nat) (tmo : Tmo) {s : State} {a : List Byte} {rest : List Draw}
    (hd : s.draws = .ok a :: rest) : xTxRx code n tmo s = awaitReply n
      { transacted (frameCmd code) none [.tx (frameCmd code) tmo, .rx (3 * n) tmo] rest s with phase := .rx } :=
  (awaitTx_issueTx_ok _ _ tmo hd).trans (congrArg (awaitReply n) (issueRx_transacted ..))

/-- `x_tx_rx` that receives a reply returns what the reply's checks say. -/
theorem xTxRx_reply (code : Word16) (n : Nat) (tmo : Tmo) {s : State} {a bytes : List Byte} {rest : List Draw}
    (hd : s.draws = .ok a :: .ok bytes :: rest) : xTxRx code n tmo s = .done (replyResult n bytes)
      { transacted (frameCmd code) (some bytes) [.tx (frameCmd code) tmo, .rx (3 * n) tmo] rest s with
        phase := .decode } := by
  rw [xTxRx_ok code n tmo hd, awaitReply_ok n rfl]
  rfl

/-- `x_tx_rx` with a good reply returns its words. -/
theorem xTxRx_gives {code : Word16} {tmo : Tmo} {s : State} {ds rest : List Draw} {acts : List Action}
    {bytes : List Byte} {w0 w1 w2 : Word16} (h : ReadGives (frameCmd code) tmo ds acts bytes w0 w1 w2)
    (hd : s.draws = ds ++ rest) : xTxRx code 3 tmo s = .done (.ok [w0, w1, w2])
      { transacted (frameCmd code) (some bytes) acts rest s with phase := .decode } := by
  cases h with
  | reply a w0 w1 w2 => rw [xTxRx_reply code 3 tmo hd, replyResult_words rfl, decWords_enc3]; rfl

/-- `x_tx_rx` returns the failure that arises first (R248). -/
theorem xTxRx_fails {code : Word16} {tmo : Tmo} {s : State} {ds rest : List Draw} {acts : List Action}
    {rx : Option (List Byte)} {ph : Phase} {st : Status} {k : BitVec 2}
    (h : ReadFails (frameCmd code) tmo ds acts rx ph st k) (hd : s.draws = ds ++ rest) :
    xTxRx code 3 tmo s = .done (.fail st k) { transacted (frameCmd code) rx acts rest s with phase := ph } := by
  cases h with
  | transmit => exact xTxRx_err code 3 tmo hd
  | receive a => rw [xTxRx_ok code 3 tmo hd, awaitReply_err 3 rfl]; rfl
  | length a bytes hlen => rw [xTxRx_reply code 3 tmo hd, replyResult_length hlen]; rfl
  | word0 a a0 a1 a2 b0 b1 b2 c0 c1 c2 h0 =>
    rw [xTxRx_reply code 3 tmo hd, replyResult_three, if_pos h0]; rfl
  | word1 a a0 a1 a2 b0 b1 b2 c0 c1 c2 h0 h1 =>
    rw [xTxRx_reply code 3 tmo hd, replyResult_three, if_neg (not_not_intro h0), if_pos h1]; rfl
  | word2 a a0 a1 a2 b0 b1 b2 c0 c1 c2 h0 h1 h2 =>
    rw [xTxRx_reply code 3 tmo hd, replyResult_three, if_neg (not_not_intro h0), if_neg (not_not_intro h1), if_pos h2]
    rfl

/-- `x_txrx` whose combined call fails (R145). -/
theorem xTxrx_err (code : Word16) (n : Nat) (tmo : Tmo) {s : State} {rest : List Draw} (hd : s.draws = .err :: rest) :
    xTxrx code n tmo s = .done (.fail .transportError 0)
      { transacted (frameCmd code) none [.txRx (frameCmd code) (3 * n) tmo] rest s with phase := .txrx } :=
  awaitReply_err (s := issueTxRx (frameCmd code) n tmo s) n hd

/-- `x_txrx` that receives a reply returns what the reply's checks say (R145). -/
theorem xTxrx_reply (code : Word16) (n : Nat) (tmo : Tmo) {s : State} {bytes : List Byte} {rest : List Draw}
    (hd : s.draws = .ok bytes :: rest) : xTxrx code n tmo s = .done (replyResult n bytes)
      { transacted (frameCmd code) (some bytes) [.txRx (frameCmd code) (3 * n) tmo] rest s with phase := .decode } :=
  awaitReply_ok (s := issueTxRx (frameCmd code) n tmo s) n hd

/-! ### The wire commands -/

/-- With a latched timeout, a wire command hands over what its transaction returns (R33, R37, R142). -/
theorem withTmo_handOver {s : State} {tmo : Tmo} (ht : s.tmo = some tmo) (g : Tmo → State → Progress) :
    withTmo s (fun tmo s => handOver (g tmo s)) = .next (handOver (g tmo s)) := by
  rw [withTmo, ht]

/-- Settles O21: the three commands are one transmit of their frame each, which completes, fails or is in flight. -/
theorem noReplyCommandResult : Obligations.NoReplyCommandResult := by
  intro s tmo d rest v ht hd after
  have transmits (f : List Byte) : withTmo s (fun tmo s => handOver (awaitTx (.done (.ok [])) (issueTx f tmo s))) =
      .next (after f) := by
    rw [withTmo_handOver ht fun tmo s => awaitTx (.done (.ok [])) (issueTx f tmo s)]
    cases d with
    | ok a => rw [awaitTx_issueTx_ok _ f tmo hd]; rfl
    | err => rw [awaitTx_issueTx_err _ f tmo hd]; rfl
    | stall => rw [awaitTx_issueTx_stall _ f tmo hd]; rfl
  exact ⟨transmits [0x21, 0xB1], transmits [0x3F, 0x86], transmits _⟩

/-- The two commands with a separate reply are `x_tx_rx` of their code (R142). -/
theorem exec_separateReply {i : Instr} {f : List Byte} {s : State} {tmo : Tmo}
    (hi : (i = .cmdGetSerial ∧ f = [0x36, 0x82]) ∨ (i = .cmdReadMeasurement ∧ f = [0xEC, 0x05]))
    (ht : s.tmo = some tmo) :
    ∃ code, frameCmd code = f ∧ exec i s = .next (handOver (xTxRx code 3 tmo s)) := by
  rcases hi with ⟨rfl, rfl⟩ | ⟨rfl, rfl⟩
  · exact ⟨Command.getSerial.code, rfl, withTmo_handOver ht _⟩
  · exact ⟨Command.readMeasurement.code, rfl, withTmo_handOver ht _⟩

/-- Settles O22: the commands hand over what `x_tx_rx` returns (`xTxRx_gives`, `xTxRx_fails`). -/
theorem separateReplyCommandResult : Obligations.SeparateReplyCommandResult := by
  intro i f hi s tmo ds rest acts ht hd
  obtain ⟨code, rfl, he⟩ := exec_separateReply hi ht
  refine ⟨fun bytes w0 w1 w2 h => ?_, fun rx ph st k h => ?_⟩
  · rw [he, xTxRx_gives h hd]; rfl
  · rw [he, xTxRx_fails h hd]; rfl

/-- Settles O23: the command hands over what `x_txrx` returns (`xTxrx_err`, `xTxrx_reply`), for a reply what the
checks of its length and of its one word say. -/
theorem combinedReplyCommandResult : Obligations.CombinedReplyCommandResult := by
  intro s tmo rest ht f acts
  have he : exec .cmdGetTempOffset s = .next (handOver (xTxrx Command.getTempOffset.code 1 tmo s)) :=
    withTmo_handOver ht _
  refine ⟨fun hd => ?_, fun bytes hlen hd => ?_, fun b0 b1 b2 hd => ?_⟩
  · rw [he, xTxrx_err _ 1 tmo hd]; rfl
  · rw [he, xTxrx_reply _ 1 tmo hd, replyResult_length hlen]; rfl
  · rw [he, xTxrx_reply _ 1 tmo hd, replyResult_one]; rfl

end Sys2Proof.Proofs
end

section
/-!
The sequencer's operations (43_sequencer.md R160 to R171), each from its start: the mode's refusal, what an operation
does with the value its transaction returns, and the registers that READ_STATUS shows.
-/

namespace Sys2Proof.Proofs

open Sys2Proof.Machine Sys2Proof.Safety Sys2Proof.Laws

/-! ### The prologue and ATTACH -/

/-- Settles O25: the prologue raises STATE_ERROR, which is a response and nothing else (R243). -/
theorem prologueRefusesByMode : Obligations.PrologueRefusesByMode := exec_busOp_uninit

/-- ATTACH in UNINIT (R164). -/
theorem exec_attach_uninit {s : State} (h : s.mode = .uninit) :
    exec .attach s = .next (completed .ok 0 0 { s with mode := .ready }) := if_pos h

/-- ATTACH in an attached mode (R162, R164). -/
theorem exec_attach_attached {s : State} (h : s.mode ≠ .uninit) :
    exec .attach s = .next (completed .stateError 0 0 s) := if_neg h

/-- Settles O26: MODE decides between the two ends of ATTACH. -/
theorem attachResult : Obligations.AttachResult := ⟨rfl, fun _ => ⟨exec_attach_uninit, exec_attach_attached⟩⟩

/-! ### Operations with a reply -/

/-- Outside UNINIT an operation runs with its latched timeout (R162, R33). -/
theorem busOp_attached {s : State} {tmo : Tmo} (hm : s.mode ≠ .uninit) (ht : s.tmo = some tmo)
    (body : Tmo → State → State) : busOp s body = .next (body tmo s) := by
  rw [busOp, if_neg hm, withTmo, ht]

/-- A read of three words answers with them in reply order, the first one the most significant (R125), or raises the
failure of its transaction (R165, R168). -/
theorem read_ends {i : Instr} {code : Word16} {tmo : Tmo} {s : State} {ds rest : List Draw} {acts : List Action}
    (he : exec i s = .next (endRead (xTxRx code 3 tmo s))) (hd : s.draws = ds ++ rest) :
    (∀ (bytes : List Byte) (w0 w1 w2 : Word16), ReadGives (frameCmd code) tmo ds acts bytes w0 w1 w2 →
      exec i s =
        .next (completed .ok 0 (w0 ++ w1 ++ w2) (transacted (frameCmd code) (some bytes) acts rest s))) ∧
    (∀ (rx : Option (List Byte)) (ph : Phase) (st : Status) (k : BitVec 2),
      ReadFails (frameCmd code) tmo ds acts rx ph st k →
      exec i s = .next (completed st k 0 (transacted (frameCmd code) rx acts rest s))) := by
  refine ⟨fun bytes w0 w1 w2 h => ?_, fun rx ph st k h => ?_⟩
  · rw [he, xTxRx_gives h hd]; rfl
  · rw [he, xTxRx_fails h hd]; rfl

/-- Settles O27: outside UNINIT, IDENTIFY is a read with `x_tx_rx` of 0x3682. -/
theorem identifyResult : Obligations.IdentifyResult :=
  ⟨rfl, fun _ _ _ _ _ hm ht => read_ends (code := Command.getSerial.code) (busOp_attached hm ht _)⟩

/-- Settles O28: outside UNINIT, READ_SAMPLE is a read with `x_tx_rx` of 0xEC05. -/
theorem readSampleResult : Obligations.ReadSampleResult :=
  ⟨rfl, fun _ _ _ _ _ hm ht => read_ends (code := Command.readMeasurement.code) (busOp_attached hm ht _)⟩

/-- Settles O29: GET_TEMP_OFFSET ends with the value of `x_txrx` for 0x2318 (`xTxrx_err`, `xTxrx_reply`), for a reply
what the checks of its length and of its one word say. -/
theorem getTempOffsetResult : Obligations.GetTempOffsetResult := by
  refine ⟨rfl, ?_⟩
  intro s tmo rest hm ht f acts
  have he : exec .getTempOffset s = .next (endRead (xTxrx Command.getTempOffset.code 1 tmo s)) := busOp_attached hm ht _
  refine ⟨fun hd => ?_, fun bytes hlen hd => ?_, fun b0 b1 b2 hck hd => ?_, fun w hd => ?_⟩
  · rw [he, xTxrx_err _ 1 tmo hd]; rfl
  · rw [he, xTxrx_reply _ 1 tmo hd, replyResult_length hlen]; rfl
  · rw [he, xTxrx_reply _ 1 tmo hd, replyResult_one, if_neg hck]; rfl
  · rw [he, xTxrx_reply _ 1 tmo hd, replyResult_words rfl, decWords_enc1]; rfl

/-! ### Operations without a reply -/

/-- START, STOP and SET are one transmit, which writes MODE with `g` when it returns OK and nothing when it fails (R166,
R167, R169). -/
theorem send_ends {i : Instr} {g : Mode → Mode} {f : List Byte} {tmo : Tmo} {s : State} {rest : List Draw}
    (he : exec i s = .next (endSend g (awaitTx (.done (.ok [])) (issueTx f tmo s)))) :
    (∀ a : List Byte, s.draws = .ok a :: rest →
      exec i s = .next (completed .ok 0 0 { transacted f none [.tx f tmo] rest s with mode := g s.mode })) ∧
    (s.draws = .err :: rest →
      exec i s = .next (completed .transportError 0 0 (transacted f none [.tx f tmo] rest s))) := by
  refine ⟨fun a hd => ?_, fun hd => ?_⟩
  · rw [he, awaitTx_issueTx_ok _ f tmo hd]; rfl
  · rw [he, awaitTx_issueTx_err _ f tmo hd]; rfl

/-- Settles O30: SET_TEMP_OFFSET is one transmit of the set frame (`frameSet_eq`), and writes no MODE. -/
theorem setTempOffsetResult : Obligations.SetTempOffsetResult := by
  refine ⟨fun v => congrArg Encoded.request (BitVec.append_assoc' (x₁ := 0x70#8) (x₂ := 0#8)), ?_⟩
  intro s tmo rest v hm ht f
  exact send_ends (g := id) (f := f) (busOp_attached hm ht _)

/-- START and STOP are one transmit each, and write the MODE of their rule on OK (R166, R167). -/
theorem exec_startStop {i : Instr} {f : List Byte} {m : Mode} {s : State} {tmo : Tmo}
    (hi : (i = .startPeriodic ∧ f = [0x21, 0xB1] ∧ m = .periodic) ∨ (i = .stopPeriodic ∧ f = [0x3F, 0x86] ∧ m = .ready))
    (hm : s.mode ≠ .uninit) (ht : s.tmo = some tmo) :
    exec i s = .next (endSend (fun _ => m) (awaitTx (.done (.ok [])) (issueTx f tmo s))) := by
  rcases hi with ⟨rfl, rfl, rfl⟩ | ⟨rfl, rfl, rfl⟩
  · exact busOp_attached hm ht _
  · exact busOp_attached hm ht _

/-- Settles O31: START and STOP are one transmit each (`exec_startStop`), which ends as `send_ends` says. -/
theorem startStopResult : Obligations.StartStopResult :=
  ⟨rfl, rfl, fun _ _ _ hi _ _ _ hm ht => send_ends (exec_startStop hi hm ht)⟩

/-! ### READ_STATUS -/

/-- The fields of a word of R171's layout: each is found by leaving out the fields below it. -/
theorem extract_statusFields (z : BitVec 24) (crc : Byte) (y : BitVec 6) (e : BitVec 2) (st : BitVec 4) (x u : BitVec 1)
    (m : BitVec 2) : let d := z ++ crc ++ y ++ e ++ st ++ x ++ u ++ m
    d.extractLsb' 0 2 = m ∧ d.extractLsb' 2 1 = u ∧ d.extractLsb' 3 1 = x ∧ d.extractLsb' 4 4 = st ∧
    d.extractLsb' 8 2 = e ∧ d.extractLsb' 10 6 = y ∧ d.extractLsb' 16 8 = crc ∧ d.extractLsb' 24 24 = z := by
  intro d
  simp (disch := decide) only [d, BitVec.extractLsb'_append_eq_of_le, BitVec.extractLsb'_append_eq_right,
    BitVec.extractLsb'_eq_self, Nat.reduceSub, and_self]

theorem exec_readStatus (s : State) : exec .readStatus s = .next (finish ⟨.ok, 0, statusWord s⟩ s) := rfl

/-- A response of its own writes nothing that the status word shows (R171, R244). -/
theorem statusWord_finish (r : Response) (s : State) : statusWord (finish r s) = statusWord s := rfl

/-- Two READ_STATUS in a row answer with the same data (R171). -/
theorem execAll_readStatus_twice (s : State) : ∃ t, execAll [.readStatus, .readStatus] s = .next t ∧
    t.responses = s.responses ++ [⟨.ok, 0, statusWord s⟩, ⟨.ok, 0, statusWord s⟩] := by
  simp only [execAll, exec_readStatus, statusWord_finish]
  exact ⟨_, rfl, by simp⟩

/-- Settles O32: the fields of the status word (`extract_statusFields`), once and a second time
(`execAll_readStatus_twice`). -/
theorem readStatusResult : Obligations.ReadStatusResult := by
  refine ⟨rfl, rfl, rfl, rfl, fun s => ⟨statusWord s, rfl, ?_⟩⟩
  obtain ⟨hm, hu, hx, hst, he, hy, hcrc, hz⟩ := extract_statusFields 0#24 s.crcAcc 0#6 s.lastErrWord s.lastStatus.code
    0#1 (BitVec.ofBool s.unusable) s.mode.bits
  exact ⟨hm, hu, hx, hst, he, hy, hcrc, hz, execAll_readStatus_twice s⟩

/-! ### The step that starts an operation -/

/-- An idle block that is offered a word that decodes accepts it and runs its instruction (R161, R162). -/
theorem fetch_offered {s : State} {w : Word32} {tmo : Tmo} {rest : List HostEvent} {i : Instr}
    (ho : Offers s w tmo rest) (hd : decodeRequest w = .ok i) :
    fetch s = .instr i (accept w tmo { s with host := rest }) := by
  obtain ⟨hb, hh⟩ := ho
  simp [fetch, fetchLatched, hh, hb, hd]

/-- A command presented to the framer inside an operation is run as the wire command it decodes to. -/
theorem fetch_command {s : State} {c : FramerCommand} {i : Instr} (hb : s.busy = true) (hh : s.host = [])
    (hc : s.command = some c) (hd : decodeCommand c.code c.out = .ok i) :
    fetch s = .instr i { s with command := none } := by
  simp [fetch, fetchBusy, hh, hb, hc, hd]

/-- Settles O50: what a step finds in the two cases (`fetch_offered`, `fetch_command`). -/
theorem stepRunsDecodedInstruction : Obligations.StepRunsDecodedInstruction := by
  refine ⟨fun s w tmo rest i ho hd => ?_, fun s code out i hb hh hc hd => ?_⟩
  · rw [step_eq, fetch_offered ho hd]; rfl
  · rw [step_eq, fetch_command hb hh hc hd]; rfl

/-! ### The host's sample -/

/-- The three words of a READ_SAMPLE data field, co2 on top (R175). -/
theorem extract_words (w0 w1 w2 : Word16) : (w0 ++ w1 ++ w2).extractLsb' 32 16 = w0 ∧
    (w0 ++ w1 ++ w2).extractLsb' 16 16 = w1 ∧ (w0 ++ w1 ++ w2).extractLsb' 0 16 = w2 := by
  simp (disch := decide) only [BitVec.extractLsb'_append_eq_of_le, BitVec.extractLsb'_append_eq_right,
    BitVec.extractLsb'_eq_self, Nat.reduceSub, and_self]

theorem sampleOfData_words (w0 w1 w2 : Word16) :
    sampleOfData (w0 ++ w1 ++ w2) = ⟨w0.toNat, temperatureC w1, humidityPct w2⟩ := by
  obtain ⟨h0, h1, h2⟩ := extract_words w0 w1 w2
  simp only [sampleOfData, h0, h1, h2, co2Ppm]

/-- Settles O56: the words of the data (`sampleOfData_words`), and the vectors, which the conversions evaluate to. -/
theorem sampleConversions : Obligations.SampleConversions :=
  ⟨sampleOfData_words, by decide +kernel, by decide +kernel, by decide +kernel, by decide +kernel, by decide +kernel,
    by decide +kernel, by decide +kernel⟩

end Sys2Proof.Proofs
end

section
/-!
MODE from step to step: it never goes back to UNINIT but by a reset (R160), and each operation writes it as R172's table
says. And what every step short of a reset leaves alone while an operation is in progress: the host's list, in which a
request is held, and the latch (R33, R161, R279).
-/

namespace Sys2Proof.Proofs

open Sys2Proof.Machine Sys2Proof.Safety Sys2Proof.Laws

/-! ### UNINIT -/

/-- If MODE is UNINIT in `t`, it is so in `s`. -/
def StaysAttached (s t : State) : Prop := t.mode = .uninit → s.mode = .uninit

theorem staysAttached_of_mode {s t : State} {m : Mode} (ht : t.mode = m) (hm : m = s.mode ∨ m ≠ .uninit) :
    StaysAttached s t := fun h => hm.elim (fun e => (ht.trans e).symm.trans h) (fun hne => absurd (ht.symm.trans h) hne)

theorem baseOf_staysAttached {tmo : Tmo} {s t : State} (h : BaseOf tmo s t) : StaysAttached s t := by
  obtain ⟨m, u, a, b, rb, ph, ds, n, new, rfl, hm, _⟩ := h
  exact staysAttached_of_mode rfl hm

theorem opRan_staysAttached {H : Prop} {tmo : Tmo} {s t : State} (h : OpRan H tmo s t) : StaysAttached s t := by
  rcases h with ⟨hb, _⟩ | ⟨st, k, d, u, hb, _, rfl⟩
  · exact baseOf_staysAttached hb
  · exact baseOf_staysAttached (t := u) hb

theorem exec_staysAttached {i : Instr} {s t : State} (h : exec i s = .next t) : StaysAttached s t := by
  cases exec_cases h with
  | answered m c st k r _ _ ht hm => exact staysAttached_of_mode (by rw [ht]; rfl) hm
  | refusedByMode _ hm _ => exact fun _ => hm
  | operation _ _ tmo _ hc => exact opRan_staysAttached (s := entered i s) hc.ran
  | wire _ tmo _ c acts p ht hp => exact staysAttached_of_mode (ht ▸ (handOver_frame hp.moves).mode) (.inl rfl)

theorem resume_staysAttached {s t : State} (h : resume s = .next t) : StaysAttached s t := by
  obtain ⟨tmo, u, _, hu, hran⟩ := resume_ran h
  rcases hu with rfl | rfl
  · exact opRan_staysAttached hran
  · exact opRan_staysAttached (s := { s with framerResult := none }) hran

/-- Finding what to do writes MODE only by a reset (R270). -/
theorem fetch_mode {s : State} (hr : ¬ ResetNext s) : Found (fun u => u.mode = s.mode) (fetch s) := by
  have hf := fetch_case s
  generalize fetch s = f at hf
  cases hf with
  | reset r h => exact absurd ⟨r, h⟩ hr
  | badCommand => trivial
  | noLatch => trivial
  | _ => rfl

/-- Settles O34: neither what a step finds to do (`fetch_mode`), nor an instruction, nor an operation that goes on leads
to UNINIT from another mode. -/
theorem uninitOnlyByReset : Obligations.UninitOnlyByReset := fun s _ h hr =>
  step_of_found (Q := StaysAttached s) (fetch_mode hr) (fun _ hu ht => hu ▸ ht)
    (fun _ _ hu h ht => hu ▸ exec_staysAttached h ht) (fun _ hu h ht => hu ▸ resume_staysAttached h ht) h

/-! ### The host's list and the latch -/

/-- The host's list and the latched request are the same in `t` as in `s`. -/
def HoldsRequest (s t : State) : Prop := t.host = s.host ∧ t.req = s.req

theorem opRan_holdsRequest {H : Prop} {tmo : Tmo} {s t : State} (h : OpRan H tmo s t) : HoldsRequest s t :=
  ⟨(busOpFrame_of_opRan h).host, (busOpFrame_of_opRan h).req⟩

theorem exec_holdsRequest {i : Instr} {s t : State} (h : exec i s = .next t) : HoldsRequest s t := by
  cases exec_cases h with
  | answered m c st k r _ _ ht => subst ht; exact ⟨rfl, rfl⟩
  | refusedByMode _ _ ht => subst ht; exact ⟨rfl, rfl⟩
  | operation _ _ tmo _ hc => exact opRan_holdsRequest (s := entered i s) hc.ran
  | wire _ tmo _ c acts p ht hp =>
    subst ht
    exact ⟨(handOver_frame hp.moves).host, (handOver_frame hp.moves).req⟩

theorem resume_holdsRequest {s t : State} (h : resume s = .next t) : HoldsRequest s t := by
  obtain ⟨tmo, u, _, hu, hran⟩ := resume_ran h
  rcases hu with rfl | rfl
  · exact opRan_holdsRequest hran
  · exact opRan_holdsRequest (s := { s with framerResult := none }) hran

/-- A block that finds a request offered while it is BUSY leaves it where it is (R161). -/
theorem fetch_holdsRequest {s : State} {w : Word32} {tmo : Tmo} {rest : List HostEvent} (hb : s.busy = true)
    (hh : s.host = .request w tmo :: rest) : Found (HoldsRequest s) (fetch s) := by
  have held : ∀ r, Quiet s r → r = s.host := by
    rintro r (h | ⟨h, _⟩)
    · rw [hh] at h; cases h
    · exact h.symm
  have hf := fetch_case s
  generalize fetch s = f at hf
  cases hf with
  | reset r h => rw [hh] at h; cases h
  | idle r h => rw [hb] at h; cases h
  | accepted w tmo r i ho => exact absurd (hb.symm.trans ho.1) (by decide)
  | acceptedIllegal w tmo r e ho => exact absurd (hb.symm.trans ho.1) (by decide)
  | command r c i _ hq => exact ⟨held r hq, rfl⟩
  | badCommand => trivial
  | start r w i _ hq => exact ⟨held r hq, rfl⟩
  | startIllegal r w e _ hq => exact ⟨held r hq, rfl⟩
  | noLatch => trivial
  | resume r _ hq => exact ⟨held r hq, rfl⟩

/-- Settles O45: the request is held where the step finds what to do (`fetch_holdsRequest`), and the rest of the step
touches neither the host's list nor the latch. -/
theorem requestHeldWhileBusy : Obligations.RequestHeldWhileBusy := by
  intro s t w tmo rest hb hh h
  have trans {u v : State} (hu : HoldsRequest s u) (hv : HoldsRequest u v) : HoldsRequest s v :=
    ⟨hv.1.trans hu.1, hv.2.trans hu.2⟩
  exact step_of_found (Q := HoldsRequest s) (fetch_holdsRequest hb hh) (fun _ => id)
    (fun _ _ hu h => trans hu (exec_holdsRequest h)) (fun _ hu h => trans hu (resume_holdsRequest h)) h

/-! ### The table of R172 -/

/-- MODE as it was is in the table's row where the operation has not completed, and in UNINIT. -/
theorem modeRow_of_mode {i : Instr} {s t : State} (ha : i ≠ .attach)
    (hok : s.mode = .uninit ∨ t.busy = true) (h : t.mode = s.mode) : ModeRow i s t := by
  have hc : ¬ (s.mode ≠ .uninit ∧ t.busy = false ∧ t.lastStatus = .ok) := by
    rintro ⟨hm, hb, _⟩
    rcases hok with hok | hok
    · exact hm hok
    · rw [hok] at hb; cases hb
  cases i
  case attach => exact absurd rfl ha
  case startPeriodic => exact h.trans (if_neg hc).symm
  case stopPeriodic => exact h.trans (if_neg hc).symm
  case checkIdentity => exact .inl h
  all_goals exact h

/-- The row of an operation that has responded, in the mode that it ends in (`endMode`). -/
theorem modeRow_of_response {i : Instr} {s t : State} (hi : busOps i = true) (hm : s.mode ≠ .uninit)
    (hb : t.busy = false) (h : t.mode = endMode i t.lastStatus s.mode) : ModeRow i s t := by
  cases i
  case startPeriodic => simpa [ModeRow, endMode, hm, hb] using h
  case stopPeriodic => simpa [ModeRow, endMode, hm, hb] using h
  case checkIdentity => exact .inl h
  case attach => cases hi
  all_goals exact h

theorem reached_inFlight {c : Command} {tmo : Tmo} {s u : State} {acts rest : List Action} {ph : Phase}
    (h : Reached c tmo s acts rest u ph) : inFlight u = some c := by
  obtain ⟨_, _, _, _, _, _, hc⟩ := h; exact hc

/-- What an operation does with a transaction agrees with the table; CHECK_IDENTITY writes MODE only after its stop. -/
theorem continued_modeRow {i : Instr} {c : Command} {a : Bool} {tmo : Tmo} {s t : State} {acts : List Action}
    (h : Continued True i c a tmo s acts t) (hi : busOps i = true) (hb : s.busy = true) (hm : s.mode ≠ .uninit) :
    ModeRow i s t ∧ (i = .checkIdentity → c ≠ .stopPeriodic → t.mode = s.mode) := by
  have ha : i ≠ .attach := by rintro rfl; cases hi
  cases h with
  | waits ph hph hu =>
    exact ⟨modeRow_of_mode ha (.inr (hu.moves.frame.busy.trans hb)) hu.mode, fun _ _ => hu.mode⟩
  | responds u rest ph hu m x st k d hg hm' hme hx ht =>
    subst ht
    exact ⟨modeRow_of_response hi hm rfl (hme trivial), fun hi _ => by rw [hi] at hme; exact hme trivial⟩
  | settles1 u rest ph hu _ _ _ ht =>
    subst ht
    exact ⟨modeRow_of_mode ha (.inr (hu.moves.frame.busy.trans hb)) hu.mode, fun _ _ => hu.mode⟩
  | settles2 u rest ph hu hi' hc m hm' ht =>
    subst hi' hc ht
    refine ⟨?_, fun _ hne => absurd rfl hne⟩
    rcases hm' with rfl | rfl
    · exact .inl rfl
    · exact .inr ⟨hm, rfl, rfl, (inFlight_congr (t := u) rfl).trans (reached_inFlight hu)⟩

/-- An operation that makes no transport call writes MODE only as ATTACH (R164). -/
theorem exec_local_modeRow {i : Instr} {s t : State} (hr : i.isRequest = true) (hb : busOps i = false)
    (h : exec i s = .next t) : ModeRow i s t := by
  cases i
  case attach =>
    by_cases hm : s.mode = .uninit
    · rw [exec_attach_uninit hm] at h; cases h; exact (if_pos hm).symm
    · rw [exec_attach_attached hm] at h; cases h; exact (if_neg hm).symm
  case decodeWord c =>
    by_cases hc : crc8 [chunkHi c, chunkLo c] = chunkCk c
    · rw [exec_decodeWord_valid s hc] at h; cases h; rfl
    · rw [exec_decodeWord_invalid s hc] at h; cases h; rfl
  case crcInit => cases h; rfl
  case crcFeed b => cases h; rfl
  case encodeWord v => cases h; rfl
  case readStatus => cases h; rfl
  all_goals first | exact Bool.noConfusion hb | exact Bool.noConfusion hr

/-- The step that starts an operation agrees with the table, and is not the one in which CHECK_IDENTITY makes its
stop. -/
theorem exec_modeRow {i : Instr} {s t : State} (hb : s.busy = true) (h : exec i s = .next t) :
    ModeRow i s t ∧ (i = .checkIdentity → t.mode = s.mode) := by
  cases exec_cases h with
  | answered m c st k r hr hb' => exact ⟨exec_local_modeRow hr hb' h, by rintro rfl; cases hb'⟩
  | refusedByMode hi hm ht =>
    subst ht
    exact ⟨modeRow_of_mode (by rintro rfl; cases hi) (.inl hm) rfl, fun _ => rfl⟩
  | operation hi hm tmo _ hc =>
    obtain ⟨hrow, hcheck⟩ := continued_modeRow (s := entered i s) hc hi hb hm
    exact ⟨hrow, fun he => hcheck he (by subst he; decide)⟩
  | wire hr tmo _ c acts p ht hp =>
    subst ht
    have hf := handOver_frame hp.moves
    exact ⟨modeRow_of_mode (by rintro rfl; cases hr) (.inr (hf.busy.trans hb)) hf.mode, by rintro rfl; cases hr⟩

/-- A step that goes on with the latched operation agrees with the table. -/
theorem resume_modeRow {i : Instr} {s t : State} (h : Inv s) (hb : s.busy = true) (hl : Latched s i)
    (ht : resume s = .next t) : ModeRow i s t := by
  obtain ⟨w, j, tmo, hw, htm, hd, hcase⟩ := resume_cases ht
  obtain rfl := Performs.unique (tmo := tmo) ⟨hb, ⟨w, hw, hd⟩, htm⟩ hl
  obtain ⟨hdec, hstop, hretry⟩ := inv_phase_left h
  cases hcase with
  | takes c r hf => rw [h.framer.2] at hf; cases hf
  | goesOn c hph _ _ hi hcont =>
    obtain ⟨hm, _⟩ := inv_call h (by simpa [AtCall, hdec] using hph)
    exact (continued_modeRow hcont hi hb hm).1
  | stops hph hi hcont =>
    subst hi
    obtain ⟨hm, _⟩ := inv_settle h (.inl (by simpa [hstop] using hph))
    exact (continued_modeRow (s := { s with phase := .stop }) hcont rfl hb hm).1
  | retries hph hi hcont =>
    subst hi
    obtain ⟨hm, _⟩ := inv_settle h (.inr (by simpa [hretry] using hph))
    exact (continued_modeRow (s := { s with phase := .retry, attempt := true }) hcont rfl hb hm).1

/-- Short of a reset, a step that finds operation `i` latched and in progress starts it in phase EXEC and goes on with it
in any other phase (R30). -/
theorem fetch_latched {i : Instr} {s : State} (h : Inv s) (hb : s.busy = true) (hl : Latched s i)
    (hr : ¬ ResetNext s) :
    ∃ r, fetch s = if s.phase = .exec then .instr i { s with host := r } else .resume { s with host := r } := by
  obtain ⟨w, hw, hd⟩ := hl
  have hf := fetch_case s
  generalize fetch s = f at hf
  cases hf with
  | reset r h => exact absurd ⟨r, h⟩ hr
  | idle r h => rw [hb] at h; cases h
  | accepted w tmo r i ho => exact absurd (hb.symm.trans ho.1) (by decide)
  | acceptedIllegal w tmo r e ho => exact absurd (hb.symm.trans ho.1) (by decide)
  | command r c i _ _ hc => rw [h.framer.1] at hc; cases hc
  | badCommand hc => exact absurd h.framer.1 hc
  | start r w' j _ _ _ hp hw' hd' =>
    cases hw.symm.trans hw'
    cases hd.symm.trans hd'
    exact ⟨r, (if_pos hp).symm⟩
  | startIllegal r w' e _ _ hw' hd' =>
    cases hw.symm.trans hw'
    cases hd.symm.trans hd'
  | noLatch _ hw' => cases hw.symm.trans hw'
  | resume r _ _ _ hp => exact ⟨r, (if_neg hp).symm⟩

/-- Settles O33: the start of an operation (`exec_modeRow`), and going on with it (`resume_modeRow`). -/
theorem modeTransitionTable : Obligations.ModeTransitionTable := by
  refine ⟨fun i s t hb h => exec_modeRow hb h, fun i s t h hb hl hr ht => ?_⟩
  obtain ⟨r, hf⟩ := fetch_latched h hb hl hr
  rw [step_eq, hf] at ht
  split at ht
  · exact (exec_modeRow (s := { s with host := r }) hb ht).1
  · exact resume_modeRow (s := { s with host := r }) (inv_host h r) hb hl ht

end Sys2Proof.Proofs
end

section
/-!
The value of a serial number makes no difference to the block (R176): an operation that receives one answers with it and
is over, whichever it is.
-/

namespace Sys2Proof.Proofs

open Sys2Proof.Machine Sys2Proof.Safety Sys2Proof.Laws

/-- What `g` answers to the bytes of a serial number does not depend on the number, but for the response's data, the
received bytes and the outcomes still to come. -/
def SerialBlind (g : List Byte → Host.Outcome State Fault Refusal) : Prop :=
  ∃ r, ∀ (v0 v1 v2 : Word16) (t : State), g (enc v0 ++ enc v1 ++ enc v2) = .next t → withoutData t = r

theorem SerialBlind.eq {g : List Byte → Host.Outcome State Fault Refusal} (h : SerialBlind g)
    {v0 v1 v2 w0 w1 w2 : Word16} {t u : State} (ht : g (enc v0 ++ enc v1 ++ enc v2) = .next t)
    (hu : g (enc w0 ++ enc w1 ++ enc w2) = .next u) : withoutData t = withoutData u := by
  obtain ⟨r, hr⟩ := h
  exact (hr _ _ _ t ht).trans (hr _ _ _ u hu).symm

theorem SerialBlind.congr {g g' : List Byte → Host.Outcome State Fault Refusal} (h : SerialBlind g)
    (he : ∀ b, g' b = g b) : SerialBlind g' := by rwa [funext he]

/-- An answer that differs only in the outcomes still to come. -/
theorem serialBlind_of_draws {g : List Byte → Host.Outcome State Fault Refusal} (s : State)
    (f : List Byte → List Draw) (h : ∀ b, g b = .next { s with draws := f b }) : SerialBlind g := by
  refine ⟨withoutData s, fun v0 v1 v2 t ht => ?_⟩
  rw [h] at ht; cases ht; rfl

/-- IDENTIFY, and each of CHECK_IDENTITY's two identifies, answers with the words it is given (R165, R200). -/
theorem continueOp_serial {i : Instr} (hi : i = .identify ∨ i = .checkIdentity) (a : Bool) (ws : List Word16)
    (s : State) : continueOp i .getSerial a (.done (.ok ws) s) = .next (respond .ok 0 (dataOfWords ws) s) := by
  rcases hi with rfl | rfl
  · rfl
  · cases a <;> rfl

/-- Without the data, a response of one status and word index is like another. -/
theorem withoutData_respond (st : Status) (k : BitVec 2) (d : Word48) (s : State) :
    withoutData (respond st k d s) = withoutData (respond st k 0 (withoutData s)) := by
  simp [withoutData, respond, finish, State.recordStatus, Function.comp_def]

/-- The receive of the serial number, whichever of the identifies it belongs to. -/
theorem serialBlind_receive {i : Instr} (hi : i = .identify ∨ i = .checkIdentity) (a : Bool) (s : State)
    (rest : List Draw) :
    SerialBlind fun b => continueOp i .getSerial a (awaitReply 3 { s with draws := .ok b :: rest }) := by
  refine ⟨withoutData (respond .ok 0 0 (withoutData { s with phase := .decode })), fun v0 v1 v2 t ht => ?_⟩
  have hd : { s with draws := .ok (enc v0 ++ enc v1 ++ enc v2) :: rest }.draws = _ := rfl
  simp only [awaitReply_ok 3 hd] at ht
  rw [replyResult_words rfl, decWords_enc3, continueOp_serial hi] at ht
  cases ht
  exact withoutData_respond ..

/-- The transmit before it, which returns OK, and the receive. -/
theorem serialBlind_transmit {i : Instr} (hi : i = .identify ∨ i = .checkIdentity) (att : Bool) (tmo : Tmo) (s : State)
    (a : List Byte) (rest : List Draw) : SerialBlind fun b =>
      continueOp i .getSerial att (awaitTx (receive 3 tmo) { s with draws := .ok a :: .ok b :: rest }) :=
  serialBlind_receive hi att (issueRx 3 tmo s) rest

/-- The step that starts the operation: it is refused in UNINIT, has no next state without a latched timeout (R37), or
makes the first identify. -/
theorem serialBlind_exec {i : Instr} (hi : i = .identify ∨ i = .checkIdentity) (s : State) (a : List Byte)
    (rest : List Draw) : SerialBlind fun b => exec i { s with draws := .ok a :: .ok b :: rest } := by
  have hbus : busOps i = true := by rcases hi with rfl | rfl <;> rfl
  by_cases hm : s.mode = .uninit
  · exact serialBlind_of_draws (raise .stateError 0 s) _ fun b => exec_busOp_uninit i _ hbus hm
  rcases Option.eq_none_or_eq_some s.tmo with ht | ⟨tmo, ht⟩
  · refine ⟨s, fun v0 v1 v2 t h => ?_⟩
    obtain ⟨tmo, htmo⟩ := exec_busOp_tmo (s := { s with draws := .ok a :: .ok (enc v0 ++ enc v1 ++ enc v2) :: rest })
      hbus hm h
    cases ht.symm.trans htmo
  · refine (serialBlind_transmit hi false tmo (issueTx (frameCmd Command.getSerial.code) tmo (entered i s)) a
      rest).congr fun b => ?_
    have hbody := busOp_attached (s := { s with draws := .ok a :: .ok b :: rest }) hm ht
    rcases hi with rfl | rfl
    · exact hbody _
    · exact hbody _

/-- Going on with a call of the identify in flight. -/
theorem serialBlind_inFlight {i : Instr} (hi : i = .identify ∨ i = .checkIdentity) {tmo : Tmo} {s : State}
    (hp : Performs i tmo s) (hf : s.framerResult = none) (hc : inFlight s = some .getSerial) (a : List Byte)
    (rest : List Draw) :
    (s.phase = .tx → SerialBlind fun b => resume { s with draws := .ok a :: .ok b :: rest }) ∧
    (s.phase = .rx → SerialBlind fun b => resume { s with draws := .ok b :: rest }) := by
  have goesOn (hph : CallPhase .getSerial s.phase) (ds : List Draw) : resume { s with draws := ds } =
      continueOp i .getSerial s.attempt (restOf .getSerial s.phase tmo { s with draws := ds }) :=
    (resume_call (s := { s with draws := ds }) ⟨hp.busy, hp.latched, hp.tmo⟩ (atCall_of_callPhase (s := s) hph)).trans
      (resumeTransaction_call (s := { s with draws := ds }) tmo hc hf hph)
  constructor <;> intro hph
  · refine (serialBlind_transmit hi s.attempt tmo s a rest).congr fun b => (goesOn (.inl hph) _).trans ?_
    rw [hph]; rfl
  · refine (serialBlind_receive hi s.attempt s rest).congr fun b => (goesOn (.inr hph) _).trans ?_
    rw [hph]; rfl

/-- The retry that follows the second settle wait. -/
theorem serialBlind_retry {tmo : Tmo} {s : State} (hp : Performs .checkIdentity tmo s) (hph : s.phase = .settle2)
    (a : List Byte) (rest : List Draw) :
    SerialBlind fun b => resume { s with draws := .ok a :: .ok b :: rest } :=
  (serialBlind_transmit (i := .checkIdentity) (.inr rfl) true tmo
    (issueTx (frameCmd Command.getSerial.code) tmo { s with phase := .retry, attempt := true }) a rest).congr fun b =>
      (resume_settle (s := { s with draws := .ok a :: .ok b :: rest }) ⟨hp.busy, hp.latched, hp.tmo⟩).2 hph

/-- A step that finds an operation in progress past its start is a reset, or goes on with the operation. -/
theorem serialBlind_step {i : Instr} {s : State} (h : Inv s) (hl : Latched s i) (hidle : s.phase ≠ .idle)
    (hexec : s.phase ≠ .exec) (f : List Byte → List Draw)
    (hgo : ∀ r tmo, Performs i tmo { s with host := r } →
      SerialBlind fun b => resume { s with host := r, draws := f b }) :
    SerialBlind fun b => step { s with draws := f b } := by
  by_cases hr : ResetNext s
  · obtain ⟨r, hr⟩ := hr
    exact serialBlind_of_draws (doReset { s with host := r }) f fun b => by simp only [step, fetch, hr]; rfl
  · have hb := inv_busy h hidle
    obtain ⟨r, hf⟩ := fetch_latched h hb hl hr
    rw [if_neg hexec] at hf
    have hs b : step { s with draws := f b } = resume { s with host := r, draws := f b } := by
      rw [step_eq, fetch_draws, hf]; rfl
    obtain ⟨tmo, hp⟩ := inv_performs h hb hl
    exact (hgo r tmo ⟨hb, hl, hp.tmo⟩).congr hs

/-- The receive of IDENTIFY or CHECK_IDENTITY in flight is that of the serial number. -/
theorem inv_receive_serial {i : Instr} {s : State} (h : Inv s) (hi : i = .identify ∨ i = .checkIdentity)
    (hl : Latched s i) (hph : s.phase = .rx) : inFlight s = some .getSerial := by
  obtain ⟨_, j, c, ⟨hj, hc, hs, _⟩, hcp⟩ := inv_call h (.inr (.inl hph))
  obtain ⟨tmo, hp⟩ := inv_performs h (inv_busy h (by simp [hph])) hl
  obtain rfl := hp.unique hj
  rw [hph] at hcp
  have hs : c = .getSerial ∨ c = .stopPeriodic := by rcases hi with rfl | rfl <;> simp_all [sends]
  rcases hs with rfl | rfl
  · exact hc
  · cases hcp

/-- Settles O41: the step that starts the operation (`serialBlind_exec`); and a step that goes on with it
(`serialBlind_step`), after the second settle wait (`serialBlind_retry`) or with a call of the identify in flight
(`serialBlind_inFlight`). -/
theorem serialValueDoesNotBranch : Obligations.SerialValueDoesNotBranch := by
  intro i s t u a v0 v1 v2 w0 w1 w2 rest hi
  refine ⟨(serialBlind_exec hi s a rest).eq, fun pre h hl hpre => ?_⟩
  have hblind : SerialBlind fun b => step { s with draws := pre ++ .ok b :: rest } := by
    rcases hpre with ⟨hph, rfl⟩ | ⟨hph, hc, rfl⟩ | ⟨hph, rfl⟩
    · have hcheck := (inv_settle h (.inr hph)).2.1
      exact serialBlind_step h hcheck (by simp [hph]) (by simp [hph]) _ fun r tmo hp => serialBlind_retry hp hph a rest
    · exact serialBlind_step h hl (by simp [hph]) (by simp [hph]) _ fun r tmo hp =>
        (serialBlind_inFlight hi hp h.framer.2 hc a rest).1 hph
    · have hc := inv_receive_serial h hi hl hph
      exact serialBlind_step h hl (by simp [hph]) (by simp [hph]) _ fun r tmo hp =>
        (serialBlind_inFlight hi hp h.framer.2 hc a rest).2 hph
  exact hblind.eq

end Sys2Proof.Proofs
end

section
/-!
The paths of CHECK_IDENTITY (44_recovery.md R200, R201): the first identify alone, and the recovery, in three steps when
no call is delayed: to the first settle wait, over the stop to the second (`recovery_reaches_retry`), over the retry to
the response (`retryIdentify_gives`, `retryIdentify_fails`).
-/

namespace Sys2Proof.Proofs

open Sys2Proof.Machine Sys2Proof.Safety Sys2Proof.Laws

/-! ### The stretches of the rule -/

/-- Outside UNINIT, CHECK_IDENTITY is its first identify, with ATTEMPT 0 (R200). -/
theorem exec_checkIdentity {s : State} {tmo : Tmo} (hm : s.mode ≠ .uninit) (ht : s.tmo = some tmo) :
    exec .checkIdentity s = .next (afterFirst (identifyBody tmo { s with attempt := false })) :=
  busOp_attached hm ht _

/-- A first identify that fails leads to the first settle wait, whatever the failure is (R201). -/
theorem afterFirst_fails {s : State} {tmo : Tmo} {ds rest : List Draw} {acts : List Action} {rx : Option (List Byte)}
    {ph : Phase} {st : Status} {k : BitVec 2} (h : ReadFails [0x36, 0x82] tmo ds acts rx ph st k)
    (hd : s.draws = ds ++ rest) :
    afterFirst (identifyBody tmo s) = settle .settle1 (transacted [0x36, 0x82] rx acts rest s) := by
  rw [identifyBody, xTxRx_fails (code := Command.getSerial.code) h hd]; rfl

/-- The stop leads to the second settle wait whether it returns OK or ERR, and only with OK writes MODE (R206). -/
theorem innerStop_completes {s : State} (tmo : Tmo) {stop : Draw} {rest : List Draw} (hd : s.draws = stop :: rest)
    (hs : stop ≠ .stall) : innerStop tmo s = settle .settle2
      { transacted [0x3F, 0x86] none [.tx [0x3F, 0x86] tmo] rest s with
        mode := if stop = .err then s.mode else .ready } := by
  cases stop with
  | ok a => rw [innerStop, xNoReply, awaitTx_issueTx_ok (s := { s with phase := .stop }) _ _ tmo hd]; rfl
  | err => rw [innerStop, xNoReply, awaitTx_issueTx_err (s := { s with phase := .stop }) _ _ tmo hd]; rfl
  | stall => exact absurd rfl hs

/-- A retry with a good reply answers with its serial. -/
theorem retryIdentify_gives {s : State} {tmo : Tmo} {ds rest : List Draw} {acts : List Action} {bytes : List Byte}
    {w0 w1 w2 : Word16} (h : ReadGives [0x36, 0x82] tmo ds acts bytes w0 w1 w2) (hd : s.draws = ds ++ rest) :
    retryIdentify tmo s = completed .ok 0 (w0 ++ w1 ++ w2) (transacted [0x36, 0x82] (some bytes) acts rest s) := by
  rw [retryIdentify, identifyBody,
    xTxRx_gives (code := Command.getSerial.code) (s := { s with phase := .retry, attempt := true }) h hd]
  rfl

/-- A retry that fails sets UNUSABLE and answers with its failure (R203). -/
theorem retryIdentify_fails {s : State} {tmo : Tmo} {ds rest : List Draw} {acts : List Action}
    {rx : Option (List Byte)} {ph : Phase} {st : Status} {k : BitVec 2}
    (h : ReadFails [0x36, 0x82] tmo ds acts rx ph st k) (hd : s.draws = ds ++ rest) :
    retryIdentify tmo s = completed st k 0 { transacted [0x36, 0x82] rx acts rest s with unusable := true } := by
  rw [retryIdentify, identifyBody,
    xTxRx_fails (code := Command.getSerial.code) (s := { s with phase := .retry, attempt := true }) h hd]
  rfl

/-! ### From one step to the next -/

/-- A step that finds a settle wait, and no reset or quiet boundary, goes on with CHECK_IDENTITY. -/
theorem step_performs_settle {s : State} {tmo : Tmo} (hp : Performs .checkIdentity tmo s) (hc : s.command = none)
    (hu : Undisturbed s) : (s.phase = .settle1 → step s = .next (innerStop tmo s)) ∧
    (s.phase = .settle2 → step s = .next (retryIdentify tmo s)) := by
  have goesOn (hx : s.phase ≠ .exec) : step s = resume s := by
    have hf : fetch s = .resume s := by
      rcases hu with hh | ⟨w, tmo', rest, hh⟩ <;> simp [fetch, fetchBusy, hh, hp.busy, hc, hx]
    rw [step_eq, hf]; rfl
  exact ⟨fun h => (goesOn (by simp [h])).trans ((resume_settle hp).1 h),
    fun h => (goesOn (by simp [h])).trans ((resume_settle hp).2 h)⟩

theorem runSteps_two {s t : State} (h : step s = .next t) : runSteps 2 s = step t := by
  simp only [runSteps, h]
  cases step t <;> rfl

/-- The first settle wait after a failed first identify (R200). -/
def inFirstWait (rx : Option (List Byte)) (acts : List Action) (rest : List Draw) (s : State) : State :=
  settle .settle1 (transacted [0x36, 0x82] rx acts rest { s with attempt := false })

/-- The second settle wait after a failed first identify: the calls and waits made are those of the rule in its order, and
of the failure only RXBUF is left (R200, R205). -/
def inSecondWait (tmo : Tmo) (rx : Option (List Byte)) (acts : List Action) (stop : Draw) (rest : List Draw)
    (s : State) : State :=
  { transacted [0x3F, 0x86] rx (acts ++ [.wait .settleWait, .tx [0x3F, 0x86] tmo, .wait .settleWait]) rest s with
    mode := if stop = .err then s.mode else .ready
    phase := .settle2
    attempt := false }

theorem innerStop_inFirstWait (tmo : Tmo) (rx : Option (List Byte)) (acts : List Action) {stop : Draw}
    (hs : stop ≠ .stall) (rest : List Draw) (s : State) :
    innerStop tmo (inFirstWait rx acts (stop :: rest) s) = inSecondWait tmo rx acts stop rest s := by
  rw [innerStop_completes tmo rfl hs]
  simp [inFirstWait, inSecondWait, settle, wait, transacted]

/-- After a failed first identify, two steps lead over the stop to the retry. -/
theorem recovery_reaches_retry {s : State} {tmo : Tmo} {ds rest : List Draw} {acts : List Action}
    {rx : Option (List Byte)} {ph : Phase} {st : Status} {k : BitVec 2} {stop : Draw} (hm : s.mode ≠ .uninit)
    (hp : Performs .checkIdentity tmo s) (hc : s.command = none) (hu : Undisturbed s)
    (hd : s.draws = ds ++ stop :: rest) (hs : stop ≠ .stall) (h : ReadFails [0x36, 0x82] tmo ds acts rx ph st k) :
    ∃ s1, exec .checkIdentity s = .next s1 ∧
      runSteps 2 s1 = .next (retryIdentify tmo (inSecondWait tmo rx acts stop rest s)) := by
  have hfirst : step (inFirstWait rx acts (stop :: rest) s) = .next (inSecondWait tmo rx acts stop rest s) :=
    ((step_performs_settle (s := inFirstWait ..) ⟨hp.busy, hp.latched, hp.tmo⟩ hc hu).1 rfl).trans
      (congrArg _ (innerStop_inFirstWait tmo rx acts hs rest s))
  have hsecond := (step_performs_settle (s := inSecondWait tmo rx acts stop rest s)
    ⟨hp.busy, hp.latched, hp.tmo⟩ hc hu).2 rfl
  refine ⟨inFirstWait rx acts (stop :: rest) s, ?_, (runSteps_two hfirst).trans hsecond⟩
  rw [exec_checkIdentity hm hp.tmo, afterFirst_fails (s := { s with attempt := false }) h hd]
  rfl

/-- What the retry leaves when it completes: its buffers, its response and its UNUSABLE, with all the calls made and the
MODE that the stop left. -/
theorem completed_inSecondWait (st : Status) (k : BitVec 2) (d : Word48) (tmo : Tmo) (rx1 rx2 : Option (List Byte))
    (acts1 acts2 : List Action) (stop : Draw) (ds rest : List Draw) (x : Bool) (s : State) :
    completed st k d
        { transacted [0x36, 0x82] rx2 acts2 rest (inSecondWait tmo rx1 acts1 stop ds s) with unusable := x } =
      completed st k d { transacted [0x36, 0x82] (rx2.or rx1)
          (acts1 ++ [.wait .settleWait, .tx [0x3F, 0x86] tmo, .wait .settleWait] ++ acts2) rest s with
        mode := if stop = .err then s.mode else .ready
        unusable := x } := by
  simp [completed, transacted, inSecondWait, Option.or_assoc]

/-! ### The three paths of R201 -/

/-- Settles O35: a first identify with a good reply ends the operation (`xTxRx_gives`). -/
theorem checkIdentityFirstTry : Obligations.CheckIdentityFirstTry := by
  intro s tmo ds rest acts bytes w0 w1 w2 hm ht hd h
  rw [exec_checkIdentity hm ht, identifyBody,
    xTxRx_gives (code := Command.getSerial.code) (s := { s with attempt := false }) h hd]
  rfl

/-- Settles O36: the recovery (`recovery_reaches_retry`), and a retry with a good reply. -/
theorem checkIdentityRetrySucceeds : Obligations.CheckIdentityRetrySucceeds := by
  intro s tmo ds1 ds2 rest acts1 acts2 rx1 ph1 st1 k1 stop bytes w0 w1 w2 hm ht hb hl hc hu hd hs h1 h2
  obtain ⟨s1, he, hrun⟩ := recovery_reaches_retry hm ⟨hb, hl, ht⟩ hc hu hd hs h1
  refine ⟨s1, he, ?_⟩
  rw [hrun, retryIdentify_gives h2 rfl]
  exact congrArg _ (completed_inSecondWait .ok 0 _ tmo rx1 (some bytes) acts1 acts2 stop _ rest s.unusable s)

/-- The identify of the retry in flight, found by ATTEMPT 1 (R31), goes on with the rest of its transaction. -/
theorem step_retry_inFlight {s : State} (h : Inv s) (ha : s.attempt = true) (hu : Undisturbed s) :
    ∃ tmo, CallPhase .getSerial s.phase ∧ step s = .next (afterRetry (restOf .getSerial s.phase tmo s)) := by
  have hat : AtCall s := by
    have hm := h.phase
    cases hph : s.phase <;> simp_all [PhaseMeans, AtCall]
  obtain ⟨_, i, c, ⟨hl, hc, hs, hid⟩, hph⟩ := inv_call h hat
  obtain ⟨rfl, rfl⟩ := hid ha
  obtain ⟨tmo, hp⟩ := inv_performs h (inv_busy h fun hi => not_atCall_idle hi hat) hl
  have hin : InCall .checkIdentity tmo s := ⟨hp, h.framer, rfl, _, hc, hph⟩
  refine ⟨tmo, hph, ?_⟩
  rw [step_call hin hu, resumeTransaction_call tmo hc h.framer.2 hph, ha]
  rfl

/-- A reply that makes a read fail fails the reply's checks with the same failure (`xTxRx_reply`, `xTxRx_fails`). -/
theorem replyResult_of_readFails {tmo : Tmo} {a bytes : List Byte} {acts : List Action} {rx : Option (List Byte)}
    {ph : Phase} {st : Status} {k : BitVec 2} (h : ReadFails [0x36, 0x82] tmo [.ok a, .ok bytes] acts rx ph st k) :
    replyResult 3 bytes = .fail st k := by
  have hd : { State.reset with draws := [.ok a, .ok bytes] }.draws = [.ok a, .ok bytes] ++ [] := rfl
  exact (Progress.done.inj ((xTxRx_reply Command.getSerial.code 3 tmo hd).symm.trans (xTxRx_fails h hd))).1

/-- Settles O37: the recovery (`recovery_reaches_retry`), and a retry that fails; or a retry in flight that fails. -/
theorem checkIdentityRetryFails : Obligations.CheckIdentityRetryFails := by
  constructor
  · intro s tmo ds1 ds2 rest acts1 acts2 rx1 rx2 ph1 ph2 st1 st2 k1 k2 stop hm ht hb hl hc hu hd hs h1 h2
    obtain ⟨s1, he, hrun⟩ := recovery_reaches_retry hm ⟨hb, hl, ht⟩ hc hu hd hs h1
    exact ⟨s1, he, by rw [hrun, retryIdentify_fails h2 rfl, completed_inSecondWait]⟩
  · intro s rest h ha hu
    obtain ⟨tmo, hph, hstep⟩ := step_retry_inFlight h ha hu
    refine ⟨fun hd => ?_, fun tmo' bytes acts rx st k hrx hd hf => ?_⟩
    · rw [hstep]
      rcases hph with hph | hph <;> rw [hph]
      · simp only [restOf, commandShape, awaitTx, nextDraw_cons hd]; rfl
      · simp only [restOf, replyWords, commandShape, awaitReply_err 3 hd]; rfl
    · rw [hstep, hrx]
      simp only [restOf, replyWords, commandShape, awaitReply_ok 3 hd, replyResult_of_readFails hf]; rfl

end Sys2Proof.Proofs
end

section
/-!
The calls an operation of BUS_OPS makes (44_recovery.md R202, R207): in a call the plan that is left is the rest of the
transaction and what the rule has after it (`ahead_call`), and whatever an operation does with a transaction uses up
some of that (`continued_pays`), so no step makes more than was left (`step_pays`).
-/

namespace Sys2Proof.Proofs

open Sys2Proof.Machine Sys2Proof.Safety Sys2Proof.Laws

/-! ### What is left of the plan -/

/-- What the rule of operation `i` has after the transaction of command `c` that ran with ATTEMPT `a`: only
CHECK_IDENTITY's first identify and its stop have anything after them (R200). -/
def afterCall (tmo : Tmo) (i : Instr) (c : Command) (a : Bool) : List Action :=
  match i with
  | .checkIdentity =>
    if c = .stopPeriodic then (plan tmo .checkIdentity).drop 4
    else if a then [] else (plan tmo .checkIdentity).drop 2
  | _ => []

theorem afterCall_other {i : Instr} (tmo : Tmo) (hi : i ≠ .checkIdentity) (c : Command) (a : Bool) :
    afterCall tmo i c a = [] := by
  unfold afterCall
  split
  · exact absurd rfl hi
  · rfl

/-- A plan is the calls of the first transaction and what comes after it. -/
theorem plan_eq (tmo : Tmo) (i : Instr) :
    plan tmo i = firstCalls tmo i ++ afterCall tmo i (firstCommand i) false := by cases i <;> rfl

/-- The plan of another operation is one transmit, at most one receive after it and no wait (R150, R207). -/
theorem plan_other {i : Instr} (tmo : Tmo) (hi : busOps i = true) (hne : i ≠ .checkIdentity) :
    (plan tmo i).length ≤ 2 ∧ ((plan tmo i).filter fun a => (sentFrame a).isSome).length = 1 ∧
      (plan tmo i).all isCall = true := by
  cases i
  case checkIdentity => exact absurd rfl hne
  all_goals simp_all [plan, busOps, sentFrame, isCall]

/-- After the first call of the plan comes what comes after a transmit. -/
theorem plan_drop_one {i : Instr} {c : Command} (tmo : Tmo) (hi : i ≠ .checkIdentity) (hs : c ∈ sends i) :
    (plan tmo i).drop 1 = later c .tx tmo := by
  cases i
  case checkIdentity => exact absurd rfl hi
  all_goals simp only [sends, List.mem_singleton, List.not_mem_nil] at hs
  all_goals rw [hs]; rfl

theorem callPhase_txrx {c : Command} (h : CallPhase c .txrx) : c = .getTempOffset := by
  cases c <;> simp_all [CallPhase, commandShape]

/-- In a call of another operation, its transaction's later calls are the rest of the plan. -/
theorem ahead_call_other {i : Instr} {c : Command} {s : State} (tmo : Tmo) (hi : i ≠ .checkIdentity) (hs : c ∈ sends i)
    (hph : CallPhase c s.phase) (ha : s.attempt = false) : ahead tmo i s = later c s.phase tmo := by
  rcases atCall_of_callPhase hph with h | h | h
  · rw [h, ← plan_drop_one tmo hi hs]; simp [ahead, begun, h, hi, ha]
  · rw [ahead, List.drop_eq_nil_of_le, h]
    · rfl
    · simpa [begun, h, ha] using (plan_other tmo (busOps_of_sends hs) hi).1
  · obtain rfl := callPhase_txrx (h ▸ hph)
    rw [ahead, begun, h]
    exact plan_drop_one tmo hi hs

/-- In a call the transaction's later calls are ahead, and what comes after the transaction. -/
theorem ahead_call {i : Instr} {c : Command} {s : State} (tmo : Tmo) (hs : c ∈ sends i) (hc : inFlight s = some c)
    (hph : CallPhase c s.phase) (ha : s.attempt = true → i = .checkIdentity ∧ c = .getSerial) :
    ahead tmo i s = later c s.phase tmo ++ afterCall tmo i c s.attempt := by
  by_cases hi : i = .checkIdentity
  · subst hi
    have hs : c = .getSerial ∨ c = .stopPeriodic := by simpa [sends] using hs
    rcases hs with rfl | rfl
    · rcases hph with hph | hph <;> cases hat : s.attempt <;> simp only [ahead, begun, hph, hc, hat] <;> rfl
    · have hph : s.phase = .tx := hph
      simp only [ahead, begun, hph, hc]; rfl
  · have hat : s.attempt = false := eq_false_of_ne_true fun h => hi (ha h).1
    rw [ahead_call_other tmo hi hs hph hat, afterCall_other tmo hi, List.append_nil]

/-- ATTEMPT 0 leaves at least as much ahead as ATTEMPT 1. -/
theorem ahead_sublist_attempt (tmo : Tmo) (i : Instr) (s : State) {a : Bool} (h : a = true → s.attempt = true) :
    List.Sublist (ahead tmo i s) (ahead tmo i { s with attempt := a }) := by
  refine List.drop_sublist_drop_left _ ?_
  cases a with
  | true => rw [← h rfl]
  | false =>
    have hc : inFlight { s with attempt := false } = inFlight s := rfl
    simp only [begun, hc, Bool.false_eq_true, if_false]
    split
    case h_2 => split_ifs <;> decide
    case h_3 => split_ifs <;> decide
    all_goals exact le_rfl

/-! ### What a step makes of it -/

/-- A step pays for the actions it makes, and leaves ahead some of the rest. -/
theorem pays_append {tmo : Tmo} {i : Instr} {new rest : List Action} {s t : State} (hb : t.bus = s.bus ++ new)
    (h : t.busy = true → List.Sublist (ahead tmo i t) rest) : Pays tmo i (new ++ rest) s t := by
  refine ⟨new, hb, List.Sublist.append_left ?_ new⟩
  split
  · exact h ‹_›
  · exact List.nil_sublist rest

theorem pays_mono {tmo : Tmo} {i : Instr} {acts acts' : List Action} {s t : State} (h : Pays tmo i acts s t)
    (ha : List.Sublist acts acts') : Pays tmo i acts' s t := by
  obtain ⟨new, hb, hn⟩ := h; exact ⟨new, hb, hn.trans ha⟩

/-- A settle wait is one action more, which leaves out what the transaction before it has not made. -/
theorem pays_settle {tmo : Tmo} {i : Instr} {new : List Action} (rest : List Action) {s u : State} {ph : Phase}
    (hb : u.bus = s.bus ++ new) :
    Pays tmo i (new ++ rest ++ .wait .settleWait :: ahead tmo i (settle ph u)) s (settle ph u) := by
  have h : Pays tmo i (new ++ [.wait .settleWait] ++ ahead tmo i (settle ph u)) s (settle ph u) :=
    pays_append (by simp [hb]) fun _ => .refl _
  refine pays_mono h ?_
  simp only [List.append_assoc, List.singleton_append]
  exact (List.sublist_append_right rest _).append_left new

theorem reached_bus {c : Command} {tmo : Tmo} {s u : State} {acts rest : List Action} {ph : Phase}
    (h : Reached c tmo s acts rest u ph) : ∃ new, acts = new ++ rest ∧ u.bus = s.bus ++ new := by
  obtain ⟨_, new, he, ⟨_, _, _, rfl⟩, _⟩ := h; exact ⟨new, he, rfl⟩

/-- Whatever an operation does with a transaction, it makes only the transaction's calls and what comes after it. -/
theorem continued_pays {H : Prop} {i : Instr} {c : Command} {a : Bool} {tmo : Tmo} {s t : State} {acts : List Action}
    (h : Continued H i c a tmo s acts t) (hs : c ∈ sends i) (ha : a = true → i = .checkIdentity ∧ c = .getSerial)
    (hsa : a = true → s.attempt = true) : Pays tmo i (acts ++ afterCall tmo i c a) s t := by
  cases h with
  | waits ph hph hu =>
    obtain ⟨new, rfl, hb⟩ := reached_bus hu
    rw [List.append_assoc]
    refine pays_append hb fun _ => ?_
    obtain rfl := hu.phase_eq
    have hle := ahead_sublist_attempt tmo i t (hu.moves.frame.attempt ▸ hsa)
    rwa [ahead_call (s := { t with attempt := a }) tmo hs (c := c) (reached_inFlight (u := t) hu) hph ha] at hle
  | responds u rest ph hu m x st k d hg hm hme hx ht =>
    subst ht
    obtain ⟨new, rfl, hb⟩ := reached_bus hu
    rw [List.append_assoc]
    exact pays_append hb fun hbusy => Bool.noConfusion hbusy
  | settles1 u rest ph hu hi hc ha' ht =>
    subst hi ha' ht
    obtain ⟨new, rfl, hb⟩ := reached_bus hu
    rw [afterCall, if_neg hc]
    exact pays_settle rest hb
  | settles2 u rest ph hu hi hc m hm ht =>
    subst hi hc ht
    obtain ⟨new, rfl, hb⟩ := reached_bus hu
    exact pays_settle (u := { u with mode := m }) rest hb

/-- The step that starts an operation makes only what its plan has. -/
theorem exec_pays {i : Instr} {tmo : Tmo} {s t : State} (hi : busOps i = true) (ht : s.tmo = some tmo)
    (h : exec i s = .next t) : Pays tmo i (plan tmo i) s t := by
  by_cases hm : s.mode = .uninit
  · rw [exec_busOp_uninit i s hi hm] at h
    cases h
    exact pays_append (new := []) (by simp) fun hb => Bool.noConfusion hb
  · obtain ⟨t', he, hc⟩ := exec_busOp_cases i tmo s hi hm ht
    cases he.symm.trans h
    rw [plan_eq]
    exact continued_pays (s := entered i s) hc (firstCommand_mem hi) nofun nofun

/-- A step that goes on with an operation makes only what was ahead of it. -/
theorem resume_pays {i : Instr} {tmo : Tmo} {s t : State} (h : Inv s) (hp : Performs i tmo s)
    (ht : resume s = .next t) : Pays tmo i (ahead tmo i s) s t := by
  obtain ⟨w, j, tmo', hw, htmo, hd, hcase⟩ := resume_cases ht
  obtain rfl := hp.unique ⟨w, hw, hd⟩
  cases hp.tmo.symm.trans htmo
  obtain ⟨hdec, hstop, hretry⟩ := inv_phase_left h
  cases hcase with
  | takes c r hf => rw [h.framer.2] at hf; cases hf
  | goesOn c hph hc _ _ hcont =>
    obtain ⟨_, j, c', ⟨hl, hc', hs, ha⟩, hcp⟩ := inv_call h (by simpa [AtCall, hdec] using hph)
    obtain rfl := hp.unique hl
    cases hc.symm.trans hc'
    rw [ahead_call tmo hs hc hcp ha]
    exact continued_pays hcont hs ha id
  | stops hph hi hcont =>
    subst hi
    have hph : s.phase = .settle1 := by simpa [hstop] using hph
    obtain ⟨_, _, ha⟩ := inv_settle h (.inl hph)
    have he : ahead tmo .checkIdentity s =
        [.tx [0x3F, 0x86] tmo] ++ afterCall tmo .checkIdentity .stopPeriodic s.attempt := by
      simp only [ahead, begun, hph]; rfl
    rw [he]
    exact continued_pays (s := { s with phase := .stop }) hcont (by decide) (by simp [ha]) id
  | retries hph hi hcont =>
    subst hi
    have hph : s.phase = .settle2 := by simpa [hretry] using hph
    have he : ahead tmo .checkIdentity s =
        [.tx [0x36, 0x82] tmo, .rx 9 tmo] ++ afterCall tmo .checkIdentity .getSerial true := by
      simp only [ahead, begun, hph]; rfl
    rw [he]
    exact continued_pays (s := { s with phase := .retry, attempt := true }) hcont (by decide) (fun _ => ⟨rfl, rfl⟩) id

/-- What an operation leaves alone has the latch in it (R33). -/
theorem latch_of_frame {i : Instr} {tmo : Tmo} {s t : State} (hp : Performs i tmo s) (h : BusOpFrame s t) :
    Latched t i ∧ t.tmo = some tmo := by
  obtain ⟨w, hw, hd⟩ := hp.latched
  exact ⟨⟨w, h.req.trans hw, hd⟩, h.tmo.trans hp.tmo⟩

theorem exec_busOpFrame {i : Instr} {s t : State} (hi : busOps i = true) (htmo : s.tmo.isSome = true)
    (h : exec i s = .next t) : BusOpFrame s t := by
  obtain ⟨u, he, hf, _⟩ := busOperationsFrame i s hi htmo
  cases he.symm.trans h
  exact hf

theorem resume_busOpFrame {s t : State} (hr : s.framerResult = none) (h : resume s = .next t) : BusOpFrame s t := by
  obtain ⟨tmo, u, _, hu, hran⟩ := resume_ran h
  have hu : u = s := hu.elim id fun h => h.trans (by rw [← hr])
  exact hu ▸ busOpFrame_of_opRan hran

/-- Short of a reset, a step that finds an operation of BUS_OPS in progress makes only what was ahead of it, and leaves it
latched. -/
theorem step_pays {i : Instr} {tmo : Tmo} {s t : State} (hi : busOps i = true) (h : Inv s) (hp : Performs i tmo s)
    (hr : ¬ ResetNext s) (ht : step s = .next t) :
    Pays tmo i (ahead tmo i s) s t ∧ (t.busy = true → Latched t i ∧ t.tmo = some tmo) := by
  obtain ⟨r, hf⟩ := fetch_latched h hp.busy hp.latched hr
  have hp' : Performs i tmo { s with host := r } := ⟨hp.busy, hp.latched, hp.tmo⟩
  rw [step_eq, hf] at ht
  split at ht
  case isTrue hx =>
    have he : ahead tmo i s = plan tmo i := by simp only [ahead, begun, hx]; rfl
    exact ⟨he ▸ exec_pays (s := { s with host := r }) hi hp.tmo ht,
      fun _ => latch_of_frame hp' (exec_busOpFrame hi (by simp [hp.tmo]) ht)⟩
  case isFalse hx =>
    exact ⟨resume_pays (s := { s with host := r }) (inv_host h r) hp' ht,
      fun _ => latch_of_frame hp' (resume_busOpFrame h.framer.2 ht)⟩

/-- Settles O38: the plan's transmits, calls and waits; the step that starts it (`exec_pays`) and those that go on with it
(`step_pays`). -/
theorem recoveryIsBounded : Obligations.RecoveryIsBounded :=
  ⟨fun _ => ⟨rfl, rfl, rfl, rfl⟩, fun _ _ _ => exec_pays rfl, fun _ _ _ h hb hl ht => step_pays rfl h ⟨hb, hl, ht⟩⟩

/-- Settles O39: the plan's calls; the step that starts the operation (`exec_pays`) and those that go on with it
(`step_pays`). -/
theorem noOtherOperationRetries : Obligations.NoOtherOperationRetries := fun _ tmo hi hne =>
  ⟨plan_other tmo hi hne, fun _ _ => exec_pays hi,
    fun _ _ h hb hl ht => step_pays hi h ⟨hb, hl, ht⟩⟩

end Sys2Proof.Proofs
end

section
/-!
The rounding step of the conversions (R15, R220) over the rationals: where it puts the last place of the result, the whole
number of last places it takes, and from these the statement RoundingIsToNearest.
-/

namespace Sys2Proof.Proofs

open Sys2Proof.Machine Sys2Proof.Safety

/-! ### Powers of two -/

/-- `scale`, `ratLog2` and `roundRat` write a power of two as a fraction of whole numbers. -/
theorem two_zpow_eq_div (e : ℤ) : (2 : ℚ) ^ e = 2 ^ e.toNat / 2 ^ (-e).toNat := by
  rw [← zpow_natCast, ← zpow_natCast, ← zpow_sub₀ two_ne_zero, Int.toNat_sub_toNat_neg]

theorem two_zpow_add_one (e : ℤ) : (2 : ℚ) ^ (e + 1) = 2 * 2 ^ e := by
  rw [zpow_add_one₀ two_ne_zero, mul_comm]

theorem mul_two_pow_le_iff {d : ℕ} (n : ℕ) (k : ℤ) (hd : 0 < d) :
    d * 2 ^ k.toNat ≤ n * 2 ^ (-k).toNat ↔ (2 : ℚ) ^ k ≤ n / d := by
  rw [two_zpow_eq_div, div_le_div_iff₀ (by positivity) (by positivity), mul_comm d]
  norm_cast

theorem log_eq_of_zpow_bounds {x : ℚ} {k : ℤ} (h : (2 : ℚ) ^ k ≤ x) (h' : x < 2 ^ (k + 1)) : Int.log 2 x = k := by
  have hx : 0 < x := lt_of_lt_of_le (by positivity) h
  have h1 := (Int.zpow_le_iff_le_log (b := 2) one_lt_two hx).mp (by exact_mod_cast h)
  have h2 := (Int.lt_zpow_iff_log_lt (b := 2) one_lt_two hx).mp (by exact_mod_cast h')
  omega

theorem ratLog2_eq_log {n d : ℕ} (hn : 0 < n) (hd : 0 < d) : ratLog2 n d = Int.log 2 ((n : ℚ) / d) := by
  have hd' : (0 : ℚ) < d := by exact_mod_cast hd
  have hn1 : (2 : ℚ) ^ (n.log2 : ℤ) ≤ n := by exact_mod_cast Nat.log2_self_le hn.ne'
  have hn2 : (n : ℚ) < 2 ^ ((n.log2 : ℤ) + 1) := by exact_mod_cast Nat.lt_log2_self
  have hd1 : (2 : ℚ) ^ (d.log2 : ℤ) ≤ d := by exact_mod_cast Nat.log2_self_le hd.ne'
  have hd2 : (d : ℚ) < 2 ^ ((d.log2 : ℤ) + 1) := by exact_mod_cast Nat.lt_log2_self
  have hlow : (2 : ℚ) ^ ((n.log2 : ℤ) - d.log2 - 1) ≤ n / d := by
    rw [sub_sub, zpow_sub₀ two_ne_zero]
    gcongr
  have hhigh : (n : ℚ) / d < 2 ^ ((n.log2 : ℤ) - d.log2 + 1) := by
    rw [sub_add_eq_add_sub, zpow_sub₀ two_ne_zero]
    gcongr
  simp only [ratLog2]
  split
  case isTrue h => exact (log_eq_of_zpow_bounds ((mul_two_pow_le_iff n _ hd).mp h) hhigh).symm
  case isFalse h =>
    rw [mul_two_pow_le_iff n _ hd, not_le] at h
    exact (log_eq_of_zpow_bounds hlow (by rwa [sub_add_cancel])).symm

/-! ### The nearest whole number, ties to even -/

/-- `v` is as near to `x` as `w` is, and `m` is even where a different `w` is as near: the last clause of `RoundsTo`. -/
def AsNear (m : ℕ) (x v w : ℚ) : Prop := |x - v| ≤ |x - w| ∧ (|x - v| = |x - w| → w ≠ v → m % 2 = 0)

/-- `m` is the whole number nearest to `y`, the even one at a tie. -/
structure NearestEven (y : ℚ) (m : ℕ) : Prop where
  near : |y - m| ≤ 1 / 2
  even : |y - m| = 1 / 2 → m % 2 = 0

theorem cast_div_eq_div_add_mod (n : ℕ) {d : ℕ} (hd : 0 < d) :
    (n : ℚ) / d = (n / d : ℕ) + (n % d : ℕ) / (d : ℚ) := by
  rw [div_eq_iff (by positivity), add_mul, div_mul_cancel₀ _ (by positivity)]
  exact_mod_cast (Nat.div_add_mod' n d).symm

theorem divNearestEven_nearest (n : ℕ) {d : ℕ} (hd : 0 < d) : NearestEven ((n : ℚ) / d) (divNearestEven n d) := by
  have hd' : (0 : ℚ) < d := by exact_mod_cast hd
  have hlt : ((n % d : ℕ) : ℚ) / d < 1 := by
    rw [div_lt_one hd']; exact_mod_cast Nat.mod_lt n hd
  have hnn : 0 ≤ ((n % d : ℕ) : ℚ) / d := by positivity
  have hgt : 2 * (n % d) > d ↔ 1 / 2 < ((n % d : ℕ) : ℚ) / d := by
    rw [div_lt_div_iff₀ two_pos hd', one_mul, mul_comm]; norm_cast
  have heq : 2 * (n % d) = d ↔ ((n % d : ℕ) : ℚ) / d = 1 / 2 := by
    rw [div_eq_div_iff hd'.ne' two_ne_zero, one_mul, mul_comm]; norm_cast
  simp only [divNearestEven, hgt, heq, cast_div_eq_div_add_mod n hd]
  generalize ((n % d : ℕ) : ℚ) / d = f at *
  generalize n / d = q
  split
  case isTrue h =>
    have hf : 1 / 2 ≤ f := h.elim le_of_lt fun h => h.1.ge
    have habs : |(q : ℚ) + f - (q + 1 : ℕ)| = 1 - f := by
      rw [abs_of_nonpos] <;> push_cast <;> linarith
    refine ⟨by linarith, fun ht => ?_⟩
    have := h.resolve_left (by linarith)
    omega
  case isFalse h =>
    push Not at h
    have habs : |(q : ℚ) + f - q| = f := by rw [add_sub_cancel_left, abs_of_nonneg hnn]
    refine ⟨by linarith, fun ht => ?_⟩
    have := h.2 (by linarith)
    omega

theorem NearestEven.asNear_intCast {y : ℚ} {m : ℕ} (h : NearestEven y m) (z : ℤ) : AsNear m y m z := by
  obtain rfl | hz := eq_or_ne z m
  · exact ⟨le_rfl, fun _ hne => absurd rfl hne⟩
  · have hone : (1 : ℚ) ≤ |(z : ℚ) - m| := by exact_mod_cast Int.one_le_abs (sub_ne_zero.mpr hz)
    have htri : |(z : ℚ) - m| ≤ |y - z| + |y - m| := by
      rw [abs_sub_comm y z]; exact abs_sub_le _ _ _
    have hnear := h.near
    exact ⟨by linarith, fun heq _ => h.even (by linarith)⟩

/-! ### The last place of a rounded number -/

/-- `m * 2^e` is `x` rounded in the last place that binary64 gives it: 53 bits of `x` stand above `2^e`, fewer only at
the least exponent. `m` may still be `2^53`. -/
structure Rounded (x : ℚ) (m : ℕ) (e : ℤ) : Prop where
  least : -1074 ≤ e
  bits : 2 ^ 52 ≤ x / 2 ^ e ∨ e = -1074
  below : x / 2 ^ e < 2 ^ 53
  nearest : NearestEven (x / 2 ^ e) m

/-- The form of 53 bits, or an infinity. -/
def normalForm (neg : Bool) (m : ℕ) (e : ℤ) : FVal :=
  let m' := if m = 2 ^ 53 then 2 ^ 52 else m
  let e' := if m = 2 ^ 53 then e + 1 else e
  if e' > 971 then .inf neg else .fin neg m' e'

theorem roundRat_zero (neg : Bool) (d : ℕ) : roundRat neg 0 d = .fin neg 0 (-1074) := rfl

theorem roundRat_rounded (neg : Bool) {n d : ℕ} (hn : 0 < n) (hd : 0 < d) :
    ∃ m e, Rounded ((n : ℚ) / d) m e ∧ roundRat neg n d = normalForm neg m e := by
  have hx : (0 : ℚ) < n / d := by positivity
  have hlog1 := Int.zpow_log_le_self (b := 2) one_lt_two hx
  have hlog2 := Int.lt_zpow_succ_log_self (b := 2) one_lt_two ((n : ℚ) / d)
  rw [Nat.cast_ofNat] at hlog1 hlog2
  set e := max (ratLog2 n d - 52) (-1074) with he
  rw [ratLog2_eq_log hn hd] at he
  have hdiv : (n : ℚ) / d / 2 ^ e = (n * 2 ^ (-e).toNat : ℕ) / (d * 2 ^ e.toNat : ℕ) := by
    rw [two_zpow_eq_div]; push_cast; field_simp
  refine ⟨divNearestEven (n * 2 ^ (-e).toNat) (d * 2 ^ e.toNat), e, ⟨le_max_right _ _, ?_, ?_, ?_⟩, ?_⟩
  · refine (max_choice (Int.log 2 ((n : ℚ) / d) - 52) (-1074)).imp (fun h => ?_) fun h => he.trans h
    rw [le_div_iff₀ (by positivity), he, h, ← zpow_natCast, ← zpow_add₀ two_ne_zero]
    simpa using hlog1
  · rw [div_lt_iff₀ (by positivity), ← zpow_natCast, ← zpow_add₀ two_ne_zero]
    exact hlog2.trans_le (zpow_le_zpow_right₀ one_le_two (by push_cast; omega))
  · rw [hdiv]
    exact divNearestEven_nearest _ (by positivity)
  · rw [roundRat, if_neg hn.ne']; rfl

namespace Rounded

variable {x : ℚ} {m : ℕ} {e : ℤ}

theorem mem_bounds (h : Rounded x m e) : m ≤ 2 ^ 53 ∧ (2 ^ 52 ≤ m ∨ e = -1074) := by
  obtain ⟨h1, h2⟩ := abs_le.mp h.nearest.near
  have hb := h.below
  refine ⟨Nat.lt_succ_iff.mp ?_, h.bits.imp_left fun hb => Nat.lt_succ_iff.mp ?_⟩
  · have : (m : ℚ) < (2 ^ 53 : ℕ) + 1 := by push_cast; linarith
    exact_mod_cast this
  · have : ((2 ^ 52 : ℕ) : ℚ) < m + 1 := by push_cast; linarith
    exact_mod_cast this

/-- The rounding carries out of 53 bits from the half-way point below `2^53` on: that tie goes up. -/
theorem carry_iff (h : Rounded x m e) : m = 2 ^ 53 ↔ 2 ^ 53 - 1 / 2 ≤ x / 2 ^ e := by
  obtain ⟨h1, h2⟩ := abs_le.mp h.nearest.near
  constructor
  · rintro rfl
    push_cast at h1
    linarith
  · intro hy
    refine eq_of_le_of_not_lt h.mem_bounds.1 fun hlt => ?_
    have hm : (m : ℚ) + 1 ≤ 2 ^ 53 := by exact_mod_cast hlt
    have htie : |x / 2 ^ e - m| = 1 / 2 := le_antisymm h.nearest.near (le_abs.mpr (.inl (by linarith)))
    have heven := h.nearest.even htie
    rw [abs_of_nonneg (by linarith)] at htie
    have hm' : (m : ℚ) + 1 = (2 ^ 53 : ℕ) := by push_cast; linarith [h.below]
    have : m + 1 = 2 ^ 53 := by exact_mod_cast hm'
    omega

/-- The exponent of the 53-bit form exceeds `k` from the half-way point beyond `(2^53 - 1) * 2^k` on. -/
theorem overflow_iff (h : Rounded x m e) {k : ℤ} (hk : -1074 ≤ k) :
    k < (if m = 2 ^ 53 then e + 1 else e) ↔ (2 ^ 53 - 1 / 2) * 2 ^ k ≤ x := by
  have hpos (j : ℤ) : (0 : ℚ) < 2 ^ j := by positivity
  have hmono {i j : ℤ} (hij : i ≤ j) : (2 : ℚ) ^ i ≤ 2 ^ j := zpow_le_zpow_right₀ one_le_two hij
  obtain ⟨y, rfl⟩ : ∃ y, x = y * 2 ^ e := ⟨x / 2 ^ e, (div_mul_cancel₀ x (hpos e).ne').symm⟩
  have hbits := h.bits
  have hbelow := h.below
  rw [mul_div_cancel_right₀ _ (hpos e).ne'] at hbits hbelow
  simp only [h.carry_iff, mul_div_cancel_right₀ _ (hpos e).ne']
  split
  case isTrue hy =>
    refine ⟨fun he => ?_, fun hx => ?_⟩
    · exact mul_le_mul hy (hmono (Int.lt_add_one_iff.mp he)) (hpos _).le (by linarith)
    · by_contra! he
      have hle : (2 : ℚ) ^ (e + 1) ≤ 2 ^ k := hmono he
      rw [two_zpow_add_one] at hle
      linarith [mul_lt_mul_of_pos_right hbelow (hpos e), hpos k]
  case isFalse hy =>
    refine ⟨fun he => ?_, fun hx => ?_⟩
    · have hle : (2 : ℚ) ^ (k + 1) ≤ 2 ^ e := hmono (by omega)
      rw [two_zpow_add_one] at hle
      have hy52 := hbits.resolve_right (by omega)
      linarith [mul_le_mul_of_nonneg_right hy52 (hpos e).le, hpos k]
    · by_contra! he
      linarith [mul_lt_mul_of_pos_right (not_le.mp hy) (hpos e), hmono he]

/-- A binary64 number stands at a whole number of last places, or is less than every number with 53 bits there. -/
theorem binary64_on_grid (h : Rounded x m e) {m' : ℕ} {e' : ℤ} (hb : Binary64 m' e') (neg : Bool) :
    (∃ z : ℤ, ratOf neg m' e' / 2 ^ e = z) ∨ ratOf neg m' e' / 2 ^ e < 2 ^ 52 ∧ 2 ^ 52 ≤ x / 2 ^ e := by
  obtain ⟨hm', he', _⟩ := hb
  rw [ratOf, mul_div_assoc, ← zpow_sub₀ two_ne_zero]
  obtain hle | hlt := le_or_gt e e'
  · obtain ⟨k, hk⟩ := Int.eq_ofNat_of_zero_le (sub_nonneg.mpr hle)
    exact .inl ⟨(if neg then -1 else 1) * m' * 2 ^ k, by rw [hk]; push_cast; rfl⟩
  · refine .inr ⟨?_, h.bits.resolve_right (by omega)⟩
    have hpow : (2 : ℚ) ^ (e' - e) ≤ 2 ^ (-1 : ℤ) := zpow_le_zpow_right₀ one_le_two (by omega)
    have hm : (m' : ℚ) < 2 ^ 53 := by exact_mod_cast hm'
    have hsign : (if neg then -1 else 1 : ℚ) * m' ≤ m' := by cases neg <;> simp
    calc (if neg then -1 else 1 : ℚ) * m' * 2 ^ (e' - e) ≤ m' * 2 ^ (-1 : ℤ) := by gcongr
      _ < 2 ^ 53 * 2 ^ (-1 : ℤ) := by gcongr
      _ = 2 ^ 52 := by norm_num

theorem asNear_binary64_scaled (h : Rounded x m e) {m' : ℕ} {e' : ℤ} (hb : Binary64 m' e') (neg : Bool) :
    AsNear m (x / 2 ^ e) m (ratOf neg m' e' / 2 ^ e) := by
  obtain ⟨z, hz⟩ | ⟨hlt, hge⟩ := h.binary64_on_grid hb neg
  · rw [hz]; exact h.nearest.asNear_intCast z
  · have hfar : |x / 2 ^ e - m| < |x / 2 ^ e - ratOf neg m' e' / 2 ^ e| :=
      calc |x / 2 ^ e - m| ≤ |x / 2 ^ e - ((2 ^ 52 : ℤ) : ℚ)| := (h.nearest.asNear_intCast _).1
        _ = x / 2 ^ e - 2 ^ 52 := by push_cast; exact abs_of_nonneg (by linarith)
        _ < x / 2 ^ e - ratOf neg m' e' / 2 ^ e := by linarith
        _ ≤ _ := le_abs_self _
    exact ⟨hfar.le, fun heq => absurd heq hfar.ne⟩

end Rounded

/-! ### The sign -/

theorem ratOf_xor (neg neg' : Bool) (m : ℕ) (e : ℤ) :
    ratOf (neg ^^ neg') m e = (if neg then -1 else 1) * ratOf neg' m e := by
  cases neg <;> cases neg' <;> simp [ratOf]

/-- The distance of two signed numbers, in last places and with the first one's sign taken off. -/
theorem abs_signed_sub_ratOf (neg neg' : Bool) (x : ℚ) (m : ℕ) (e k : ℤ) :
    |(if neg then -1 else 1) * x - ratOf neg' m e| = |x / 2 ^ k - ratOf (neg ^^ neg') m e / 2 ^ k| * 2 ^ k := by
  have hpos : (0 : ℚ) < 2 ^ k := by positivity
  rw [← sub_div, abs_div, abs_of_pos hpos, div_mul_cancel₀ _ hpos.ne', ratOf_xor]
  cases neg
  · simp
  · simp [← abs_neg (-x - _), add_comm]

/-- A carry out of 53 bits leaves the number as it is. -/
theorem ratOf_carry (neg : Bool) (e : ℤ) : ratOf neg (2 ^ 52) (e + 1) = ratOf neg (2 ^ 53) e := by
  rw [ratOf, ratOf, two_zpow_add_one]; push_cast; ring

/-! ### The result -/

section
variable {x : ℚ} {m : ℕ} {e : ℤ}

theorem Rounded.asNear_binary64 (h : Rounded x m e) (neg neg' : Bool) {m' : ℕ} {e' : ℤ} (hb : Binary64 m' e') :
    AsNear m ((if neg then -1 else 1) * x) (ratOf neg m e) (ratOf neg' m' e') := by
  have hpos : (0 : ℚ) < 2 ^ e := by positivity
  have hself : ratOf (neg ^^ neg) m e / 2 ^ e = m := by simp [ratOf, hpos.ne']
  obtain ⟨hle, heven⟩ := h.asNear_binary64_scaled hb (neg ^^ neg')
  rw [AsNear, abs_signed_sub_ratOf neg neg x m e e, abs_signed_sub_ratOf neg neg' x m' e' e, hself,
    mul_le_mul_iff_left₀ hpos, mul_left_inj' hpos.ne']
  refine ⟨hle, fun heq hne => heven heq fun hm => hne ?_⟩
  rw [← hself, div_left_inj' hpos.ne', ratOf_xor, ratOf_xor] at hm
  exact mul_left_cancel₀ (by cases neg <;> simp) hm

theorem normalForm_of_overflow (neg : Bool) (h : Rounded x m e) (hx : (2 ^ 53 - 1 / 2) * 2 ^ (971 : ℤ) ≤ x) :
    normalForm neg m e = .inf neg := if_pos ((h.overflow_iff (by decide)).mpr hx)

theorem normalForm_roundsTo (neg : Bool) (h : Rounded x m e) (hx : x < (2 ^ 53 - 1 / 2) * 2 ^ (971 : ℤ)) :
    ∃ m' e', normalForm neg m e = .fin neg m' e' ∧ RoundsTo ((if neg then -1 else 1) * x) neg m' e' ∧
      ratOf neg m' e' = ratOf neg m e := by
  have hfin := mt (h.overflow_iff (k := 971) (by decide)).mp (not_le.mpr hx)
  refine ⟨_, _, if_neg hfin, ?_⟩
  have hleast := h.least
  split at hfin
  case isTrue hm =>
    subst hm
    simp only [if_pos, ratOf_carry, and_true]
    refine ⟨⟨by norm_num, by omega, by omega⟩, .inl le_rfl, fun neg' m' e' hb => ?_⟩
    rw [ratOf_carry]
    exact ⟨(h.asNear_binary64 neg neg' hb).1, fun _ _ => rfl⟩
  case isFalse hm =>
    obtain ⟨hle, hbits⟩ := h.mem_bounds
    simp only [if_neg hm, and_true]
    exact ⟨⟨lt_of_le_of_ne hle hm, hleast, by omega⟩, hbits, fun neg' m' e' hb => h.asNear_binary64 neg neg' hb⟩

end

/-- The half-way point beyond the largest finite number, in its own last places. -/
theorem halfway_eq : ((2 : ℚ) ^ 54 - 1) * 2 ^ 970 = (2 ^ 53 - 1 / 2) * 2 ^ (971 : ℤ) := by
  rw [show (971 : ℤ) = (970 : ℕ) + 1 from rfl, two_zpow_add_one, zpow_natCast]
  generalize (2 : ℚ) ^ 970 = p
  ring

/-- Settles O60: the number in its last place (`roundRat_rounded`), and what its form of 53 bits makes of it on either side
of the half-way point. -/
theorem roundingIsToNearest : Obligations.RoundingIsToNearest := by
  intro neg n d hd
  rw [halfway_eq]
  refine ⟨fun hn hx => ?_, fun hx => ?_, fun hn => hn ▸ roundRat_zero neg d⟩
  · obtain ⟨m, e, h, hr⟩ := roundRat_rounded neg hn hd
    obtain ⟨m', e', hf, hto, _⟩ := normalForm_roundsTo neg h hx
    exact ⟨m', e', hr.trans hf, hto⟩
  · have hpos : (0 : ℚ) < n / d := lt_of_lt_of_le (by positivity) hx
    have hn : 0 < n := Nat.pos_of_ne_zero fun h => by simp [h] at hpos
    obtain ⟨m, e, h, hr⟩ := roundRat_rounded neg hn hd
    exact hr.trans (normalForm_of_overflow neg h hx)


end Sys2Proof.Proofs
end

section
/-!
The offset transforms (R224 to R228): rounding to a whole number, the domain of offset_to_raw, and the round trip of tenths
of a degree, in which each operation in binary64 is off by little; the statements OffsetDomain, TenthsRoundTrip and
OffsetConversions.
-/

namespace Sys2Proof.Proofs

open Sys2Proof.Machine Sys2Proof.Safety

/-! ### Rounding to a whole number (R226) -/

theorem scale_div (m : ℕ) (e : ℤ) : ((scale m e).1 : ℚ) / (scale m e).2 = m * 2 ^ e := by
  rw [two_zpow_eq_div, ← mul_div_assoc]; simp [scale]

theorem scale_snd_pos (m : ℕ) (e : ℤ) : 0 < (scale m e).2 := Nat.two_pow_pos _

theorem roundInt_fin (neg : Bool) (m : ℕ) (e : ℤ) : roundInt (.fin neg m e) =
    some (if neg then -(⌊(m : ℚ) * 2 ^ e + 1 / 2⌋₊ : ℤ) else ⌊(m : ℚ) * 2 ^ e + 1 / 2⌋₊) := by
  have hpos : ((scale m e).2 : ℚ) ≠ 0 := by exact_mod_cast (scale_snd_pos m e).ne'
  have hhalf : (m : ℚ) * 2 ^ e + 1 / 2 =
      (2 * (scale m e).1 + (scale m e).2 : ℕ) / (2 * (scale m e).2 : ℕ) := by
    rw [← scale_div]; push_cast; field_simp
  rw [hhalf, Nat.floor_div_eq_div]
  rfl

/-- The whole number is not negative from just above -1/2 on, since the half -1/2 goes to -1. -/
theorem roundInt_eq_natCast_iff (neg : Bool) (m : ℕ) (e : ℤ) (k : ℕ) : roundInt (.fin neg m e) = some (k : ℤ) ↔
    -(1 / 2) < ratOf neg m e ∧ k - 1 / 2 ≤ ratOf neg m e ∧ ratOf neg m e < k + 1 / 2 := by
  have hv : (0 : ℚ) ≤ m * 2 ^ e := by positivity
  have hk : (0 : ℚ) ≤ k := k.cast_nonneg
  rw [roundInt_fin, ratOf, mul_assoc]
  generalize (m : ℚ) * 2 ^ e = v at *
  cases neg
  case false =>
    simp only [Bool.false_eq_true, if_false, one_mul, Option.some_inj, Nat.cast_inj,
      Nat.floor_eq_iff (show 0 ≤ v + 1 / 2 by linarith)]
    constructor
    · rintro ⟨h1, h2⟩
      exact ⟨by linarith, by linarith, by linarith⟩
    · rintro ⟨_, h1, h2⟩
      exact ⟨by linarith, by linarith⟩
  case true =>
    have hzero : -(⌊v + 1 / 2⌋₊ : ℤ) = k ↔ ⌊v + 1 / 2⌋₊ = 0 ∧ k = 0 := by omega
    simp only [if_true, Option.some_inj, hzero, Nat.floor_eq_zero]
    constructor
    · rintro ⟨h, rfl⟩
      refine ⟨by linarith, ?_, ?_⟩ <;> push_cast <;> linarith
    · rintro ⟨h1, h2, h3⟩
      have hk1 : (k : ℚ) < (1 : ℕ) := by push_cast; linarith
      have := Nat.cast_lt.mp hk1
      exact ⟨by linarith, by omega⟩

/-! ### The domain of offset_to_raw -/

theorem offsetToRaw_eq_some_iff (o : F64) (r : Word16) :
    offsetToRaw o = some r ↔ roundInt (offsetQuotient o) = some (r.toNat : ℤ) := by
  have hr := r.isLt
  rw [offsetToRaw]
  generalize roundInt (offsetQuotient o) = q
  match q with
  | none => simp
  | some k =>
    simp only [Option.some_inj]
    constructor
    · intro h
      obtain ⟨hk, hofNat⟩ := Option.ite_none_right_eq_some.mp h
      cases hofNat
      rw [BitVec.toNat_ofNat]
      omega
    · rintro rfl
      rw [if_pos (by omega), Int.toNat_natCast, BitVec.ofNat_toNat, BitVec.setWidth_eq]

theorem offsetToRaw_isSome_iff (o : F64) : (offsetToRaw o).isSome = true ↔
    ∃ neg m e, offsetQuotient o = .fin neg m e ∧ -(1 / 2) < ratOf neg m e ∧ ratOf neg m e < 65535 + 1 / 2 := by
  simp only [Option.isSome_iff_exists, offsetToRaw_eq_some_iff]
  constructor
  · rintro ⟨r, hr⟩
    match hq : offsetQuotient o with
    | .nan | .inf _ => simp [hq, roundInt] at hr
    | .fin neg m e =>
      rw [hq, roundInt_eq_natCast_iff] at hr
      obtain ⟨hlow, _, hhigh⟩ := hr
      have hr : (r.toNat : ℚ) ≤ 65535 := by exact_mod_cast Nat.le_of_lt_succ r.isLt
      exact ⟨neg, m, e, rfl, hlow, by linarith⟩
  · rintro ⟨neg, m, e, hq, hlow, hhigh⟩
    have hfloor : ⌊ratOf neg m e + 1 / 2⌋₊ < 2 ^ 16 :=
      (Nat.floor_lt (by linarith)).mpr (by push_cast; linarith)
    refine ⟨BitVec.ofNat 16 ⌊ratOf neg m e + 1 / 2⌋₊, ?_⟩
    rw [hq, roundInt_eq_natCast_iff, BitVec.toNat_ofNat, Nat.mod_eq_of_lt hfloor]
    have h1 := Nat.floor_le (show 0 ≤ ratOf neg m e + 1 / 2 by linarith)
    have h2 := Nat.lt_floor_add_one (ratOf neg m e + 1 / 2)
    exact ⟨hlow, by linarith, by linarith⟩

/-- Settles O59: the domain (`offsetToRaw_isSome_iff`), and where the quotient is that rounds to a word. -/
theorem offsetDomain : Obligations.OffsetDomain := by
  refine ⟨offsetToRaw_isSome_iff, fun o r hr neg m e hq => ?_⟩
  rw [offsetToRaw_eq_some_iff, hq, roundInt_eq_natCast_iff] at hr
  exact hr.2

/-! ### A rounded value's bit pattern -/

theorem bitFields (neg : Bool) (ex : BitVec 11) (fr : BitVec 52) : (BitVec.ofBool neg ++ ex ++ fr).msb = neg ∧
    (BitVec.ofBool neg ++ ex ++ fr).extractLsb' 52 11 = ex ∧ (BitVec.ofBool neg ++ ex ++ fr).extractLsb' 0 52 = fr := by
  refine ⟨?_, ?_, ?_⟩
  · rw [BitVec.msb_append, BitVec.msb_append]
    cases neg <;> rfl
  · simp (disch := decide) only [BitVec.extractLsb'_append_eq_of_le, BitVec.extractLsb'_append_eq_right, Nat.sub_self]
  · simp (disch := decide) only [BitVec.extractLsb'_append_eq_right]

theorem val_fields (neg : Bool) (ex : BitVec 11) (fr : BitVec 52) :
    F64.val (BitVec.ofBool neg ++ ex ++ fr) =
      if ex.toNat = 2047 then (if fr.toNat = 0 then .inf neg else .nan)
      else if ex.toNat = 0 then .fin neg fr.toNat (-1074) else .fin neg (2 ^ 52 + fr.toNat) ((ex.toNat : ℤ) - 1075) := by
  obtain ⟨h1, h2, h3⟩ := bitFields neg ex fr
  simp only [F64.val, h1, h2, h3]

theorem val_bits_fin (neg : Bool) {m : ℕ} {e : ℤ} (hb : Binary64 m e) (hform : 2 ^ 52 ≤ m ∨ e = -1074) :
    (FVal.fin neg m e).bits.val = .fin neg m e := by
  obtain ⟨hm, hlow, hhigh⟩ := hb
  simp only [FVal.bits]
  split
  case isTrue hlt =>
    have he : e = -1074 := hform.resolve_left (by omega)
    rw [val_fields, BitVec.toNat_ofNat m 52, Nat.mod_eq_of_lt hlt, he]
    rfl
  case isFalse hge =>
    rw [val_fields, BitVec.toNat_ofNat, BitVec.toNat_ofNat, Nat.mod_eq_of_lt (by omega), Nat.mod_eq_of_lt (by omega),
      if_neg (by omega), if_neg (by omega)]
    rw [Nat.add_sub_cancel' (not_lt.mp hge), Int.toNat_of_nonneg (by omega), add_sub_cancel_right]

theorem val_bits_inf (neg : Bool) : (FVal.inf neg).bits.val = .inf neg := by cases neg <;> decide

theorem val_bits_roundRat (neg : Bool) (n : ℕ) {d : ℕ} (hd : 0 < d) :
    (roundRat neg n d).bits.val = roundRat neg n d := by
  obtain ⟨hfin, hinf, hzero⟩ := roundingIsToNearest neg n d hd
  obtain rfl | hn := Nat.eq_zero_or_pos n
  · exact val_bits_fin neg ⟨by decide, le_rfl, by decide⟩ (.inr rfl)
  obtain hlt | hge := lt_or_ge ((n : ℚ) / d) ((2 ^ 54 - 1) * 2 ^ 970)
  · obtain ⟨m, e, hr, hb, hform, _⟩ := hfin hn hlt
    exact hr ▸ val_bits_fin neg hb hform
  · exact hinf hge ▸ val_bits_inf neg

/-! ### The rounding step depends on the quotient only -/

theorem divNearestEven_mul_right (n d : ℕ) {c : ℕ} (hc : 0 < c) :
    divNearestEven (n * c) (d * c) = divNearestEven n d := by
  simp only [divNearestEven, Nat.mul_div_mul_right _ _ hc, Nat.mul_mod_mul_right, ← mul_assoc, gt_iff_lt,
    Nat.mul_lt_mul_right hc, Nat.mul_left_inj hc.ne']

theorem roundRat_mul_right (neg : Bool) (n : ℕ) {d c : ℕ} (hd : 0 < d) (hc : 0 < c) :
    roundRat neg (n * c) (d * c) = roundRat neg n d := by
  obtain rfl | hn := Nat.eq_zero_or_pos n
  · rw [zero_mul, roundRat_zero, roundRat_zero]
  have hlog : ratLog2 (n * c) (d * c) = ratLog2 n d := by
    rw [ratLog2_eq_log (by positivity) (by positivity), ratLog2_eq_log hn hd]
    push_cast
    rw [mul_div_mul_right _ _ (by positivity)]
  simp only [roundRat, hlog, hn.ne', hc.ne', Nat.mul_eq_zero, or_self, if_false, mul_right_comm _ c,
    divNearestEven_mul_right _ _ hc]

theorem roundRat_congr (neg : Bool) {n d n' d' : ℕ} (hd : 0 < d) (hd' : 0 < d') (h : (n : ℚ) / d = n' / d') :
    roundRat neg n d = roundRat neg n' d' := by
  rw [div_eq_div_iff (by positivity) (by positivity)] at h
  have h : n * d' = n' * d := by exact_mod_cast h
  rw [← roundRat_mul_right neg n hd hd', h, mul_comm d d', roundRat_mul_right neg n' hd' hd]

/-! ### How far off an operation is -/

/-- `v` is a nonnegative finite value at most `δ` from `x`. -/
def Near (v : FVal) (x δ : ℚ) : Prop := ∃ m e, v = .fin false m e ∧ |(m : ℚ) * 2 ^ e - x| ≤ δ

theorem Rounded.abs_sub_le {x : ℚ} {m : ℕ} {e : ℤ} (h : Rounded x m e) : |(m : ℚ) * 2 ^ e - x| ≤ 2 ^ e / 2 := by
  have hpos : (0 : ℚ) < 2 ^ e := by positivity
  have hx : (m : ℚ) * 2 ^ e - x = -(x / 2 ^ e - m) * 2 ^ e := by field_simp; ring
  rw [hx, abs_mul, abs_neg, abs_of_pos hpos]
  linarith [mul_le_mul_of_nonneg_right h.nearest.near hpos.le]

/-- Below 2^24 the last place of a result is at most 2^-28. -/
theorem Rounded.two_zpow_le {x : ℚ} {m : ℕ} {e : ℤ} (h : Rounded x m e) (hx : x < 2 ^ 24) : (2 : ℚ) ^ e ≤ 1 / 2 ^ 28 := by
  have hpos : (0 : ℚ) < 2 ^ e := by positivity
  obtain hbits | rfl := h.bits
  · rw [le_div_iff₀ hpos] at hbits
    linarith
  · calc (2 : ℚ) ^ (-1074 : ℤ) ≤ 2 ^ (-28 : ℤ) := zpow_le_zpow_right₀ one_le_two (by decide)
      _ = 1 / 2 ^ 28 := by norm_num

theorem lt_halfway {x : ℚ} (hx : x < 2 ^ 53 - 1 / 2) : x < (2 ^ 53 - 1 / 2) * 2 ^ (971 : ℤ) := by
  refine hx.trans_le (le_mul_of_one_le_right ?_ (one_le_zpow₀ one_le_two (by decide)))
  norm_num

theorem near_roundRat {n d : ℕ} {x δ : ℚ} (hd : 0 < d) (h : |(n : ℚ) / d - x| ≤ δ) (hx : x + δ < 2 ^ 24) :
    Near (roundRat false n d) x (δ + 1 / 2 ^ 29) := by
  obtain rfl | hn := Nat.eq_zero_or_pos n
  · refine ⟨0, -1074, rfl, ?_⟩
    rw [Nat.cast_zero, zero_div] at h
    rw [Nat.cast_zero, zero_mul]
    linarith
  obtain ⟨m, e, hr, hround⟩ := roundRat_rounded false hn hd
  have hlt : (n : ℚ) / d < 2 ^ 24 := by linarith [(abs_le.mp h).2]
  obtain ⟨m', e', hf, _, hval⟩ := normalForm_roundsTo false hr (lt_halfway (by linarith))
  simp only [ratOf, Bool.false_eq_true, if_false, one_mul] at hval
  refine ⟨m', e', hround.trans hf, ?_⟩
  rw [hval]
  have herr := hr.abs_sub_le
  have hulp := hr.two_zpow_le hlt
  linarith [abs_sub_le ((m : ℚ) * 2 ^ e) (n / d) x]

theorem near_fInt {k : ℕ} (hk : k < 2 ^ 53) : Near (fInt k) k 0 := by
  have hfInt : fInt k = roundRat false k 1 := by rw [fInt, decide_eq_false (by omega), Int.natAbs_natCast]
  rw [hfInt]
  obtain rfl | hpos := Nat.eq_zero_or_pos k
  · exact ⟨0, -1074, rfl, by simp⟩
  have hlt : (k : ℚ) + 1 ≤ 2 ^ 53 := by exact_mod_cast hk
  obtain ⟨m, e, hr, hto⟩ := (roundingIsToNearest false k 1 one_pos).1 hpos
    (by rw [halfway_eq, Nat.cast_one, div_one]; exact lt_halfway (by linarith))
  refine ⟨m, e, hr, ?_⟩
  have hself := (hto.2.2 false k 0 ⟨hk, by decide, by decide⟩).1
  simpa [ratOf, abs_sub_comm] using hself

theorem Near.mono {v : FVal} {x δ δ' : ℚ} (h : Near v x δ) (hle : δ ≤ δ') : Near v x δ' := by
  obtain ⟨m, e, hv, hx⟩ := h
  exact ⟨m, e, hv, hx.trans hle⟩

theorem fmul_comm (a b : FVal) : fmul a b = fmul b a := by
  cases a <;> cases b <;> simp [fmul, Bool.xor_comm, Nat.mul_comm, Int.add_comm]

theorem Near.fmul {a b : FVal} {x y δ : ℚ} (ha : Near a x δ) (hb : Near b y 0) (hy : 0 ≤ y)
    (hlt : x * y + δ * y < 2 ^ 24) : Near (fmul a b) (x * y) (δ * y + 1 / 2 ^ 29) := by
  obtain ⟨m, e, rfl, hm⟩ := ha
  obtain ⟨n, f, rfl, hn⟩ := hb
  have hn : (n : ℚ) * 2 ^ f = y := sub_eq_zero.mp (abs_nonpos_iff.mp hn)
  refine near_roundRat (scale_snd_pos _ _) ?_ hlt
  have hprod : ((m * n : ℕ) : ℚ) * 2 ^ (e + f) - x * y = (m * 2 ^ e - x) * y := by
    rw [zpow_add₀ two_ne_zero, ← hn]; push_cast; ring
  rw [scale_div, hprod, abs_mul, abs_of_nonneg hy]
  gcongr

/-- A quotient of finite values is rounded from a fraction of whole numbers that stands for it. -/
theorem fdiv_fin_eq {neg neg' : Bool} {m n : ℕ} {e f : ℤ} (hn : (n : ℚ) * 2 ^ f ≠ 0) :
    fdiv (.fin neg m e) (.fin neg' n f) = roundRat (neg != neg') ((scale m e).1 * (scale n f).2)
      ((scale m e).2 * (scale n f).1) ∧ 0 < (scale m e).2 * (scale n f).1 ∧
      (((scale m e).1 * (scale n f).2 : ℕ) : ℚ) / ((scale m e).2 * (scale n f).1 : ℕ) = m * 2 ^ e / (n * 2 ^ f) := by
  have hn0 : n ≠ 0 := by rintro rfl; simp at hn
  refine ⟨if_neg hn0, ?_, ?_⟩
  · exact Nat.mul_pos (scale_snd_pos m e) (Nat.mul_pos (Nat.pos_of_ne_zero hn0) (Nat.two_pow_pos _))
  · rw [← scale_div, ← scale_div, div_div_div_eq]; push_cast; rfl

theorem Near.fdiv {a b : FVal} {x y δ : ℚ} (ha : Near a x δ) (hb : Near b y 0) (hy : 0 < y)
    (hlt : x / y + δ / y < 2 ^ 24) : Near (fdiv a b) (x / y) (δ / y + 1 / 2 ^ 29) := by
  obtain ⟨m, e, rfl, hm⟩ := ha
  obtain ⟨n, f, rfl, hn⟩ := hb
  have hn : (n : ℚ) * 2 ^ f = y := sub_eq_zero.mp (abs_nonpos_iff.mp hn)
  obtain ⟨hdiv, hpos, hval⟩ := fdiv_fin_eq (neg := false) (neg' := false) (m := m) (e := e) (hn ▸ hy.ne')
  rw [hdiv]
  refine near_roundRat hpos ?_ hlt
  rw [hval, hn, ← sub_div, abs_div, abs_of_pos hy]
  gcongr

theorem fdiv_fInt {k j : ℕ} (hk : k < 2 ^ 53) (hj : j < 2 ^ 53) (hpos : 0 < j) :
    fdiv (fInt k) (fInt j) = roundRat false k j := by
  obtain ⟨m, e, hm, hk⟩ := near_fInt hk
  obtain ⟨n, f, hn, hj⟩ := near_fInt hj
  have hk : (m : ℚ) * 2 ^ e = k := sub_eq_zero.mp (abs_nonpos_iff.mp hk)
  have hj : (n : ℚ) * 2 ^ f = j := sub_eq_zero.mp (abs_nonpos_iff.mp hj)
  have hne : (n : ℚ) * 2 ^ f ≠ 0 := by rw [hj]; positivity
  obtain ⟨hdiv, hden, hval⟩ := fdiv_fin_eq (neg := false) (neg' := false) (m := m) (e := e) hne
  rw [hm, hn, hdiv]
  exact roundRat_congr false hden hpos (by rw [hval, hk, hj])

/-! ### The round trip of tenths (R227) -/

theorem Near.roundInt_eq {v : FVal} {x δ : ℚ} {k : ℕ} (h : Near v x δ) (hk : |x - k| + δ < 1 / 2) :
    roundInt v = some (k : ℤ) := by
  obtain ⟨m, e, rfl, hv⟩ := h
  obtain ⟨hlow, hhigh⟩ : -(1 / 2) < (m : ℚ) * 2 ^ e - k ∧ (m : ℚ) * 2 ^ e - k < 1 / 2 :=
    abs_lt.mp (by linarith [abs_sub_le ((m : ℚ) * 2 ^ e) x k])
  rw [roundInt_eq_natCast_iff]
  simp only [ratOf, Bool.false_eq_true, if_false, one_mul]
  have hk0 : (0 : ℚ) ≤ k := k.cast_nonneg
  exact ⟨by linarith, by linarith, by linarith⟩

theorem offsetToRaw_of_near {o : F64} {x δ : ℚ} (h : Near (offsetQuotient o) x δ) (hx : x + δ < 65535) :
    ∃ r, offsetToRaw o = some r ∧ |(r.toNat : ℚ) - x| ≤ 1 / 2 + δ := by
  obtain ⟨m, e, hq, hv⟩ := h
  have hval : ratOf false m e = m * 2 ^ e := by simp [ratOf]
  have hnonneg : (0 : ℚ) ≤ m * 2 ^ e := by positivity
  obtain ⟨h1, h2⟩ := abs_le.mp hv
  obtain ⟨r, hr⟩ := Option.isSome_iff_exists.mp ((offsetToRaw_isSome_iff o).mpr
    ⟨false, m, e, hq, by linarith, by linarith⟩)
  obtain ⟨hlow, hhigh⟩ := offsetDomain.2 o r hr false m e hq
  exact ⟨r, hr, abs_le.mpr ⟨by linarith, by linarith⟩⟩

theorem near_offsetQuotient {o : F64} {x δ : ℚ} (h : Near o.val x δ) (hx : x + δ < 128) :
    Near (offsetQuotient o) (x * 65536 / 175) ((δ * 65536 + 1 / 2 ^ 29) / 175 + 1 / 2 ^ 29) :=
  (h.fmul (near_fInt (k := 65536) (by decide)) (by norm_num) (by push_cast; linarith)).fdiv
    (near_fInt (k := 175) (by decide)) (by norm_num) (by push_cast; linarith)

theorem near_offsetTenths (r : Word16) : Near (offsetTenths r) (r.toNat / 65536 * 175 * 10) (1 / 2 ^ 17) := by
  have hr : (r.toNat : ℚ) < 65536 := by exact_mod_cast r.isLt
  have hfrac : Near (fdiv (fWord r) (fInt 65536)) (r.toNat / 65536) (0 / 65536 + 1 / 2 ^ 29) :=
    (near_fInt (by omega)).fdiv (near_fInt (k := 65536) (by decide)) (by norm_num) (by linarith)
  have hdeg := fmul_comm _ _ ▸
    hfrac.fmul (near_fInt (k := 175) (by decide)) (by norm_num) (by push_cast; linarith)
  exact (hdeg.fmul (near_fInt (k := 10) (by decide)) (by norm_num) (by push_cast; linarith)).mono (by norm_num)

theorem rawToOffset_eq {r : Word16} {k : ℕ} (hk : k < 2 ^ 53) (h : roundInt (offsetTenths r) = some (k : ℤ)) :
    rawToOffset r = (roundRat false k 10).bits := by
  rw [rawToOffset, h]
  exact congrArg FVal.bits (fdiv_fInt (j := 10) hk (by decide) (by decide))

/-- A tenth of a degree is 37.4 raw units, so a raw value off by a half leaves the tenths off by 0.0134. -/
theorem offsetTenths_round_trip {k : ℕ} (hk : k < 1000) :
    ∃ r, offsetToRaw (roundRat false k 10).bits = some r ∧ roundInt (offsetTenths r) = some (k : ℤ) := by
  have hk' : (k : ℚ) ≤ 999 := by exact_mod_cast Nat.le_of_lt_succ hk
  have ho : Near (F64.val (roundRat false k 10).bits) (k / 10) (0 + 1 / 2 ^ 29) := by
    rw [val_bits_roundRat false k (by decide)]
    exact near_roundRat (by decide) (by simp) (by linarith)
  obtain ⟨r, hr, hdist⟩ := offsetToRaw_of_near (near_offsetQuotient ho (by linarith)) (by linarith)
  refine ⟨r, hr, (near_offsetTenths r).roundInt_eq ?_⟩
  obtain ⟨hlow, hhigh⟩ := abs_le.mp hdist
  rw [← lt_sub_iff_add_lt, abs_lt]
  exact ⟨by linarith, by linarith⟩

/-- Settles O57: the raw value stands for `k` tenths again (`offsetTenths_round_trip`), which are divided by 10 as at the
start (`rawToOffset_eq`). -/
theorem tenthsRoundTrip : Obligations.TenthsRoundTrip := by
  intro k hk
  obtain ⟨r, hr, htenths⟩ := offsetTenths_round_trip hk
  exact ⟨r, hr, rawToOffset_eq (by omega) htenths⟩

/-! ### Vectors -/

/-- Settles O58: the vectors, which the conversions evaluate to. -/
theorem offsetConversions : Obligations.OffsetConversions := by
  unfold Obligations.OffsetConversions
  decide +kernel

end Sys2Proof.Proofs
end

section
/-!
One response for each operation (R77, R161, R244): what a step runs either emits no response and leaves the operation in
progress and its request latched, or emits one and leaves the block idle; and what a step finds to do latches a request
that it accepts, or completes it at once if it is illegal (R75).
-/

namespace Sys2Proof.Proofs

open Sys2Proof.Machine Sys2Proof.Safety Sys2Proof.Laws

/-! ### What an instruction or an operation that goes on does -/

/-- From `s` to `t` no response is emitted, and BUSY and the latched request stay. -/
def Silent (s t : State) : Prop := t.responses = s.responses ∧ t.busy = s.busy ∧ t.req = s.req

/-- From `s` to `t` one response is emitted, and `t` is idle (R244). -/
def Answers (s t : State) : Prop :=
  ∃ r, t.responses = s.responses ++ [r] ∧ t.busy = false ∧ t.phase = .idle ∧ t.attempt = false

theorem answers_finish {s u : State} (r : Response) (h : u.responses = s.responses) : Answers s (finish r u) :=
  ⟨r, h ▸ rfl, rfl, rfl, rfl⟩

theorem Answers.from {s u t : State} (h : u.responses = s.responses) (ht : Answers u t) : Answers s t := by
  obtain ⟨r, hr, hidle⟩ := ht
  exact ⟨r, h ▸ hr, hidle⟩

theorem silent_of_baseOf {tmo : Tmo} {s t : State} (h : BaseOf tmo s t) : Silent s t := by
  obtain ⟨m, u, a, b, rb, ph, ds, n, new, rfl, _⟩ := h
  exact ⟨rfl, rfl, rfl⟩

/-- An operation of BUS_OPS waits in silence or has responded. -/
theorem opRan_silent_or_answers {H : Prop} {tmo : Tmo} {s t : State} (h : OpRan H tmo s t) :
    Silent s t ∨ Answers s t := by
  rcases h with ⟨hb, _⟩ | ⟨st, k, d, u, hb, _, rfl⟩
  · exact .inl (silent_of_baseOf hb)
  · exact .inr (answers_finish _ (baseOf_responses (t := u) hb))

/-- A wire command is silent: it is a transaction inside its caller's operation. -/
theorem exec_silent_or_answers {i : Instr} {s t : State} (h : exec i s = .next t) : Silent s t ∨ Answers s t := by
  cases exec_cases h with
  | answered m c st k r _ _ ht => exact .inr (ht ▸ answers_finish r rfl)
  | refusedByMode _ _ ht => exact .inr (ht ▸ answers_finish _ rfl)
  | operation _ _ tmo _ hc => exact opRan_silent_or_answers (s := entered i s) hc.ran
  | wire _ tmo _ c acts p ht hp =>
    have hf := handOver_frame hp.moves
    exact .inl (ht ▸ ⟨hf.responses, hf.busy, hf.req⟩)

theorem resume_silent_or_answers {s t : State} (h : resume s = .next t) : Silent s t ∨ Answers s t := by
  obtain ⟨tmo, u, _, hu, hran⟩ := resume_ran h
  rcases hu with rfl | rfl
  · exact opRan_silent_or_answers hran
  · exact opRan_silent_or_answers (s := { s with framerResult := none }) hran

/-! ### What a step finds to do -/

/-- From `s` to `t` no response is emitted, an operation in progress stays so, and a request offered to an idle block is
latched and in progress (R161). -/
structure Carries (s t : State) : Prop where
  responses : t.responses = s.responses
  busy : s.busy = true → t.busy = true
  offered : ∀ w tmo rest, Offers s w tmo rest → t.busy = true ∧ t.req = some w

theorem Carries.silent {s u t : State} (h : Carries s u) (ht : Silent u t) : Carries s t := by
  obtain ⟨hr, hb, hq⟩ := ht
  exact ⟨hr.trans h.responses, fun hs => hb.trans (h.busy hs),
    fun w tmo rest ho => (h.offered w tmo rest ho).imp hb.trans hq.trans⟩

/-- A BUSY block accepts no request. -/
theorem carries_of_busy {s t : State} (hb : s.busy = true) (ht : Silent s t) : Carries s t where
  responses := ht.1
  busy := ht.2.1.trans
  offered _ _ _ ho := absurd (hb.symm.trans ho.1) (by decide)

theorem carries_accept {s : State} {w : Word32} {tmo : Tmo} {r : List HostEvent} (ho : Offers s w tmo r) :
    Carries s (accept w tmo { s with host := r }) where
  responses := rfl
  busy _ := rfl
  offered w' tmo' r' ho' := by
    cases ho.2.symm.trans ho'.2
    exact ⟨rfl, rfl⟩

theorem carries_idle {s : State} (r : List HostEvent) (hn : ∀ w tmo r, ¬ Offers s w tmo r) :
    Carries s { s with host := r } where
  responses := rfl
  busy := id
  offered w tmo r' ho := absurd ho (hn w tmo r')

/-- What a step finds to run is carried there without a response; a step that is over with finding it has responded at
most once, to an illegal request. -/
def FoundCarried (s : State) : Fetched → Prop
  | .instr _ u => Carries s u
  | .resume u => Carries s u
  | .done u => Carries s u ∨ Answers s u
  | .fault _ => True
  | .refused _ => True

theorem fetch_carries {s : State} (hr : ¬ ResetNext s) : FoundCarried s (fetch s) := by
  have hf := fetch_case s
  generalize fetch s = f at hf
  cases hf with
  | reset r h => exact absurd ⟨r, h⟩ hr
  | idle r _ _ hn => exact .inl (carries_idle r hn)
  | accepted w tmo r i ho => exact carries_accept ho
  | acceptedIllegal => exact .inr (answers_finish _ rfl)
  | command r c i hb => exact carries_of_busy hb ⟨rfl, rfl, rfl⟩
  | badCommand => trivial
  | start r w i hb => exact carries_of_busy hb ⟨rfl, rfl, rfl⟩
  | startIllegal => exact .inr (answers_finish _ rfl)
  | noLatch => trivial
  | resume r hb => exact carries_of_busy hb ⟨rfl, rfl, rfl⟩

/-- What runs in the state found decides what the step as a whole did. -/
theorem Carries.run {s u t : State} (h : Carries s u) (ht : Silent u t ∨ Answers u t) : Carries s t ∨ Answers s t :=
  ht.imp h.silent (.from h.responses)

theorem step_carries_or_answers {s t : State} (hr : ¬ ResetNext s) (h : step s = .next t) :
    Carries s t ∨ Answers s t := by
  have hf := fetch_carries hr
  rw [step_eq] at h
  generalize fetch s = f at h hf
  cases f with
  | instr i u => exact Carries.run hf (exec_silent_or_answers h)
  | resume u => exact Carries.run hf (resume_silent_or_answers h)
  | done u => cases h; exact hf
  | fault r => cases h
  | refused r => cases h

/-- Settles O44: a step's two outcomes (`step_carries_or_answers`). -/
theorem oneResponsePerOperation : Obligations.OneResponsePerOperation := fun _ _ h hr =>
  (step_carries_or_answers hr h).imp (fun hc => ⟨hc.responses, hc.busy, hc.offered⟩) id

end Sys2Proof.Proofs
end

section
/-!
Reset (R270, R271): at a step boundary it is taken before anything else, whatever the block was doing, and what it leaves
differs from the reset state in the environment's inputs and the record of outputs alone.
-/

namespace Sys2Proof.Proofs

open Sys2Proof.Machine Sys2Proof.Laws

/-- R271: neither BUSY, the phase nor a framer command is looked at. -/
theorem fetch_reset {s : State} {rest : List HostEvent} (h : s.host = .reset :: rest) :
    fetch s = .done (doReset { s with host := rest }) := by
  unfold fetch
  rw [h]

theorem step_reset {s : State} {rest : List HostEvent} (h : s.host = .reset :: rest) :
    step s = .next (doReset { s with host := rest }) := by
  rw [step_eq, fetch_reset h]
  rfl

/-- R36, R270: the inputs and the outputs apart, a reset leaves nothing of the state before it. -/
theorem doReset_block (s : State) :
    { doReset s with responses := [], bus := [], host := [], draws := [], drawIndex := 0 } = State.reset := rfl

/-- Settles O52: the step is a reset (`step_reset`), which keeps the inputs and the outputs alone (`doReset_block`). -/
theorem resetAbandonsOperation : Obligations.ResetAbandonsOperation := fun s rest h =>
  ⟨doReset { s with host := rest }, step_reset h, doReset_responses _, doReset_bus _, doReset_host _, doReset_block _⟩

end Sys2Proof.Proofs
end
